-- ==== Sys2Proof/Word.lean ====
section
/-! DEFINITION. The word types of the block and the one-bit word of rule R7 (00_scope.md). -/

namespace Sys2Proof

/-- A device register, a command word, a counter: 32 bits (R6 `REGW`, `CNTW`). -/
abbrev Word := BitVec 32

/-- One byte of memory (R64). -/
abbrev Byte := BitVec 8

/-- An 8-bit channel mask, bit `k` for video channel `k` (R7). -/
abbrev Mask := BitVec 8

/-- A video channel number, 0 to 7 (R6 `NVID`). -/
abbrev Chan := Fin 8

/-- `bit(k)` of R7 at 32 bits. -/
def wordBit (k : Nat) : Word := 1#32 <<< k

/-- `bit(k)` of R7 at the width of a channel mask. -/
def maskBit (k : Chan) : Mask := 1#8 <<< k.val

/-- Bits 7:0 of a register word: its video channel mask (R31). -/
def videoBits (v : Word) : Mask := v.extractLsb' 0 8

end Sys2Proof
end

