-- ==== Sys2Proof/Machine/Bank.lean ====
section
/-! DEFINITION. A file of eight like things, one per video channel, and of four like things, one per field and slot of a
channel (10_state.md R21, R30), as plain data. -/

namespace Sys2Proof.Machine

/-- Eight values, one per channel number. -/
structure Bank (α : Type) where
  c0 : α
  c1 : α
  c2 : α
  c3 : α
  c4 : α
  c5 : α
  c6 : α
  c7 : α
deriving DecidableEq, Repr

/-- The value of channel `k`. -/
def Bank.get {α : Type} (b : Bank α) (k : Chan) : α :=
  match k.val with
  | 0 => b.c0
  | 1 => b.c1
  | 2 => b.c2
  | 3 => b.c3
  | 4 => b.c4
  | 5 => b.c5
  | 6 => b.c6
  | _ => b.c7

/-- The bank with channel `k`'s value replaced. -/
def Bank.set {α : Type} (b : Bank α) (k : Chan) (v : α) : Bank α :=
  match k.val with
  | 0 => { b with c0 := v }
  | 1 => { b with c1 := v }
  | 2 => { b with c2 := v }
  | 3 => { b with c3 := v }
  | 4 => { b with c4 := v }
  | 5 => { b with c5 := v }
  | 6 => { b with c6 := v }
  | _ => { b with c7 := v }

/-- The bank given channel by channel. -/
def Bank.tabulate {α : Type} (f : Chan → α) : Bank α := ⟨f 0, f 1, f 2, f 3, f 4, f 5, f 6, f 7⟩

/-- The bank with one value in every place. -/
def Bank.fill {α : Type} (v : α) : Bank α := Bank.tabulate fun _ => v

/-- Four values, one per field and slot of a channel (R30: `j = 2 * field + slot`). -/
structure BySlot (α : Type) where
  f0p : α
  f0b : α
  f1p : α
  f1b : α
deriving DecidableEq, Repr

/-- The video channels, in ascending order. -/
def allChans : List Chan := [0, 1, 2, 3, 4, 5, 6, 7]

end Sys2Proof.Machine
end

