-- ==== Sys2Proof/Config.lean ====
section
/-! DEFINITION. The parameters of the block (00_scope.md R6) and the one free value of the model. The parameter
record is a field of the machine's state that no step changes, so that what is proved holds for every value of it. -/

namespace Sys2Proof

/-- Byte offsets of the device registers, `RegMap` of R6 and R30 (10_state.md): one for every register, so that any layout
can be given. -/
structure RegMap where
  intStatus : Nat
  pbStatus : Nat
  dmaCmd : Nat
  fifoStatus : Nat
  dmaEn : Nat
  chConfig : Machine.Bank Nat
  chGeom : Machine.Bank Nat
  decStatus : Machine.Bank Nat
  chAddr : Machine.Bank (Machine.BySlot Nat)
deriving DecidableEq, Repr

/-- The open parameters (92_eei_decisions.md, last line): everything else of R6 is fixed. -/
structure Params where
  regMap : RegMap
  /-- `CMD_RUN`, the run bit of the DMA command word (R32) -/
  cmdRun : Nat
  /-- `TOUT_BIT`, the global DMA timeout bit of INT_STATUS (R33) -/
  toutBit : Nat
  /-- `T_DEFER` in milliseconds (R128) -/
  tDefer : Nat
  /-- `T_WDOG` in milliseconds (R259) -/
  tWdog : Nat
  /-- `FIELD_BASE` (R69) -/
  fieldBase : Nat
  /-- `MAX_FIELD_BYTES` (R69) -/
  maxFieldBytes : Nat
  /-- `QDEPTH` (R26) -/
  qdepth : Nat
deriving DecidableEq, Repr

/-- The default offsets of R30. -/
def RegMap.default : RegMap where
  intStatus := 0x000
  pbStatus := 0x004
  dmaCmd := 0x008
  fifoStatus := 0x00C
  dmaEn := 0x028
  chConfig := Machine.Bank.tabulate fun k => 0x040 + 4 * k.val
  chGeom := Machine.Bank.tabulate fun k => 0x060 + 4 * k.val
  decStatus := Machine.Bank.tabulate fun k => 0x080 + 4 * k.val
  chAddr := Machine.Bank.tabulate fun k =>
    ⟨0x100 + 16 * k.val, 0x104 + 16 * k.val, 0x108 + 16 * k.val, 0x10C + 16 * k.val⟩

/-- The default values of R6. DESIGN CHOICE (unsafe, log 4): `FIELD_BASE` is open there; the test vectors' value
is taken. -/
def Params.default : Params where
  regMap := RegMap.default
  cmdRun := 31
  toutBit := 17
  tDefer := 100
  tWdog := 50
  fieldBase := 0x10000000
  maxFieldBytes := 414720
  qdepth := 16

/-- What R6, D7 and D8 ask of the parameters: the field buffer region fits the 32-bit space, the run bit and the
timeout bit are register bits outside the sixteen channel bits. -/
def Params.ok (p : Params) : Bool :=
  p.fieldBase + 32 * p.maxFieldBytes ≤ 2 ^ 32
    && (16 ≤ p.cmdRun && p.cmdRun < 32)
    && (16 ≤ p.toutBit && p.toutBit < 32)

/-- FREE VALUE (log 8): what CH_CONFIG, CH_GEOM and CH_ADDR hold after a hardware reset, which R291 leaves
undefined; applied to the state's counter of draws. Nothing constrains it. -/
opaque Config.freeReg : Nat → Word

end Sys2Proof
end

