-- ==== Sys2Proof/Syntax.lean ====
section
/-! DEFINITION. The ten operations of the block: seven host command packets and three events
(30_encoding.md R90 to R96 and R101; spec/opcode_table.json). -/

namespace Sys2Proof

/-- Interlace mode, also the field-order tag of a completion record: the codes of R23 and R103 coincide. -/
inductive FieldMode where
  | interlaced
  | top
  | bottom
  | alternate
deriving DecidableEq, Repr

/-- One operation: a command packet with its operand fields at their encoded widths, or an event. -/
inductive Instr where
  /-- ENABLE id (R123) -/
  | enable (id : BitVec 4)
  /-- DISABLE id (R124) -/
  | disable (id : BitVec 4)
  /-- START k (R158); 8 to 15 decode and answer ERR_CHANNEL -/
  | start (ch : BitVec 4)
  /-- STOP k (R162) -/
  | stop (ch : BitVec 4)
  /-- ENQ k, addr, cap (R166) -/
  | enq (ch : BitVec 4) (addr cap : Word)
  /-- SETFMT k, width, height, bpp, mode (R154) -/
  | setfmt (ch : BitVec 4) (width height : BitVec 16) (bpp : BitVec 3) (mode : FieldMode)
  /-- RDSR idx (R172) -/
  | rdsr (idx : BitVec 16)
  /-- the interrupt event, line EV[0] (R233) -/
  | irq
  /-- the deferred-reset timer event, line EV[1] (R257) -/
  | tdefer
  /-- the resync watchdog event, line EV[2] (R259) -/
  | twdog
deriving DecidableEq, Repr

end Sys2Proof
end

