-- ==== Sys2Proof/Decode.lean ====
section
/-! DEFINITION. Decoding and encoding of command packets and event lines (30_encoding.md R90 to R97, R101). Decoding
is total on every word sequence: an operation, an illegal packet rejected by name, or too few words yet. -/

namespace Sys2Proof

/-! ### Operand codes -/

/-- The codes of R23. -/
def FieldMode.code : FieldMode → BitVec 2
  | .interlaced => 0
  | .top => 1
  | .bottom => 2
  | .alternate => 3

/-- The mode a code of R23 names; every code is assigned. -/
def FieldMode.ofCode (c : BitVec 2) : FieldMode :=
  if c = 0 then .interlaced else if c = 1 then .top else if c = 2 then .bottom else .alternate

/-! ### The fields of W0 (R91) -/

/-- OPC, bits 31:24. -/
def w0Opc (w : Word) : BitVec 8 := w.extractLsb' 24 8

/-- RSV, bits 23:20. -/
def w0Rsv (w : Word) : BitVec 4 := w.extractLsb' 20 4

/-- CH, bits 19:16. -/
def w0Ch (w : Word) : BitVec 4 := w.extractLsb' 16 4

/-- IMM, bits 15:0. -/
def w0Imm (w : Word) : BitVec 16 := w.extractLsb' 0 16

/-- The number of words of a packet, by `W0[31:24]` alone, legal or not (R90). -/
def packetLength (w0 : Word) : Nat :=
  if w0Opc w0 = 0x20 then 3 else if w0Opc w0 = 0x21 then 2 else 1

/-! ### The opcode map (R96) -/

/-- The seven assigned operation codes. -/
inductive Opc where
  | enable
  | disable
  | start
  | stop
  | enq
  | setfmt
  | rdsr
deriving DecidableEq, Repr

/-- One row of R96: `W0` selects it when `W0 & mask` equals `pattern`. -/
structure OpcodeRow where
  op : Opc
  pattern : Word
  mask : Word
deriving DecidableEq, Repr

/-- The rows of R96, in its order. -/
def opcodeTable : List OpcodeRow :=
  [ ⟨.enable, 0x01000000, 0xFFF0FFFF⟩,
    ⟨.disable, 0x02000000, 0xFFF0FFFF⟩,
    ⟨.start, 0x10000000, 0xFFF0FFFF⟩,
    ⟨.stop, 0x11000000, 0xFFF0FFFF⟩,
    ⟨.enq, 0x20000000, 0xFFF0FFFF⟩,
    ⟨.setfmt, 0x21000000, 0xFFF0FFC8⟩,
    ⟨.rdsr, 0x30000000, 0xFFFF0000⟩ ]

/-- Does `w0` select the row? -/
def OpcodeRow.selects (r : OpcodeRow) (w0 : Word) : Bool := w0 &&& r.mask == r.pattern

/-- The operation `w0` selects, if any. -/
def selectOpc (w0 : Word) : Option Opc := (opcodeTable.find? fun r => r.selects w0).map OpcodeRow.op

/-- Why a `W0` is illegal (R97). All of them are answered ERR_ILLEGAL. -/
inductive DecodeError where
  /-- OPC is none of the seven assigned codes -/
  | reservedOpcode
  /-- RSV is not zero -/
  | reservedBits
  /-- CH is not zero in format R -/
  | channelBits
  /-- an unused IMM bit is set in format N, Q or F -/
  | immBits
deriving DecidableEq, Repr

/-- The name of the first field of an unmatched `W0` that is at fault. -/
def illegalReason (w0 : Word) : DecodeError :=
  if w0Opc w0 ∉ [0x01#8, 0x02#8, 0x10#8, 0x11#8, 0x20#8, 0x21#8, 0x30#8] then .reservedOpcode
  else if w0Rsv w0 ≠ 0 then .reservedBits
  else if w0Opc w0 = 0x30 then .channelBits
  else .immBits

/-- The operands of a matched packet (R92 to R95). -/
def decodeOperands (op : Opc) (w0 w1 w2 : Word) : Instr :=
  match op with
  | .enable => .enable (w0Ch w0)
  | .disable => .disable (w0Ch w0)
  | .start => .start (w0Ch w0)
  | .stop => .stop (w0Ch w0)
  | .enq => .enq (w0Ch w0) w1 w2
  | .setfmt =>
    .setfmt (w0Ch w0) (w1.extractLsb' 0 16) (w1.extractLsb' 16 16) (w0.extractLsb' 0 3)
      (FieldMode.ofCode (w0.extractLsb' 4 2))
  | .rdsr => .rdsr (w0Imm w0)

/-- What stands at the head of a stream of command words. -/
inductive Packet where
  /-- not all words of the packet are there yet -/
  | short
  /-- an illegal packet, and the words after it -/
  | illegal (why : DecodeError) (rest : List Word)
  /-- a decoded operation, and the words after its packet -/
  | op (i : Instr) (rest : List Word)
deriving DecidableEq, Repr

/-- Take one packet whole from the head of the stream (R90, R97). -/
def decodePacket : List Word → Packet
  | [] => .short
  | w0 :: ws =>
    if ws.length + 1 < packetLength w0 then .short
    else
      match selectOpc w0 with
      | none => .illegal (illegalReason w0) (ws.drop (packetLength w0 - 1))
      | some op => .op (decodeOperands op w0 (ws.getD 0 0) (ws.getD 1 0)) (ws.drop (packetLength w0 - 1))

/-- The event a one-hot line pattern requests (R101). -/
def decodeEvent (lines : BitVec 3) : Option Instr :=
  if lines = 0b001 then some .irq
  else if lines = 0b010 then some .tdefer
  else if lines = 0b100 then some .twdog
  else none

/-! ### The encoder, from the same tables -/

/-- How an operation reaches the block: the words of a packet, or event lines. -/
inductive Encoded where
  | packet (ws : List Word)
  | event (lines : BitVec 3)
deriving DecidableEq, Repr

/-- `W0 = (OPC, 0000, CH, IMM)` (R91 to R95). -/
def encodeW0 (opc : BitVec 8) (ch : BitVec 4) (imm : BitVec 16) : Word := opc ++ 0#4 ++ ch ++ imm

/-- The encoding of an operation (R92 to R96, R101). -/
def encode : Instr → Encoded
  | .enable id => .packet [encodeW0 0x01 id 0]
  | .disable id => .packet [encodeW0 0x02 id 0]
  | .start ch => .packet [encodeW0 0x10 ch 0]
  | .stop ch => .packet [encodeW0 0x11 ch 0]
  | .enq ch addr cap => .packet [encodeW0 0x20 ch 0, addr, cap]
  | .setfmt ch width height bpp mode =>
    .packet [encodeW0 0x21 ch (0#10 ++ mode.code ++ 0#1 ++ bpp), height ++ width]
  | .rdsr idx => .packet [encodeW0 0x30 0 idx]
  | .irq => .event 0b001
  | .tdefer => .event 0b010
  | .twdog => .event 0b100

/-- The operation an encoding stands for, when it is exactly one packet or one line. -/
def decodeEncoded : Encoded → Option Instr
  | .packet ws =>
    match decodePacket ws with
    | .op i [] => some i
    | _ => none
  | .event lines => decodeEvent lines

/-! ### The host's view: bits numbered as the opcode table numbers them (log 16) -/

/-- The words of a packet whose bits below `nbits` are `w` and whose other bits are 0, first word lowest. -/
def tableWords (nbits w : Nat) : List Word :=
  let v := w % 2 ^ nbits
  let w0 := BitVec.ofNat 32 v
  [w0, BitVec.ofNat 32 (v / 2 ^ 32), BitVec.ofNat 32 (v / 2 ^ 64)].take (packetLength w0)

/-- A table row narrower than one command word is an event row: its bits are the lines `EV[2:0]`. -/
def decodeTableWord (nbits w : Nat) : Option Instr :=
  if nbits < 32 then
    if w < 8 then decodeEvent (BitVec.ofNat 3 w) else none
  else decodeEncoded (.packet (tableWords nbits w))

end Sys2Proof
end

