-- ==== Sys2Proof/Machine/State.lean ====
section
/-! DEFINITION. The state of the block, of the device registers it drives and of memory, as plain data, and its value
after reset (10_state.md R20 to R40). INVENTORY.md lists every field with its rule and reset value. -/

namespace Sys2Proof.Machine

/-! ### Small enumerations -/

/-- `fsm`, the field-pair state machine (R22); the code 3 is never stored and has no value here. -/
inductive Fsm where
  | idle
  | awaitF0
  | f0Captured
deriving DecidableEq, Repr

/-- A ping-pong slot: P is coded 0, B is coded 1 (R35). -/
inductive Slot where
  | p
  | b
deriving DecidableEq, Repr

/-- The number of a field: 0 or 1 (R35). -/
inductive FieldNo where
  | f0
  | f1
deriving DecidableEq, Repr

/-- State of a queued buffer (R26). -/
inductive BufState where
  | queued
  | partialFill
deriving DecidableEq, Repr

/-- The status codes of a response (30_encoding.md R100). -/
inductive Status where
  | ok
  | busy
  | errChannel
  | errState
  | errRange
  | errIllegal
deriving DecidableEq, Repr

/-- The device registers of R30, by name. -/
inductive RegName where
  | intStatus
  | pbStatus
  | dmaCmd
  | fifoStatus
  | dmaEn
  | chConfig (k : Chan)
  | chGeom (k : Chan)
  | decStatus (k : Chan)
  | chAddr (k : Chan) (f : FieldNo) (s : Slot)
deriving DecidableEq, Repr

/-- The status registers, which the capture device drives (R30). -/
inductive StatusReg where
  | int
  | fifo
  | pb
  | dec (k : Chan)
deriving DecidableEq, Repr

/-! ### The context of a channel -/

/-- An entry of a frame buffer queue (R26). -/
structure Entry where
  addr : Word
  cap : Word
  bstate : BufState
deriving DecidableEq, Repr

/-- The context `CH[k]` of a video channel (R21). -/
structure Ctx where
  fsm : Fsm
  curField : FieldNo
  curPB : Slot
  noSignal : Bool
  alloc : Bool
  configured : Bool
  width : BitVec 16
  height : BitVec 16
  bpp : BitVec 3
  fieldMode : FieldMode
  timeoutCnt : Word
  errCnt : Word
  mismatchCnt : Word
  seq : Word
  /-- head first -/
  queue : List Entry
deriving DecidableEq, Repr

/-- Every field 0, the queue empty (R40). -/
def Ctx.reset : Ctx where
  fsm := .idle
  curField := .f0
  curPB := .p
  noSignal := false
  alloc := false
  configured := false
  width := 0
  height := 0
  bpp := 0
  fieldMode := .interlaced
  timeoutCnt := 0
  errCnt := 0
  mismatchCnt := 0
  seq := 0
  queue := []

/-! ### Dispatcher latches and phases -/

/-- The five latches of one interrupt invocation (R29). -/
structure Latches where
  st : Word
  er : Word
  en : Word
  pb : Word
  rst : Mask
deriving DecidableEq, Repr

/-- The next atomic section of an interrupt invocation (60_exceptions.md R233; R24 (b)). -/
inductive IrqPhase where
  /-- no invocation in progress -/
  | idle
  /-- P1, the read of INT_STATUS -/
  | readInt
  /-- P1, the read of FIFO_STATUS -/
  | readFifo
  /-- P2, the timeout increments -/
  | timeout
  /-- P3, the locked reads of DMA_EN and PB_STATUS -/
  | masks
  /-- P4, the computation of the ready sets -/
  | ready
  /-- P5, the ready channels not yet served -/
  | channels (pending : Mask)
  /-- P5, the audio hand-off -/
  | audio
  /-- P6, section A of the reset operation for the channels not yet done -/
  | discard (pending : Mask)
  /-- P6, section B of the reset operation -/
  | resetRegs
  /-- the end of the invocation -/
  | leave
deriving DecidableEq, Repr

/-- A host command in progress: the operation and its next atomic section (R24). -/
inductive CmdTask where
  | enable (id : BitVec 4)
  | disable (id : BitVec 4)
  /-- START: the tests under the start/stop mutex -/
  | startCheck (k : Chan)
  /-- START section 1: step `j` of ProgramBuffers (0 to 3 CH_ADDR, 4 CH_GEOM, then `alloc`) -/
  | startProgram (k : Chan) (j : Nat)
  /-- START section 2 -/
  | startQueue (k : Chan)
  /-- START section 3 -/
  | startEnable (k : Chan)
  /-- STOP section 1 -/
  | stopDisable (k : Chan)
  /-- STOP section 2 -/
  | stopFlush (k : Chan)
  | enqueue (k : Chan) (addr cap : Word)
  | setFormat (k : Chan) (width height : BitVec 16) (bpp : BitVec 3) (mode : FieldMode)
  | readStatus (idx : BitVec 16)
  /-- the response record, after the last section -/
  | respond (status : Status) (data : Word)
deriving DecidableEq, Repr

/-! ### Output records and the history -/

/-- A completion record (30_encoding.md R102); `ts` is the 64-bit timestamp of C3 and C4. -/
structure Cpl where
  ch : Chan
  tag : FieldMode
  /-- the status bit: true is ERROR, false is DONE -/
  error : Bool
  seq : Word
  addr : Word
  ts : Nat
deriving DecidableEq, Repr

/-- One transfer of the recorded history (R38); memory reads are not among them (log 18). -/
inductive Obs where
  | regRead (offset : Nat) (value : Word)
  | regWrite (offset : Nat) (value : Word)
  | memWrite (addr : Nat) (bytes : List Byte)
  | rsp (status : Status) (data : Word)
  | cpl (record : Cpl)
  | aud (ready pb : Mask)
deriving DecidableEq, Repr

/-! ### The capture device and memory -/

/-- The device registers (R30), and the two scripts by which the environment departs from a faithful, quiet capture
device. -/
structure Device where
  intStatus : Word
  pbStatus : Word
  fifoStatus : Word
  decStatus : Bank Word
  dmaEn : Word
  dmaCmd : Word
  chConfig : Bank Word
  chGeom : Bank Word
  chAddr : Bank (BySlot Word)
  /-- What the next writes of DMA_EN and DMA_CMD store instead of the value written; `none`, or an empty list, is the
  faithful storage of R61. R120, R308, D16; log 9. -/
  glitch : List (Option Word)
  /-- What the capture device leaves in the line about to be read, one item per `MemRead`; `none`, or an empty list,
  leaves it alone. R65, R266; log 10. -/
  lateFill : List (Option (List Byte))
deriving DecidableEq, Repr

/-- Memory (20_memory.md R64): the listed bytes, addresses strictly rising. Every unlisted address reads
`Memory.unlisted` (Machine/Memory.lean). -/
abbrev Mem := List Host.Cell

/-! ### The schedule -/

/-- The ports an operation is taken from (00_scope.md R5): CMD, or one line of EV. -/
inductive Port where
  | cmd
  | irq
  | tdefer
  | twdog
deriving DecidableEq, Repr

/-- The agents that hold an operation in progress between two of its atomic sections (60_exceptions.md R262). -/
inductive Agent where
  | executor
  /-- `pick` selects among the channels still to be served in a phase that has several (R245) -/
  | dispatcher (pick : Nat)
  | watchdog
deriving DecidableEq, Repr

/-- One move of the whole system: a step of the environment, or the leave for an agent inside the block to take its
next step (60_exceptions.md R262, R266; 00_scope.md R5). Log 5 and log 6. -/
inductive Move where
  /-- the host puts words on the CMD port -/
  | offer (ws : List Word)
  /-- event request lines are asserted -/
  | raise (lines : BitVec 3)
  /-- `TICK n`: the clock advances -/
  | tick (n : Nat)
  /-- the capture device drives a status register -/
  | drive (r : StatusReg) (v : Word)
  /-- `FIELD k, f, s := bytes`: the capture device fills a field buffer -/
  | fill (k : Chan) (f : FieldNo) (s : Slot) (bytes : List Byte)
  /-- the capture device's writes that will land just before coming `MemRead`s -/
  | lateFills (items : List (Option (List Byte)))
  /-- corruptions of coming writes of DMA_EN and DMA_CMD -/
  | glitches (items : List (Option Word))
  /-- the consumer writes memory -/
  | consumer (addr : Word) (bytes : List Byte)
  /-- the hardware reset input -/
  | hwReset
  /-- take an operation from a port and run it to its end, no other section between its own -/
  | serve (p : Port)
  /-- take an operation from a port and leave it in progress before its first section (the timer TDEFER, which has
  one section, runs it) -/
  | take (p : Port)
  /-- the agent takes its next atomic section -/
  | advance (a : Agent)
deriving DecidableEq, Repr

/-! ### The state -/

structure State where
  /-- the parameters (00_scope.md R6), never changed by a step -/
  cfg : Params
  /-- `CH[0..7]` (R21) -/
  ch : Bank Ctx
  /-- `videoDMA_ID` (R27) -/
  videoDMA : Mask
  /-- `videoCap_ID` (R27) -/
  videoCap : Mask
  pendEn : Word
  pendCmd : Word
  pendValid : Bool
  lastResetMask : Mask
  verifyErr : Bool
  now : Nat
  deferArmed : Bool
  deferDeadline : Nat
  wdogDeadline : Nat
  lastFaultTime : Nat
  lastFaultValid : Bool
  lat : Latches
  irqActive : Bool
  irqPhase : IrqPhase
  cmdTask : Option CmdTask
  /-- a TWDOG whose deadline has been rearmed and whose device section is still to come -/
  wdogPending : Bool
  dev : Device
  mem : Mem
  /-- the recorded history of every port, oldest first (R38) -/
  hist : List Obs
  /-- the words waiting on the CMD port, oldest first -/
  cmdPort : List Word
  /-- the event request lines held asserted (30_encoding.md R101, 60_exceptions.md R232) -/
  evHeld : BitVec 3
  /-- the moves to come; the model's own field (log 5) -/
  sched : List Move
  /-- how many free values have been drawn; the model's own field (log 8) -/
  draws : Nat
deriving DecidableEq, Repr

/-- Why the machine stops with a fault. No rule of the spec ends an operation (R248). -/
inductive Fault where
  /-- Raised by the copy sequencer when a line it is about to move does not lie inside the 2^32 bytes of memory (R64).
  SAFE: no state that meets the invariant of Safety.lean raises it (log 13). -/
  | addressSpace (addr : Nat)
deriving DecidableEq, Repr

/-- Why the machine refuses an instruction. -/
inductive Refusal where
  /-- Raised by exec for an instruction without a meaning, by its mnemonic. SAFE; no arm raises it in this model. -/
  | notModelled (mnemonic : String)
deriving DecidableEq, Repr

/-- The outcome of an operation or of one of its sections. -/
abbrev Res := Host.Outcome State Fault Refusal

/-! ### Reset -/

/-- The capture device in the model's initial state: DMA_EN and DMA_CMD are 0 (R40); the other registers, for which the
spec gives no value, are 0 by DESIGN CHOICE (unsafe, log 1 and log 2). -/
def Device.reset : Device where
  intStatus := 0
  pbStatus := 0
  fifoStatus := 0
  decStatus := Bank.fill 0
  dmaEn := 0
  dmaCmd := 0
  chConfig := Bank.fill 0
  chGeom := Bank.fill 0
  chAddr := Bank.fill ⟨0, 0, 0, 0⟩
  glitch := []
  lateFill := []

/-- The machine right after reset (R40, R290). DESIGN CHOICE for the latches (log 14), the default parameters (log 4)
and the empty schedule (log 5). -/
def State.reset : State where
  cfg := Params.default
  ch := Bank.fill Ctx.reset
  videoDMA := 0
  videoCap := 0
  pendEn := 0
  pendCmd := 0
  pendValid := false
  lastResetMask := 0
  verifyErr := false
  now := 0
  deferArmed := false
  deferDeadline := 0
  wdogDeadline := Params.default.tWdog
  lastFaultTime := 0
  lastFaultValid := false
  lat := ⟨0, 0, 0, 0, 0⟩
  irqActive := false
  irqPhase := .idle
  cmdTask := none
  wdogPending := false
  dev := Device.reset
  mem := []
  hist := []
  cmdPort := []
  evHeld := 0
  sched := []
  draws := 0

end Sys2Proof.Machine
end

