-- ==== Sys2Proof/Machine/Flags.lean ====
section
/-! DEFINITION. Bits of the device registers: the command word and the empty test (40_dma_channel_control.md R130,
R131), the classifier and the ready sets (60_exceptions.md R235, R240), the slot and field bits
(42_pingpong_weaver.md R191). -/

namespace Sys2Proof.Machine

/-- The 16 channel bits of a register word (R31). -/
def channelBits (e : Word) : Word := e &&& 0xFFFF#32

/-- `cmd_word(e)` (R130): RUN and a copy of the channel bits; bits 30:16 are 0. -/
def cmdWord (p : Params) (e : Word) : Word := wordBit p.cmdRun ||| channelBits e

/-- "no channels remain enabled" (R131): all sixteen channel bits are clear. -/
def noChannels (e : Word) : Bool := channelBits e == 0

/-- `fifo_err(er)` (10_state.md R34). -/
def fifoErr (er : Word) : Mask := er.extractLsb' 24 8 ||| er.extractLsb' 16 8

/-- The class NOT_OURS of R235: neither status register shows a pending condition. -/
def notOurs (p : Params) (st er : Word) : Bool :=
  st &&& (0x0000FFFF#32 ||| wordBit p.toutBit) == 0 && er &&& 0xFFFF0000#32 == 0

/-- The global DMA timeout bit (R33). -/
def timedOut (p : Params) (st : Word) : Bool := st.getLsbD p.toutBit

/-- `vready` of phase P4 (R240). -/
def videoReady (st er en : Word) : Mask := (videoBits st &&& videoBits en) ||| fifoErr er

/-- `aready` of phase P4 (R240). -/
def audioReady (st : Word) : Mask := st.extractLsb' 8 8

/-- The audio ping-pong bits of PB_STATUS (R35). -/
def audioSlots (pb : Word) : Mask := pb.extractLsb' 8 8

/-- The slot of the buffer just completed for channel `k` (R191). -/
def slotSelect (pb : Word) (k : Chan) : Slot := if pb.getLsbD k.val then .b else .p

/-- The number of the field just completed for channel `k` (R191). -/
def fieldSelect (pb : Word) (k : Chan) : FieldNo := if pb.getLsbD (24 + k.val) then .f1 else .f0

end Sys2Proof.Machine
end

