-- ==== Sys2Proof/Machine/Memory.lean ====
section
/-! DEFINITION. The memory space of 20_memory.md R64 to R67 as an address-sorted list of bytes. -/

namespace Sys2Proof.Machine

/-- What a byte nothing has written reads as. DESIGN CHOICE (unsafe, log 3): R291 leaves memory at reset undefined. -/
def Memory.unlisted : Byte := 0

/-- The number of byte addresses (R64). -/
def Memory.size : Nat := 2 ^ 32

/-- The byte at an address. -/
def Memory.read : Mem → Nat → Byte
  | [], _ => Memory.unlisted
  | (b, v) :: m, a => if a = b then v else Memory.read m a

/-- Write one byte, keeping the addresses rising and listing no byte that reads the same unlisted. -/
def Memory.write : Mem → Nat → Byte → Mem
  | [], a, x => if x = Memory.unlisted then [] else [(a, x)]
  | (b, v) :: m, a, x =>
    if a < b then (if x = Memory.unlisted then (b, v) :: m else (a, x) :: (b, v) :: m)
    else if a = b then (if x = Memory.unlisted then m else (a, x) :: m)
    else (b, v) :: Memory.write m a x

/-- `MemRead(addr, n)` (R65): `n` bytes, lowest address first. -/
def Memory.readBytes (m : Mem) (a : Nat) : Nat → List Byte
  | 0 => []
  | n + 1 => Memory.read m a :: Memory.readBytes m (a + 1) n

/-- `MemWrite(addr, n, v)` (R66): byte `i` of `v` to `addr + i`. -/
def Memory.writeBytes (m : Mem) (a : Nat) : List Byte → Mem
  | [] => m
  | x :: xs => Memory.writeBytes (Memory.write m a x) (a + 1) xs

/-- Addresses strictly rise from `lo` on, lie in the space, and no listed byte reads the same unlisted. -/
def Memory.wfFrom (lo : Nat) : Mem → Bool
  | [] => true
  | (a, v) :: m => lo ≤ a && a < Memory.size && v != Memory.unlisted && Memory.wfFrom (a + 1) m

/-- The canonical form. -/
def Memory.wf (m : Mem) : Bool := Memory.wfFrom 0 m

end Sys2Proof.Machine
end

