-- ==== Sys2Proof/Machine/Operands.lean ====
section
/-! DEFINITION. Operand ranges (30_encoding.md R98), geometry (41_host_stream_queue.md R150) and field buffer addresses
(20_memory.md R69). Geometry and offsets are natural numbers (R152). -/

namespace Sys2Proof.Machine

/-- The video channel a CH operand names; 8 to 15 name none (R98 check 2). -/
def chanOf (ch : BitVec 4) : Option Chan := if h : ch.toNat < 8 then some ⟨ch.toNat, h⟩ else none

/-- Lines of one hardware field for a mode and a frame height (R150). -/
def fieldLinesOf (mode : FieldMode) (height : Nat) : Nat :=
  if mode = .interlaced then (height + 1) / 2 else height

/-- `pitch(k)`: bytes of one output scanline (R150). -/
def pitch (c : Ctx) : Nat := c.width.toNat * c.bpp.toNat

/-- `field_lines(k)` (R150). -/
def fieldLines (c : Ctx) : Nat := fieldLinesOf c.fieldMode c.height.toNat

/-- `geom_word(k)`: lines per field above, width below (R36, R150). -/
def geomWord (c : Ctx) : Word := BitVec.ofNat 16 (fieldLines c) ++ c.width

/-- SETFMT's operand ranges (R154). -/
def fmtInRange (p : Params) (width height : BitVec 16) (bpp : BitVec 3) (mode : FieldMode) : Bool :=
  width.toNat ≠ 0 && height.toNat ≠ 0 && bpp.toNat ≠ 0 && bpp.toNat ≤ 4
    && fieldLinesOf mode height.toNat * width.toNat * bpp.toNat ≤ p.maxFieldBytes

/-- ENQ's operand ranges (R166): a natural-number sum. -/
def bufInRange (addr cap : Word) : Bool := cap.toNat ≠ 0 && addr.toNat + cap.toNat ≤ 2 ^ 32

/-- The assigned indices of the status-register space (10_state.md R37). -/
def srAssigned (idx : BitVec 16) : Bool := idx.toNat < 0x40 || (0x80 ≤ idx.toNat && idx.toNat ≤ 0x89)

/-- The code of a slot (R35). -/
def Slot.num : Slot → Nat
  | .p => 0
  | .b => 1

/-- The number of a field (R35). -/
def FieldNo.num : FieldNo → Nat
  | .f0 => 0
  | .f1 => 1

/-- `fb_addr(k, f, s)`: where a field buffer starts (R69). -/
def fbAddr (p : Params) (k : Chan) (f : FieldNo) (s : Slot) : Nat :=
  p.fieldBase + (4 * k.val + 2 * f.num + s.num) * p.maxFieldBytes

end Sys2Proof.Machine
end

