-- ==== Sys2Proof/Machine/Ops.lean ====
section
/-! DEFINITION. The named operations over the state: the history, the context file, the REG port (20_memory.md R61,
R62), WriteVerify and the register sequences (40_dma_channel_control.md R120 to R131), the MEM port (R65, R66),
the fault primitive (60_exceptions.md R250), event entry and return (R233, R253, R254). -/

namespace Sys2Proof.Machine

/-! ### Outcomes, the history, the context file -/

/-- Go on from a next state; a fault or a refusal ends the operation. -/
def andThen (r : Res) (f : State → Res) : Res :=
  match r with
  | .next s => f s
  | .fault e => .fault e
  | .refused e => .refused e

/-- Append one transfer to the history (R38). -/
def State.emit (s : State) (o : Obs) : State := { s with hist := s.hist ++ [o] }

/-- `CH[k]`. -/
def State.chan (s : State) (k : Chan) : Ctx := s.ch.get k

/-- Replace `CH[k]` by a function of itself. -/
def State.modChan (s : State) (k : Chan) (f : Ctx → Ctx) : State := { s with ch := s.ch.set k (f (s.ch.get k)) }

/-- `respond(status, data)`: one record on RSP (30_encoding.md R99). -/
def respond (status : Status) (data : Word) (s : State) : State := s.emit (.rsp status data)

/-! ### The REG port -/

/-- The value of a field and slot. -/
def BySlot.get {α : Type} (a : BySlot α) (f : FieldNo) (s : Slot) : α :=
  match f, s with
  | .f0, .p => a.f0p
  | .f0, .b => a.f0b
  | .f1, .p => a.f1p
  | .f1, .b => a.f1b

/-- The four values with that of a field and slot replaced. -/
def BySlot.set {α : Type} (a : BySlot α) (f : FieldNo) (s : Slot) (v : α) : BySlot α :=
  match f, s with
  | .f0, .p => { a with f0p := v }
  | .f0, .b => { a with f0b := v }
  | .f1, .p => { a with f1p := v }
  | .f1, .b => { a with f1b := v }

/-- The byte offset of a register (10_state.md R30). -/
def regOffset (m : RegMap) : RegName → Nat
  | .intStatus => m.intStatus
  | .pbStatus => m.pbStatus
  | .dmaCmd => m.dmaCmd
  | .fifoStatus => m.fifoStatus
  | .dmaEn => m.dmaEn
  | .chConfig k => m.chConfig.get k
  | .chGeom k => m.chGeom.get k
  | .decStatus k => m.decStatus.get k
  | .chAddr k f s => (m.chAddr.get k).get f s

/-- What a read of a register answers (R61): the stored value, or what the capture device drives. -/
def regValue (d : Device) : RegName → Word
  | .intStatus => d.intStatus
  | .pbStatus => d.pbStatus
  | .dmaCmd => d.dmaCmd
  | .fifoStatus => d.fifoStatus
  | .dmaEn => d.dmaEn
  | .chConfig k => d.chConfig.get k
  | .chGeom k => d.chGeom.get k
  | .decStatus k => d.decStatus.get k
  | .chAddr k f s => (d.chAddr.get k).get f s

/-- What a write of DMA_EN or DMA_CMD stores: the value written, unless the environment corrupts this write
(R120, R308; log 9). -/
def storedWord (d : Device) (v : Word) : Word :=
  match d.glitch with
  | some x :: _ => x
  | _ => v

/-- A write's effect on the registers (R62). The block never writes a status register. -/
def regStore (d : Device) (n : RegName) (v : Word) : Device :=
  match n with
  | .intStatus => d
  | .pbStatus => d
  | .fifoStatus => d
  | .decStatus _ => d
  | .dmaEn => { d with dmaEn := storedWord d v, glitch := d.glitch.tail }
  | .dmaCmd => { d with dmaCmd := storedWord d v, glitch := d.glitch.tail }
  | .chConfig k => { d with chConfig := d.chConfig.set k v }
  | .chGeom k => { d with chGeom := d.chGeom.set k v }
  | .chAddr k f s => { d with chAddr := d.chAddr.set k ((d.chAddr.get k).set f s v) }

/-- `RegRead(NAME)` as a transfer: the history records it, nothing else changes (R61). Its value is `regValue`. -/
def regRead (n : RegName) (s : State) : State := s.emit (.regRead (regOffset s.cfg.regMap n) (regValue s.dev n))

/-- `RegWrite(NAME, v)` (R62). -/
def regWrite (n : RegName) (v : Word) (s : State) : State :=
  let t := s.emit (.regWrite (regOffset s.cfg.regMap n) v)
  { t with dev := regStore s.dev n v }

/-- `WriteVerify(NAME, v)` (R120): the write, one read of the same register, and the sticky flag on a difference. -/
def writeVerify (n : RegName) (v : Word) (s : State) : State :=
  let t := regRead n (regWrite n v s)
  { t with verifyErr := s.verifyErr || regValue t.dev n != v }

/-- `WriteVerify(DMA_EN, e)` and the shadow rule R121: the value written goes into `videoDMA_ID`. -/
def setEnable (e : Word) (s : State) : State :=
  let t := writeVerify .dmaEn e s
  { t with videoDMA := videoBits e }

/-- Zero the command register when the enable value just written is empty (R124, R131). -/
def haltIfEmpty (e : Word) (s : State) : State := if noChannels e then writeVerify .dmaCmd 0 s else s

/-- The enable sequence of R123, R158 section 3 and R259: merge bits into DMA_EN as it reads now, then write the
command word. -/
def enableBits (bits : Word) (s : State) : State :=
  let e := s.dev.dmaEn ||| bits
  let t := setEnable e (regRead .dmaEn s)
  writeVerify .dmaCmd (cmdWord s.cfg e) t

/-- The disable sequence of R124 and R162 section 1: remove bits from DMA_EN as it reads now, halt if empty. -/
def disableBits (bits : Word) (s : State) : State :=
  let e := s.dev.dmaEn &&& ~~~bits
  haltIfEmpty e (setEnable e (regRead .dmaEn s))

/-! ### The MEM port -/

/-- The capture device's writes that land in the line about to be read (R65, R266; log 10); bytes past the line are
dropped (log 19). -/
def landFill (addr n : Nat) (s : State) : State :=
  match s.dev.lateFill with
  | [] => s
  | none :: rest => { s with dev := { s.dev with lateFill := rest } }
  | some bytes :: rest =>
    { s with dev := { s.dev with lateFill := rest }, mem := Memory.writeBytes s.mem addr (bytes.take n) }

/-- `MemWrite(addr, n, v)` (R66). -/
def memWrite (addr : Nat) (bytes : List Byte) (s : State) : State :=
  let t := s.emit (.memWrite addr bytes)
  { t with mem := Memory.writeBytes s.mem addr bytes }

/-- One scanline: `MemWrite(dst, n, MemRead(src, n))` (R67). Both lines must lie in the space of R64 (log 13). -/
def copyLine (src dst n : Nat) (s : State) : Res :=
  if Memory.size < src + n then .fault (.addressSpace src)
  else if Memory.size < dst + n then .fault (.addressSpace dst)
  else
    let t := landFill src n s
    .next (memWrite dst (Memory.readBytes t.mem src n) t)

/-! ### The frame buffer queue (10_state.md R26, 41_host_stream_queue.md R151) -/

/-- Set the state of the head entry, if there is one. -/
def markHead (b : BufState) : List Entry → List Entry
  | [] => []
  | e :: q => { e with bstate := b } :: q

/-- The in-flight frame is given up: the head buffer is QUEUED again and a field 0 is awaited (R126, R207). -/
def dropFrame (c : Ctx) : Ctx := { c with fsm := .awaitF0, queue := markHead .queued c.queue }

/-! ### Faults found in an interrupt (60_exceptions.md R249, R250) -/

/-- Flag channel `k` for reset in this invocation: `rst <- rst | bit(k)`. -/
def requestReset (k : Chan) (s : State) : State := { s with lat := { s.lat with rst := s.lat.rst ||| maskBit k } }

/-- The per-channel faults that count and request a reset. -/
inductive ChanFault where
  /-- FIFO data error (R241) -/
  | fifoData
  /-- field/slot mismatch (R207) -/
  | fieldMismatch
deriving DecidableEq, Repr

/-- `raise <Fault>(k)`: the counter and the reset-request bit of the fault's row, nothing else (R250). -/
def raiseFault (f : ChanFault) (k : Chan) (s : State) : State :=
  match f with
  | .fifoData => requestReset k (s.modChan k fun c => { c with errCnt := c.errCnt + 1 })
  | .fieldMismatch => requestReset k (s.modChan k fun c => { c with mismatchCnt := c.mismatchCnt + 1 })

/-- The global DMA timeout: every channel counts it and every channel is flagged (R238). -/
def raiseTimeout (s : State) : State :=
  { s with
    ch := Bank.tabulate fun k => { s.ch.get k with timeoutCnt := (s.ch.get k).timeoutCnt + 1 }
    lat := { s.lat with rst := 0xFF } }

/-! ### Event entry and return -/

/-- Taking an interrupt saves nothing and masks nothing: `irq_active <- 1 ; rst <- 0` (R233, R253). -/
def irqEnter (s : State) : State := { s with irqActive := true, lat := { s.lat with rst := 0 } }

/-- The end of an invocation: `irq_active <- 0` (R233, R254). -/
def irqLeave (s : State) : State := { s with irqActive := false }

/-! ### Loops over channels -/

/-- Run `f` on each channel of the list that the mask selects, in the list's order. -/
def forChans (m : Mask) (f : Chan → State → Res) : List Chan → State → Res
  | [], s => .next s
  | k :: ks, s => if m.getLsbD k.val then andThen (f k s) (forChans m f ks) else forChans m f ks s

end Sys2Proof.Machine
end

