-- ==== Sys2Proof/Machine/Records.lean ====
section
/-! DEFINITION. The words of output records (30_encoding.md R100 to R105) and the status-register space read by RDSR
(10_state.md R37). -/

namespace Sys2Proof.Machine

/-- One flag as a bit. -/
def flag (b : Bool) : BitVec 1 := BitVec.ofBool b

/-- The status codes of R100. -/
def Status.code : Status → BitVec 4
  | .ok => 0
  | .busy => 1
  | .errChannel => 2
  | .errState => 3
  | .errRange => 4
  | .errIllegal => 5

/-- The codes of R22. -/
def Fsm.code : Fsm → BitVec 2
  | .idle => 0
  | .awaitF0 => 1
  | .f0Captured => 2

/-- The code of a slot as a bit (R35). -/
def Slot.code : Slot → BitVec 1
  | .p => 0
  | .b => 1

/-- The number of a field as a bit (R35). -/
def FieldNo.code : FieldNo → BitVec 1
  | .f0 => 0
  | .f1 => 1

/-- The five words C0 to C4 of a completion record (R102). -/
def Cpl.words (c : Cpl) : List Word :=
  [ 0#15 ++ flag c.error ++ 0#6 ++ c.tag.code ++ 0#5 ++ BitVec.ofNat 3 c.ch.val,
    c.seq,
    c.addr,
    BitVec.ofNat 32 c.ts,
    BitVec.ofNat 32 (c.ts / 2 ^ 32) ]

/-- The word of an audio hand-off record (R105). -/
def audWord (ready pb : Mask) : Word := 0#16 ++ pb ++ ready

/-- CH_STATUS (R37 sel 0). -/
def chStatusWord (c : Ctx) : Word :=
  0#17 ++ c.bpp ++ 0#2 ++ c.fieldMode.code ++ 0#1 ++ flag c.configured ++ flag c.alloc ++ flag c.noSignal
    ++ c.curField.code ++ c.curPB.code ++ c.fsm.code

/-- CH_FORMAT (R37 sel 1). -/
def chFormatWord (c : Ctx) : Word := c.height ++ c.width

/-- Is the head entry PARTIAL? -/
def headPartial (q : List Entry) : Bool :=
  match q with
  | [] => false
  | e :: _ => e.bstate == .partialFill

/-- QSTAT (R37 sel 6); the length modulo 256 (log 15). -/
def qstatWord (q : List Entry) : Word := 0#23 ++ flag (headPartial q) ++ BitVec.ofNat 8 q.length

/-- The per-channel registers of the space (R37): sel 0 to 7. -/
def srChannel (c : Ctx) (sel : Nat) : Word :=
  match sel with
  | 0 => chStatusWord c
  | 1 => chFormatWord c
  | 2 => c.timeoutCnt
  | 3 => c.errCnt
  | 4 => c.mismatchCnt
  | 5 => c.seq
  | 6 => qstatWord c.queue
  | _ => 0

/-- CTRL_STATUS (R37 index 0x84). -/
def ctrlStatusWord (s : State) : Word :=
  0#27 ++ flag s.irqActive ++ flag s.verifyErr ++ flag s.lastFaultValid ++ flag s.deferArmed ++ flag s.pendValid

/-- The global registers of the space (R37): index 0x80 + `g`; of a time the low 32 bits (log 15). -/
def srGlobal (s : State) (g : Nat) : Word :=
  match g with
  | 0 => 0#24 ++ s.videoDMA
  | 1 => 0#24 ++ s.videoCap
  | 2 => s.pendEn
  | 3 => s.pendCmd
  | 4 => ctrlStatusWord s
  | 5 => 0#24 ++ s.lastResetMask
  | 6 => BitVec.ofNat 32 s.now
  | 7 => BitVec.ofNat 32 s.deferDeadline
  | 8 => BitVec.ofNat 32 s.wdogDeadline
  | _ => BitVec.ofNat 32 s.lastFaultTime

/-- The value of an assigned index (R37). -/
def srValue (s : State) (idx : BitVec 16) : Word :=
  if h : idx.toNat / 8 < 8 then srChannel (s.chan ⟨idx.toNat / 8, h⟩) (idx.toNat % 8)
  else srGlobal s (idx.toNat - 0x80)

end Sys2Proof.Machine
end

