-- ==== Sys2Proof/Machine/HostCommands.lean ====
section
/-! DEFINITION. START, STOP, ENQ, SETFMT and RDSR (41_host_stream_queue.md R150 to R172), each as its atomic sections and
as the whole operation. -/

namespace Sys2Proof.Machine

/-! ### START (R156, R158) -/

/-- START's test under the start/stop mutex: configured and not streaming. -/
def startable (c : Ctx) : Bool := c.configured && c.fsm == .idle

/-- The field and slot of CH_ADDR number `j` (10_state.md R30). -/
def fieldSlot : Nat → FieldNo × Slot
  | 0 => (.f0, .p)
  | 1 => (.f0, .b)
  | 2 => (.f1, .p)
  | _ => (.f1, .b)

/-- Step `j` of ProgramBuffers (R156): four plain CH_ADDR writes, CH_GEOM, `alloc`. -/
def programStep (k : Chan) (s : State) (j : Nat) : State :=
  if j < 4 then
    let fs := fieldSlot j
    regWrite (.chAddr k fs.1 fs.2) (BitVec.ofNat 32 (fbAddr s.cfg k fs.1 fs.2)) s
  else if j = 4 then regWrite (.chGeom k) (geomWord (s.chan k)) s
  else s.modChan k fun c => { c with alloc := true }

/-- ProgramBuffers(k) (R156). -/
def programBuffers (k : Chan) (s : State) : State := [0, 1, 2, 3, 4, 5].foldl (programStep k) s

/-- START section 2, under the queue lock (R158). -/
def startQueueSection (k : Chan) (s : State) : State :=
  s.modChan k fun c => { c with seq := 0, curPB := .p, curField := .f0, fsm := .awaitF0 }

/-- START section 3, under the device-wide lock (R158). -/
def startEnableSection (k : Chan) (s : State) : State :=
  enableBits (wordBit k.val) { s with videoCap := s.videoCap ||| maskBit k }

/-- START on a video channel. -/
def startChannel (k : Chan) (s : State) : State :=
  if startable (s.chan k) then
    let t := if (s.chan k).alloc then s else programBuffers k s
    respond .ok 0 (startEnableSection k (startQueueSection k t))
  else respond .errState 0 s

/-- START k (R158). -/
def execStart (ch : BitVec 4) (s : State) : Res :=
  match chanOf ch with
  | none => .next (respond .errChannel 0 s)
  | some k => .next (startChannel k s)

/-! ### STOP (R162, R163) -/

/-- STOP section 1, under the device-wide lock. -/
def stopDisableSection (k : Chan) (s : State) : State :=
  disableBits (wordBit k.val) { s with videoCap := s.videoCap &&& ~~~maskBit k }

/-- The ERROR record of one flushed buffer (R163). -/
def flushRecord (k : Chan) (c : Ctx) (now : Nat) (e : Entry) : Obs :=
  .cpl { ch := k, tag := c.fieldMode, error := true, seq := c.seq, addr := e.addr, ts := now }

/-- `flush_all(k)` (R163): head to tail, `seq` not advanced. -/
def flushAll (k : Chan) (s : State) : State :=
  let c := s.chan k
  let t := { s with hist := s.hist ++ c.queue.map (flushRecord k c s.now) }
  t.modChan k fun c => { c with queue := [] }

/-- STOP section 2, under the queue lock. -/
def stopFlushSection (k : Chan) (s : State) : State := (flushAll k s).modChan k fun c => { c with fsm := .idle }

/-- STOP k (R162). -/
def execStop (ch : BitVec 4) (s : State) : Res :=
  match chanOf ch with
  | none => .next (respond .errChannel 0 s)
  | some k => .next (respond .ok 0 (stopFlushSection k (stopDisableSection k s)))

/-! ### ENQ (R166) -/

/-- The status of an append under the queue lock. -/
def enqueueStatus (p : Params) (c : Ctx) : Status := if c.queue.length = p.qdepth then .busy else .ok

/-- ENQ's section under the queue lock: append, unless the queue is full. -/
def enqueueSection (k : Chan) (addr cap : Word) (s : State) : State :=
  if (s.chan k).queue.length = s.cfg.qdepth then s
  else s.modChan k fun c => { c with queue := c.queue ++ [⟨addr, cap, .queued⟩] }

/-- ENQ k, addr, cap (R166). -/
def execEnq (ch : BitVec 4) (addr cap : Word) (s : State) : Res :=
  match chanOf ch with
  | none => .next (respond .errChannel 0 s)
  | some k =>
    if bufInRange addr cap then
      .next (respond (enqueueStatus s.cfg (s.chan k)) 0 (enqueueSection k addr cap s))
    else .next (respond .errRange 0 s)

/-! ### SETFMT (R154) -/

/-- The status of a format change under the start/stop mutex. -/
def setFormatStatus (c : Ctx) : Status := if c.fsm = .idle then .ok else .busy

/-- The context with a new format. -/
def withFormat (width height : BitVec 16) (bpp : BitVec 3) (mode : FieldMode) (c : Ctx) : Ctx :=
  { c with width := width, height := height, bpp := bpp, fieldMode := mode, configured := true }

/-- SETFMT's section under the start/stop mutex: the format, and CH_GEOM once the buffers are programmed. -/
def setFormatSection (k : Chan) (width height : BitVec 16) (bpp : BitVec 3) (mode : FieldMode) (s : State) : State :=
  if (s.chan k).fsm = .idle then
    let t := s.modChan k (withFormat width height bpp mode)
    if (t.chan k).alloc then regWrite (.chGeom k) (geomWord (t.chan k)) t else t
  else s

/-- SETFMT k, width, height, bpp, mode (R154). -/
def execSetfmt (ch : BitVec 4) (width height : BitVec 16) (bpp : BitVec 3) (mode : FieldMode) (s : State) : Res :=
  match chanOf ch with
  | none => .next (respond .errChannel 0 s)
  | some k =>
    if fmtInRange s.cfg width height bpp mode then
      .next (respond (setFormatStatus (s.chan k)) 0 (setFormatSection k width height bpp mode s))
    else .next (respond .errRange 0 s)

/-! ### RDSR (R172) -/

/-- RDSR idx (R172): no effect but the response. -/
def execRdsr (idx : BitVec 16) (s : State) : Res :=
  if srAssigned idx then .next (respond .ok (srValue s idx) s) else .next (respond .errRange 0 s)

end Sys2Proof.Machine
end

