-- ==== Sys2Proof/Machine/DmaControl.lean ====
section
/-! DEFINITION. ENABLE, DISABLE and the two sections of the reset operation (40_dma_channel_control.md R123 to R128). -/

namespace Sys2Proof.Machine

/-- ENABLE's section under the device-wide lock (R123). Ids 8 to 15 are the audio channels (R122). -/
def enableSection (id : BitVec 4) (s : State) : State := enableBits (wordBit id.toNat) s

/-- DISABLE's section under the device-wide lock (R124). -/
def disableSection (id : BitVec 4) (s : State) : State := disableBits (wordBit id.toNat) s

/-- ENABLE id (R123): always OK. -/
def execEnable (id : BitVec 4) (s : State) : Res := .next (respond .ok 0 (enableSection id s))

/-- DISABLE id (R124): always OK. -/
def execDisable (id : BitVec 4) (s : State) : Res := .next (respond .ok 0 (disableSection id s))

/-- DiscardInFlight(k) (R126). -/
def discardInFlight (k : Chan) (s : State) : State :=
  if (s.chan k).fsm = .f0Captured then s.modChan k dropFrame else s

/-- Section A of ResetChannels for the channels of `m`, in ascending order (R125). -/
def discardAll (m : Mask) (s : State) : State :=
  allChans.foldl (fun t k => if m.getLsbD k.val then discardInFlight k t else t) s

/-- Section B of ResetChannels (R125, R127, R128): snapshot, removal, shadow, halt if empty, fault time, timer armed. -/
def resetSection (m : Mask) (s : State) : State :=
  let e := s.dev.dmaEn &&& ~~~(m.setWidth 32)
  let t := regRead .dmaCmd (regRead .dmaEn s)
  let u := haltIfEmpty e
    (setEnable e { t with pendEn := s.dev.dmaEn, pendCmd := s.dev.dmaCmd, pendValid := true })
  { u with
    lastResetMask := m
    lastFaultTime := s.now
    lastFaultValid := true
    deferDeadline := s.now + s.cfg.tDefer
    deferArmed := true }

/-- ResetChannels(m), both sections (R125). -/
def resetChannels (m : Mask) (s : State) : State := resetSection m (discardAll m s)

end Sys2Proof.Machine
end

