-- ==== Sys2Proof/Machine/Weaver.lean ====
section
/-! DEFINITION. The copy sequencer and the field-pair state machine (42_pingpong_weaver.md R200 to R210). -/

namespace Sys2Proof.Machine

/-- The lines of a copy from line `i` on, `n` of them still planned (R202): source line `i` at `i * p`, destination at
`off0 + i * step`; the loop stops at the first line that passes the source bound or the capacity. -/
def copyLines (src dst cap p off0 step : Nat) : (n i : Nat) → State → Res
  | 0, _, s => .next s
  | n + 1, i, s =>
    if s.cfg.maxFieldBytes < i * p + p then .next s
    else if cap < off0 + i * step + p then .next s
    else
      andThen (copyLine (src + i * p) (dst + (off0 + i * step)) p s)
        (copyLines src dst cap p off0 step n (i + 1))

/-- First destination offset (R200, R202). -/
def copyOffset (c : Ctx) (f : FieldNo) (single : Bool) : Nat := if single then 0 else f.num * pitch c

/-- Destination step per line (R200, R202). -/
def copyStep (c : Ctx) (single : Bool) : Nat := if single then pitch c else 2 * pitch c

/-- Lines planned (R200, R202). -/
def copyCount (c : Ctx) (f : FieldNo) (single : Bool) : Nat :=
  if single then c.height.toNat else (c.height.toNat + 1 - f.num) / 2

/-- `CopyField(k, f, s, single, buf)` (R202). The completion flag of R203 is dropped, as it allows
(log 18). -/
def copyField (k : Chan) (f : FieldNo) (slot : Slot) (single : Bool) (buf : Entry) (s : State) : Res :=
  let c := s.chan k
  copyLines (fbAddr s.cfg k f slot) buf.addr.toNat buf.cap.toNat (pitch c) (copyOffset c f single) (copyStep c single)
    (copyCount c f single) 0 s

/-- `Complete(k, tag)` for the head buffer `b` (R208): it leaves the queue, then the DONE record is emitted. -/
def complete (k : Chan) (tag : FieldMode) (b : Entry) (s : State) : State :=
  let c := s.chan k
  let t := s.modChan k fun c => { c with queue := c.queue.tail, seq := c.seq + 1, fsm := .awaitF0 }
  t.emit (.cpl { ch := k, tag := tag, error := false, seq := c.seq, addr := b.addr, ts := s.now })

/-- CaptureField0 (R205). -/
def captureField0 (k : Chan) (slot : Slot) (buf : Entry) (s : State) : Res :=
  andThen (copyField k .f0 slot false buf s) fun t =>
    .next (t.modChan k fun c =>
      { c with curPB := slot, curField := .f0, queue := markHead .partialFill c.queue, fsm := .f0Captured })

/-- WeaveField1 (R206). -/
def weaveField1 (k : Chan) (slot : Slot) (buf : Entry) (s : State) : Res :=
  andThen (copyField k .f1 slot false buf s) fun t =>
    .next (complete k .interlaced buf (t.modChan k fun c => { c with curField := .f1 }))

/-- Mismatch (R207): the in-flight frame is discarded, counted, and the channel flagged for reset. -/
def mismatch (k : Chan) (s : State) : State := raiseFault .fieldMismatch k (s.modChan k dropFrame)

/-- SingleField (R210). -/
def singleField (k : Chan) (f : FieldNo) (slot : Slot) (buf : Entry) (tag : FieldMode) (s : State) : Res :=
  andThen (copyField k f slot true buf s) fun t =>
    .next (complete k tag buf (t.modChan k fun c => { c with curPB := slot, curField := f }))

/-- FieldEvent(k, field, slot) (R204) for the head buffer `buf`. -/
def fieldEvent (k : Chan) (field : FieldNo) (slot : Slot) (buf : Entry) (s : State) : Res :=
  let c := s.chan k
  match c.fieldMode with
  | .interlaced =>
    if c.fsm = .f0Captured then
      if field = .f1 ∧ slot = c.curPB then weaveField1 k slot buf s else .next (mismatch k s)
    else if field = .f0 then captureField0 k slot buf s
    else .next s
  | .top => if field = .f0 then singleField k .f0 slot buf .top s else .next s
  | .bottom => if field = .f1 then singleField k .f1 slot buf .bottom s else .next s
  | .alternate => singleField k field slot buf (if field = .f0 then .top else .bottom) s

end Sys2Proof.Machine
end

