-- ==== Sys2Proof/Machine/Interrupt.lean ====
section
/-! DEFINITION. IRQ, the interrupt dispatcher (60_exceptions.md R232 to R248). -/

namespace Sys2Proof.Machine

/-- P1, first read (R234). -/
def readInt (s : State) : State :=
  let t := regRead .intStatus s
  { t with lat := { t.lat with st := s.dev.intStatus } }

/-- P1, second read (R234). -/
def readFifo (s : State) : State :=
  let t := regRead .fifoStatus s
  { t with lat := { t.lat with er := s.dev.fifoStatus } }

/-- P3, under the device-wide lock (R239): DMA_EN, then PB_STATUS. -/
def readMasks (s : State) : State :=
  let t := regRead .pbStatus (regRead .dmaEn s)
  { t with lat := { t.lat with en := s.dev.dmaEn, pb := s.dev.pbStatus } }

/-- VideoChannelWork(k) (R241 to R245), one section under the queue lock. -/
def channelWork (k : Chan) (s : State) : Res :=
  let c := s.chan k
  if (fifoErr s.lat.er).getLsbD k.val then .next (raiseFault .fifoData k s)
  else if s.lat.er.getLsbD k.val then .next (s.modChan k fun c => { c with noSignal := true })
  else if c.noSignal then .next (requestReset k (s.modChan k fun c => { c with noSignal := false }))
  else if c.fsm = .idle then .next s
  else
    match c.queue with
    | [] => .next s
    | buf :: _ => fieldEvent k (fieldSelect s.lat.pb k) (slotSelect s.lat.pb k) buf s

/-- The set of video channels P5 serves, from the latches (R240). -/
def latchedReady (s : State) : Mask := videoReady s.lat.st s.lat.er s.lat.en

/-- The audio hand-off (R246). -/
def audioHandOff (s : State) : State :=
  if audioReady s.lat.st = 0 then s else s.emit (.aud (audioReady s.lat.st) (audioSlots s.lat.pb))

/-- P3 to P5 (R239 to R246), the channels in ascending order (R245; log 7). -/
def dataPhases (s : State) : Res :=
  let t := readMasks s
  andThen (forChans (latchedReady t) channelWork allChans t) fun u => .next (audioHandOff u)

/-- P6 (R247). -/
def resetPhase (s : State) : State := if s.lat.rst = 0 then s else resetChannels s.lat.rst s

/-- The invocation from the entry on (R233): classification R235, then P2 or P3 to P5, then P6. -/
def dispatch (s : State) : Res :=
  let t := readFifo (readInt (irqEnter s))
  if notOurs t.cfg t.lat.st t.lat.er then .next (irqLeave t)
  else if timedOut t.cfg t.lat.st then .next (irqLeave (resetPhase (raiseTimeout t)))
  else andThen (dataPhases t) fun u => .next (irqLeave (resetPhase u))

/-- IRQ (R233), enabled while no invocation is in progress; otherwise the assertion is held (R232). -/
def execIrq (s : State) : Res :=
  if s.irqActive then .next { s with evHeld := s.evHeld ||| 0b001 } else dispatch s

end Sys2Proof.Machine
end

