-- ==== Sys2Proof/Machine/Timers.lean ====
section
/-! DEFINITION. TDEFER and TWDOG (60_exceptions.md R256 to R259). -/

namespace Sys2Proof.Machine

/-- TDEFER is enabled from its deadline on while armed (R256). -/
def deferEnabled (s : State) : Bool := s.deferArmed && s.deferDeadline ≤ s.now

/-- TWDOG is enabled from its deadline on (R256). -/
def wdogEnabled (s : State) : Bool := s.wdogDeadline ≤ s.now

/-- Write the snapshot back verbatim, DMA_EN first (R257). -/
def restoreSnapshot (s : State) : State :=
  let t := writeVerify .dmaCmd s.pendCmd (setEnable s.pendEn s)
  { t with pendValid := false }

/-- TDEFER's section under the device-wide lock (R257). -/
def deferSection (s : State) : State :=
  let t := if s.pendValid then restoreSnapshot s else s
  { t with deferArmed := false }

/-- TDEFER (R257); requested while not enabled it has no effect (R256). -/
def execTdefer (s : State) : Res := if deferEnabled s then .next (deferSection s) else .next s

/-- The watchdog's rearming, every tick (R259). -/
def wdogRearm (s : State) : State := { s with wdogDeadline := s.now + s.cfg.tWdog }

/-- The debounce (R259): a reset operation less than a period ago. -/
def debounced (s : State) : Bool := s.lastFaultValid && s.now - s.lastFaultTime < s.cfg.tWdog

/-- `missing`: requested channels that the shadow does not show enabled (R259). -/
def missing (s : State) : Mask := s.videoCap &&& ~~~s.videoDMA

/-- TWDOG's section under the device-wide lock (R259). -/
def wdogSection (s : State) : State :=
  if debounced s then s
  else if missing s = 0 then s
  else enableBits (s.videoCap.setWidth 32) s

/-- TWDOG (R259); requested while not enabled it has no effect (R256). -/
def execTwdog (s : State) : Res := if wdogEnabled s then .next (wdogSection (wdogRearm s)) else .next s

end Sys2Proof.Machine
end

