-- ==== Sys2Proof/Machine/Dispatch.lean ====
section
/-! DEFINITION. One arm per operation of spec/opcode_table.json. -/

namespace Sys2Proof.Machine

def exec (i : Instr) (s : State) : Host.Outcome State Fault Refusal :=
  match i with
  | .enable id => Sys2Proof.Machine.execEnable id s
  | .disable id => Sys2Proof.Machine.execDisable id s
  | .start ch => Sys2Proof.Machine.execStart ch s
  | .stop ch => Sys2Proof.Machine.execStop ch s
  | .enq ch addr cap => Sys2Proof.Machine.execEnq ch addr cap s
  | .setfmt ch width height bpp mode => Sys2Proof.Machine.execSetfmt ch width height bpp mode s
  | .rdsr idx => Sys2Proof.Machine.execRdsr idx s
  | .irq => Sys2Proof.Machine.execIrq s
  | .tdefer => Sys2Proof.Machine.execTdefer s
  | .twdog => Sys2Proof.Machine.execTwdog s

end Sys2Proof.Machine
end

