-- ==== Sys2Proof/Machine/Sections.lean ====
section
/-! DEFINITION. The operations taken one atomic section at a time (60_exceptions.md R262, R266; 10_state.md R24), over the
same section functions the whole operations are made of. Log 6. -/

namespace Sys2Proof.Machine

/-! ### The command executor -/

/-- The first section of a host command, after the checks that look at the operands alone (R98 checks 2 and 3); none
for an event. -/
def firstTask (p : Params) : Instr → Option CmdTask
  | .enable id => some (.enable id)
  | .disable id => some (.disable id)
  | .start ch => some (match chanOf ch with
    | none => .respond .errChannel 0
    | some k => .startCheck k)
  | .stop ch => some (match chanOf ch with
    | none => .respond .errChannel 0
    | some k => .stopDisable k)
  | .enq ch addr cap => some (match chanOf ch with
    | none => .respond .errChannel 0
    | some k => if bufInRange addr cap then .enqueue k addr cap else .respond .errRange 0)
  | .setfmt ch width height bpp mode => some (match chanOf ch with
    | none => .respond .errChannel 0
    | some k =>
      if fmtInRange p width height bpp mode then .setFormat k width height bpp mode else .respond .errRange 0)
  | .rdsr idx => some (if srAssigned idx then .readStatus idx else .respond .errRange 0)
  | .irq => none
  | .tdefer => none
  | .twdog => none

/-- What START does after its test (R158): program the buffers once, then section 2. -/
def afterCheck (k : Chan) (c : Ctx) : CmdTask :=
  if startable c then (if c.alloc then .startQueue k else .startProgram k 0) else .respond .errState 0

/-- What follows a section of a command in progress, in the state `s` the section starts from. -/
def nextTask (t : CmdTask) (s : State) : Option CmdTask :=
  match t with
  | .enable _ => some (.respond .ok 0)
  | .disable _ => some (.respond .ok 0)
  | .startCheck k => some (afterCheck k (s.chan k))
  | .startProgram k j => some (if j < 5 then .startProgram k (j + 1) else .startQueue k)
  | .startQueue k => some (.startEnable k)
  | .startEnable _ => some (.respond .ok 0)
  | .stopDisable k => some (.stopFlush k)
  | .stopFlush _ => some (.respond .ok 0)
  | .enqueue k _ _ => some (.respond (enqueueStatus s.cfg (s.chan k)) 0)
  | .setFormat k _ _ _ _ => some (.respond (setFormatStatus (s.chan k)) 0)
  | .readStatus idx => some (.respond .ok (srValue s idx))
  | .respond _ _ => none

/-- The effect of one section of a command. -/
def taskEffect (t : CmdTask) (s : State) : State :=
  match t with
  | .enable id => enableSection id s
  | .disable id => disableSection id s
  | .startCheck _ => s
  | .startProgram k j => programStep k s j
  | .startQueue k => startQueueSection k s
  | .startEnable k => startEnableSection k s
  | .stopDisable k => stopDisableSection k s
  | .stopFlush k => stopFlushSection k s
  | .enqueue k addr cap => enqueueSection k addr cap s
  | .setFormat k width height bpp mode => setFormatSection k width height bpp mode s
  | .readStatus _ => s
  | .respond status data => respond status data s

/-- The executor takes its next section; without a command in progress there is none. -/
def advanceExecutor (s : State) : State :=
  match s.cmdTask with
  | none => s
  | some t => { taskEffect t s with cmdTask := nextTask t s }

/-- Is the start/stop mutex held (R170, R264)? Exactly while a START, STOP or SETFMT is between its first and its last
section; one command at a time makes that all it does (log 17). -/
def startStopHeld (s : State) : Bool :=
  match s.cmdTask with
  | some (.startCheck _) => true
  | some (.startProgram _ _) => true
  | some (.startQueue _) => true
  | some (.startEnable _) => true
  | some (.stopDisable _) => true
  | some (.stopFlush _) => true
  | some (.setFormat _ _ _ _ _) => true
  | _ => false

/-! ### The interrupt dispatcher -/

/-- The channels a mask selects, ascending. -/
def chansOf (m : Mask) : List Chan := allChans.filter fun k => m.getLsbD k.val

/-- One of the channels still to be served; any of them, by `pick` (R245). -/
def pickChan (m : Mask) (pick : Nat) : Option Chan := (chansOf m)[pick % (chansOf m).length]?

/-- The phase after P5, or after P2: P6 if a channel is flagged (R247). -/
def resetPhaseOf (s : State) : IrqPhase := if s.lat.rst = 0 then .leave else .discard s.lat.rst

/-- The phase after the last ready channel. -/
def audioPhaseOf (s : State) : IrqPhase := if audioReady s.lat.st = 0 then resetPhaseOf s else .audio

/-- The phase after P4. -/
def channelPhaseOf (s : State) (m : Mask) : IrqPhase := if m = 0 then audioPhaseOf s else .channels m

/-- The phase after the classification (R235). -/
def classPhaseOf (s : State) : IrqPhase :=
  if notOurs s.cfg s.lat.st s.lat.er then .leave
  else if timedOut s.cfg s.lat.st then .timeout
  else .masks

/-- Set the next phase, computed from the state itself. -/
def State.phase (s : State) (f : State → IrqPhase) : State := { s with irqPhase := f s }

/-- The phase after one more channel of section A of the reset operation. -/
def discardPhaseOf (m : Mask) : IrqPhase := if m = 0 then .resetRegs else .discard m

/-- The dispatcher takes its next section (R233 to R247); without an invocation in progress there is none. P1's two reads
and P4's computation are steps of their own (R266). DESIGN CHOICE (log 6): the tests that choose the next phase (the class
of R235, `vready`, `aready != 0` of R246, `rst != 0` of R247) are made at the end of the step before it. -/
def advanceDispatcher (pick : Nat) (s : State) : Res :=
  match s.irqPhase with
  | .idle => .next s
  | .readInt => .next ((readInt s).phase fun _ => .readFifo)
  | .readFifo => .next ((readFifo s).phase classPhaseOf)
  | .timeout => .next ((raiseTimeout s).phase resetPhaseOf)
  | .masks => .next ((readMasks s).phase fun _ => .ready)
  | .ready => .next (s.phase fun t => channelPhaseOf t (latchedReady t))
  | .channels m =>
    match pickChan m pick with
    | none => .next (s.phase audioPhaseOf)
    | some k => andThen (channelWork k s) fun t => .next (t.phase fun u => channelPhaseOf u (m &&& ~~~maskBit k))
  | .audio => .next ((audioHandOff s).phase resetPhaseOf)
  | .discard m =>
    match pickChan m pick with
    | none => .next (s.phase fun _ => .resetRegs)
    | some k => .next ((discardInFlight k s).phase fun _ => discardPhaseOf (m &&& ~~~maskBit k))
  | .resetRegs => .next ((resetSection s.lat.rst s).phase fun _ => .leave)
  | .leave => .next ((irqLeave s).phase fun _ => .idle)

/-! ### The watchdog -/

/-- The watchdog takes its device section; without a tick in progress there is none. -/
def advanceWatchdog (s : State) : State :=
  if s.wdogPending then { wdogSection s with wdogPending := false } else s

end Sys2Proof.Machine
end

