-- ==== Sys2Proof/Machine/Moves.lean ====
section
/-! DEFINITION. The moves of the whole system: the environment's steps (60_exceptions.md R262), the taking of an
operation from a port (30_encoding.md R90, R97, R101), and the hardware reset (70_reset_and_hazards.md R290). -/

namespace Sys2Proof.Machine

/-! ### The environment -/

/-- Write bytes, those inside the address space, without a record: a write by another master of memory. DESIGN CHOICE
(log 19): bytes past the end of the space are dropped. -/
def outsideWrite (addr : Nat) (bytes : List Byte) (s : State) : State :=
  { s with mem := Memory.writeBytes s.mem addr (bytes.take (Memory.size - addr)) }

/-- The capture device drives a status register (10_state.md R30; log 2). -/
def driveStatus (r : StatusReg) (v : Word) (s : State) : State :=
  match r with
  | .int => { s with dev := { s.dev with intStatus := v } }
  | .fifo => { s with dev := { s.dev with fifoStatus := v } }
  | .pb => { s with dev := { s.dev with pbStatus := v } }
  | .dec k => { s with dev := { s.dev with decStatus := s.dev.decStatus.set k v } }

/-- Free values for the registers R291 leaves undefined (log 8). -/
def freeBank (draws base : Nat) : Bank Word := Bank.tabulate fun k => Config.freeReg (draws + base + k.val)

/-- Free values for the CH_ADDR registers (log 8). -/
def freeAddrs (draws : Nat) : Bank (BySlot Word) :=
  Bank.tabulate fun k =>
    ⟨Config.freeReg (draws + 16 + 4 * k.val), Config.freeReg (draws + 17 + 4 * k.val),
      Config.freeReg (draws + 18 + 4 * k.val), Config.freeReg (draws + 19 + 4 * k.val)⟩

/-- The hardware reset input (R290): block state and history as after reset, DMA_EN and DMA_CMD 0, the registers of R291
free; parameters, memory, the device-driven registers and what waits outside the ports are not the block's and stay
(log 8). -/
def hwReset (s : State) : State :=
  { State.reset with
    cfg := s.cfg
    wdogDeadline := s.cfg.tWdog
    dev := { s.dev with
      dmaEn := 0
      dmaCmd := 0
      chConfig := freeBank s.draws 0
      chGeom := freeBank s.draws 8
      chAddr := freeAddrs s.draws }
    mem := s.mem
    cmdPort := s.cmdPort
    evHeld := s.evHeld
    sched := s.sched
    draws := s.draws + 48 }

/-! ### Event lines (30_encoding.md R101; log 11) -/

/-- The lines the block's own timers assert: EV[2] WDOG_EXPIRE and EV[1] DEFER_EXPIRE from their deadlines on. -/
def timerLines (s : State) : BitVec 3 := flag (wdogEnabled s) ++ flag (deferEnabled s) ++ 0#1

/-- The request lines as asserted now. -/
def evLines (s : State) : BitVec 3 := s.evHeld ||| timerLines s

/-- A taken event's line is no longer held. -/
def clearLine (line : BitVec 3) (s : State) : State := { s with evHeld := s.evHeld &&& ~~~line }

/-- Run the event of an asserted line whole. -/
def serveEvent (line : BitVec 3) (i : Instr) (s : State) : Res :=
  if evLines s &&& line = 0 then .next s else exec i (clearLine line s)

/-! ### Taking operations from the ports -/

/-- Run the packet at the head of CMD whole: its operation, or ERR_ILLEGAL (R97). An incomplete packet waits (R90), and
so does a packet behind a command in progress (R262; log 12). -/
def serveCommand (s : State) : Res :=
  if s.cmdTask.isSome then .next s
  else
    match decodePacket s.cmdPort with
    | .short => .next s
    | .illegal _ rest => .next (respond .errIllegal 0 { s with cmdPort := rest })
    | .op i rest => exec i { s with cmdPort := rest }

/-- Run the operation a port offers to its end. -/
def serve (p : Port) (s : State) : Res :=
  match p with
  | .cmd => serveCommand s
  | .irq => serveEvent 0b001 .irq s
  | .tdefer => serveEvent 0b010 .tdefer s
  | .twdog => if s.wdogPending then .next s else serveEvent 0b100 .twdog s

/-- Take the packet at the head of CMD and leave it before its first section. -/
def takeCommand (s : State) : State :=
  if s.cmdTask.isSome then s
  else
    match decodePacket s.cmdPort with
    | .short => s
    | .illegal _ rest => { s with cmdPort := rest, cmdTask := some (.respond .errIllegal 0) }
    | .op i rest => { s with cmdPort := rest, cmdTask := firstTask s.cfg i }

/-- Begin an interrupt invocation, when one is requested and none is in progress (R232). -/
def takeIrq (s : State) : State :=
  if evLines s &&& 0b001 = 0 || s.irqActive then s
  else { irqEnter (clearLine 0b001 s) with irqPhase := .readInt }

/-- Begin a watchdog tick: the rearming (R259); requested while not enabled it has no effect (R256). -/
def takeWdog (s : State) : State :=
  if evLines s &&& 0b100 = 0 || s.wdogPending then s
  else if wdogEnabled s then { wdogRearm (clearLine 0b100 s) with wdogPending := true }
  else clearLine 0b100 s

/-- Take the operation a port offers, leaving it in progress; TDEFER is one section and runs. -/
def takeUp (p : Port) (s : State) : Res :=
  match p with
  | .cmd => .next (takeCommand s)
  | .irq => .next (takeIrq s)
  | .tdefer => serve .tdefer s
  | .twdog => .next (takeWdog s)

/-- An agent's next section. -/
def advance (a : Agent) (s : State) : Res :=
  match a with
  | .executor => .next (advanceExecutor s)
  | .dispatcher pick => advanceDispatcher pick s
  | .watchdog => .next (advanceWatchdog s)

/-- One move of the whole system. DESIGN CHOICE (log 19) in `fill`: bytes past the `MAX_FIELD_BYTES` of a field buffer
(20_memory.md R69) are dropped; what a device that emits more would leave beyond it is another move's write. -/
def makeMove (m : Move) (s : State) : Res :=
  match m with
  | .offer ws => .next { s with cmdPort := s.cmdPort ++ ws }
  | .raise lines => .next { s with evHeld := s.evHeld ||| lines }
  | .tick n => .next { s with now := s.now + n }
  | .drive r v => .next (driveStatus r v s)
  | .fill k f slot bytes => .next (outsideWrite (fbAddr s.cfg k f slot) (bytes.take s.cfg.maxFieldBytes) s)
  | .lateFills items => .next { s with dev := { s.dev with lateFill := s.dev.lateFill ++ items } }
  | .glitches items => .next { s with dev := { s.dev with glitch := s.dev.glitch ++ items } }
  | .consumer addr bytes => .next (outsideWrite addr.toNat bytes s)
  | .hwReset => .next (hwReset s)
  | .serve p => serve p s
  | .take p => takeUp p s
  | .advance a => advance a s

/-! ### Placing one instruction (log 5, log 16) -/

/-- Put a packet at the head of CMD and let the next move serve it. -/
def placePacket (ws : List Word) (s : State) : State :=
  { s with cmdPort := ws ++ s.cmdPort, cmdTask := none, sched := .serve .cmd :: s.sched }

/-- Assert the lines of an event and let the next move serve it. -/
def placeEvent (lines : BitVec 3) (p : Port) (s : State) : State :=
  { s with
    evHeld := s.evHeld ||| lines
    irqActive := false
    irqPhase := .idle
    wdogPending := false
    sched := .serve p :: s.sched }

/-- Place the operation whose bits, as the opcode table numbers them, are `w`. -/
def placeWord (nbits w : Nat) (s : State) : State :=
  if nbits < 32 then
    if w = 1 then placeEvent 0b001 .irq s
    else if w = 2 then placeEvent 0b010 .tdefer s
    else if w = 4 then placeEvent 0b100 .twdog s
    else s
  else placePacket (tableWords nbits w) s

end Sys2Proof.Machine
end

