-- ==== Sys2Proof/Machine/Step.lean ====
section
/-! DEFINITION. The step of the machine: the next move of the schedule (log 5). With no move to make the block is idle and
all state is kept (60_exceptions.md R269, R270). -/

namespace Sys2Proof.Machine

def step (s : State) : Host.Outcome State Fault Refusal :=
  match s.sched with
  | [] => .next s
  | m :: rest => makeMove m { s with sched := rest }

/-- `s` with one operation placed so that the very next step runs it. -/
def State.withFetchWord (s : State) (nbits w : Nat) : State := placeWord nbits w s

end Sys2Proof.Machine
end

