-- ==== Sys2Proof/Safety.lean ====
section
/-! DEFINITION. What counts as a safe state of the machine, and the words the claims use: the invariant of the block's own
state, what an operation may leave changed, and an operation run section by section with nothing between. -/

namespace Sys2Proof.Machine

/-! ### The invariant -/

/-- Only the head can be PARTIAL, and it is exactly when `fsm` is F0_CAPTURED (10_state.md R26). -/
def queueShape (fsm : Fsm) (q : List Entry) : Bool :=
  match q with
  | [] => fsm != .f0Captured
  | e :: rest => (e.bstate == .partialFill) == (fsm == .f0Captured) && rest.all fun x => x.bstate == .queued

/-- What holds of every reachable context: the queue within its capacity (R26), each buffer inside the address space
(41_host_stream_queue.md R166), its shape, a streaming channel configured and programmed (R158), F0_CAPTURED only when
weaving (R22), and an accepted format in range (R154). -/
def ctxOk (p : Params) (c : Ctx) : Bool :=
  c.queue.length ≤ p.qdepth
    && c.queue.all (fun e => bufInRange e.addr e.cap)
    && queueShape c.fsm c.queue
    && (c.fsm == .idle || (c.configured && c.alloc))
    && (c.fsm != .f0Captured || c.fieldMode == .interlaced)
    && (!c.configured || fmtInRange p c.width c.height c.bpp c.fieldMode)

/-- What holds of a host command in progress: its earlier checks still hold. -/
def taskOk (s : State) : Bool :=
  match s.cmdTask with
  | some (.startProgram k _) => startable (s.chan k)
  | some (.startQueue k) => startable (s.chan k) && (s.chan k).alloc
  | some (.enqueue _ addr cap) => bufInRange addr cap
  | some (.setFormat _ width height bpp mode) => fmtInRange s.cfg width height bpp mode
  | _ => true

/-- The timers and the snapshot (10_state.md R28, R25; 60_exceptions.md R257 corner case (d)). -/
def timersOk (s : State) : Bool :=
  s.pendValid == s.deferArmed
    && (!s.deferArmed || (s.lastFaultValid && s.deferDeadline == s.lastFaultTime + s.cfg.tDefer))
    && (!s.lastFaultValid || s.lastFaultTime ≤ s.now)
    && s.wdogDeadline ≤ s.now + s.cfg.tWdog

/-- The invariant of the machine. -/
abbrev State.Inv (s : State) : Prop :=
  s.cfg.ok = true
    ∧ (∀ k : Chan, ctxOk s.cfg (s.chan k) = true)
    ∧ Memory.wf s.mem = true
    ∧ (s.verifyErr = false → s.videoDMA = videoBits s.dev.dmaEn)
    ∧ timersOk s = true
    ∧ s.irqActive = (s.irqPhase != .idle)
    ∧ taskOk s = true

/-! ### What may change -/

/-- Every byte of memory reads the same. -/
def SameMemory (s t : State) : Prop := ∀ a, Memory.read t.mem a = Memory.read s.mem a

/-- The configuration of a channel: everything SETFMT and the first START write. -/
def SameFormat (c d : Ctx) : Prop :=
  d.width = c.width ∧ d.height = c.height ∧ d.bpp = c.bpp ∧ d.fieldMode = c.fieldMode ∧ d.configured = c.configured
    ∧ d.alloc = c.alloc

/-- `t` is `s` but for the registers the block writes, the corruptions they used up, the shadow, the requested set, the
verify flag, the contexts and the history: all a host command can change. -/
def OnlyCommandState (s t : State) : Prop :=
  t = { s with
    ch := t.ch
    videoDMA := t.videoDMA
    videoCap := t.videoCap
    verifyErr := t.verifyErr
    hist := t.hist
    dev := { s.dev with
      dmaEn := t.dev.dmaEn
      dmaCmd := t.dev.dmaCmd
      glitch := t.dev.glitch
      chGeom := t.dev.chGeom
      chAddr := t.dev.chAddr } }

/-- `t` is `s` but for what an interrupt invocation can change: contexts, latches, memory, the enable and command
registers with their shadow and verify flag, the snapshot, the fault time, the deferred-reset timer, the environment's
scripts used up, and the history. -/
def OnlyInterruptState (s t : State) : Prop :=
  t = { s with
    ch := t.ch
    videoDMA := t.videoDMA
    pendEn := t.pendEn
    pendCmd := t.pendCmd
    pendValid := t.pendValid
    lastResetMask := t.lastResetMask
    verifyErr := t.verifyErr
    deferArmed := t.deferArmed
    deferDeadline := t.deferDeadline
    lastFaultTime := t.lastFaultTime
    lastFaultValid := t.lastFaultValid
    lat := t.lat
    mem := t.mem
    hist := t.hist
    dev := { s.dev with
      dmaEn := t.dev.dmaEn
      dmaCmd := t.dev.dmaCmd
      glitch := t.dev.glitch
      lateFill := t.dev.lateFill } }

/-- `t` is `s` but for what a timer event can change: the enable and command registers with their shadow and verify flag,
the snapshot's valid bit, the timers, and the history. -/
def OnlyTimerState (s t : State) : Prop :=
  t = { s with
    videoDMA := t.videoDMA
    pendValid := t.pendValid
    verifyErr := t.verifyErr
    deferArmed := t.deferArmed
    wdogDeadline := t.wdogDeadline
    hist := t.hist
    dev := { s.dev with
      dmaEn := t.dev.dmaEn
      dmaCmd := t.dev.dmaCmd
      glitch := t.dev.glitch } }

/-! ### REG transfers of the register sequences -/

/-- The five transfers of an enabling sequence: DMA_EN read `e0`, written `e`, read back, DMA_CMD written `c`, read back
(40_dma_channel_control.md R123). -/
def enableTransfers (m : RegMap) (e0 e c : Word) : List Obs :=
  [.regRead m.dmaEn e0, .regWrite m.dmaEn e, .regRead m.dmaEn e, .regWrite m.dmaCmd c, .regRead m.dmaCmd c]

/-- The verified write of the halt word, made only when the 16 channel bits of `e` are clear (R124). -/
def haltTransfers (m : RegMap) (e : Word) : List Obs :=
  if e &&& 0xFFFF#32 = 0 then [.regWrite m.dmaCmd 0, .regRead m.dmaCmd 0] else []

/-- The three or five transfers of a disabling sequence (R124). -/
def disableTransfers (m : RegMap) (e0 e : Word) : List Obs :=
  [.regRead m.dmaEn e0, .regWrite m.dmaEn e, .regRead m.dmaEn e] ++ haltTransfers m e

/-- The command register after a disabling sequence that leaves `e` in DMA_EN (R124). -/
def haltedCmd (e c : Word) : Word := if e &&& 0xFFFF#32 = 0 then 0 else c

/-! ### Whole operations as their sections, one after another -/

/-- `n` sections of the executor. -/
def executorRun : Nat → State → State
  | 0, s => s
  | n + 1, s => executorRun n (advanceExecutor s)

/-- `n` sections of the dispatcher, channels in ascending order. -/
def dispatcherRun : Nat → State → Res
  | 0, s => .next s
  | n + 1, s => andThen (advanceDispatcher 0 s) (dispatcherRun n)

end Sys2Proof.Machine
end

