-- ==== Sys2Proof/WellFormed.lean ====
section
/-! DEFINITION. When the operands of an instruction are legal: the static checks 2 and 3 of 30_encoding.md R98. Every
value of a field that its encoding admits is a term of `Instr`, so an instruction that fails these checks still decodes
and runs: it is answered ERR_CHANNEL or ERR_RANGE. -/

namespace Sys2Proof

/-- The channel operand is one the operation accepts (R98 check 2). -/
def Instr.channelLegal : Instr → Bool
  | .enable _ => true
  | .disable _ => true
  | .start ch => (Machine.chanOf ch).isSome
  | .stop ch => (Machine.chanOf ch).isSome
  | .enq ch _ _ => (Machine.chanOf ch).isSome
  | .setfmt ch _ _ _ _ => (Machine.chanOf ch).isSome
  | .rdsr _ => true
  | .irq => true
  | .tdefer => true
  | .twdog => true

/-- The other operands are in their ranges (R98 check 3). -/
def Instr.rangeLegal (p : Params) : Instr → Bool
  | .enable _ => true
  | .disable _ => true
  | .start _ => true
  | .stop _ => true
  | .enq _ addr cap => Machine.bufInRange addr cap
  | .setfmt _ width height bpp mode => Machine.fmtInRange p width height bpp mode
  | .rdsr idx => Machine.srAssigned idx
  | .irq => true
  | .tdefer => true
  | .twdog => true

/-- Both static checks. -/
def Instr.WellFormed (p : Params) (i : Instr) : Bool := i.channelLegal && i.rangeLegal p

end Sys2Proof
end

