-- ==== Sys2Proof/Certificates/Slice0/Obligations.lean ====
section
/-! DEFINITION. The statements about the model, from the numbered rules of spec/. A hypothesis `s.dev.glitch = []` is the
faithful storage of 20_memory.md R61 (log 9); `s.dev.lateFill = []` is the quiet field buffer of 70_reset_and_hazards.md
R300 (log 10). -/

open Sys2Proof Sys2Proof.Machine

/-! ### Reset -/

/-- R40: the values after reset, one by one. CH_CONFIG, CH_GEOM, CH_ADDR, the status registers and memory, which R40
leaves open, are not spoken of. -/
def Obligations.ResetGivesTheListedValues : Prop :=
  (∀ k : Chan, State.reset.chan k =
    { fsm := .idle, curField := .f0, curPB := .p, noSignal := false, alloc := false, configured := false, width := 0,
      height := 0, bpp := 0, fieldMode := .interlaced, timeoutCnt := 0, errCnt := 0, mismatchCnt := 0, seq := 0,
      queue := [] })
    ∧ State.reset.videoDMA = 0 ∧ State.reset.videoCap = 0
    ∧ State.reset.pendEn = 0 ∧ State.reset.pendCmd = 0 ∧ State.reset.pendValid = false
    ∧ State.reset.lastResetMask = 0 ∧ State.reset.verifyErr = false ∧ State.reset.irqActive = false
    ∧ State.reset.now = 0 ∧ State.reset.deferArmed = false ∧ State.reset.deferDeadline = 0
    ∧ State.reset.wdogDeadline = State.reset.cfg.tWdog
    ∧ State.reset.lastFaultValid = false ∧ State.reset.lastFaultTime = 0
    ∧ State.reset.dev.dmaEn = 0 ∧ State.reset.dev.dmaCmd = 0

/-- R290: the hardware reset input, in any state, with operations in progress or not: every piece of block state as R40
lists it, nothing in progress, the history empty (so no response, no completion and no transfer). That the reset input is a
move of the schedule (log 5), and that DMA_EN and DMA_CMD are 0 after it, where R290 and R40 speak of the model's initial
device state alone (log 8), are the model's. -/
def Obligations.HardwareResetRestoresTheBlock : Prop :=
  ∀ (s : State) (moves : List Move), s.sched = .hwReset :: moves →
    ∃ t, step s = .next t ∧ (∀ k : Chan, t.chan k = State.reset.chan k)
      ∧ t.videoDMA = 0 ∧ t.videoCap = 0 ∧ t.pendEn = 0 ∧ t.pendCmd = 0 ∧ t.pendValid = false ∧ t.lastResetMask = 0
      ∧ t.verifyErr = false ∧ t.irqActive = false ∧ t.now = 0 ∧ t.deferArmed = false ∧ t.deferDeadline = 0
      ∧ t.wdogDeadline = s.cfg.tWdog ∧ t.lastFaultValid = false ∧ t.lastFaultTime = 0
      ∧ t.dev.dmaEn = 0 ∧ t.dev.dmaCmd = 0
      ∧ t.cmdTask = none ∧ t.irqPhase = .idle ∧ t.wdogPending = false ∧ t.hist = []

/-! ### Encoding -/

/-- Words written out from R92 to R96 and R101, bit by bit, decode to the operation they stand for. -/
def Obligations.WrittenOutWordsDecode : Prop :=
  decodeEncoded (.packet [0b00000001000001010000000000000000#32]) = some (.enable 5)
    ∧ decodeEncoded (.packet [0b00000010000011110000000000000000#32]) = some (.disable 15)
    ∧ decodeEncoded (.packet [0b00010000000000110000000000000000#32]) = some (.start 3)
    ∧ decodeEncoded (.packet [0b00010001000001110000000000000000#32]) = some (.stop 7)
    ∧ decodeEncoded (.packet [0b00100000000000100000000000000000#32, 0x20000000, 0x10])
        = some (.enq 2 0x20000000 0x10)
    ∧ decodeEncoded (.packet [0b00100001000001100000000000110100#32, 0x00020004])
        = some (.setfmt 6 4 2 4 .alternate)
    ∧ decodeEncoded (.packet [0b00110000000000000000000010000100#32]) = some (.rdsr 0x84)
    ∧ decodeEncoded (.event 0b001) = some .irq
    ∧ decodeEncoded (.event 0b010) = some .tdefer
    ∧ decodeEncoded (.event 0b100) = some .twdog

/-- Decoding an encoded operation gives it back, with every operand at every value its field admits, whatever words
follow the packet. -/
def Obligations.DecodeOfEncodeIsTheInstruction : Prop :=
  ∀ i : Instr,
    (∀ ws rest, encode i = .packet ws → decodePacket (ws ++ rest) = .op i rest)
      ∧ (∀ lines, encode i = .event lines → decodeEvent lines = some i)

/-- The other direction: a stream that decodes to an operation begins with exactly that operation's encoding, and event
lines that decode are the ones the event encodes to. -/
def Obligations.EncodeOfDecodeIsThePacket : Prop :=
  (∀ ws i rest, decodePacket ws = .op i rest → ∃ ps, encode i = .packet ps ∧ ws = ps ++ rest)
    ∧ (∀ lines i, decodeEvent lines = some i → encode i = .event lines)

/-- R96: the rows are disjoint: no word selects two of them. -/
def Obligations.OpcodeRowsAreDisjoint : Prop :=
  ∀ (w : Word) (r q : OpcodeRow), r ∈ opcodeTable → q ∈ opcodeTable →
    w &&& r.mask = r.pattern → w &&& q.mask = q.pattern → r = q

/-- R97: a packet whose `W0` matches no row is consumed at the length R90 gives, answered ERR_ILLEGAL with data 0, and
changes nothing else. The schedule that serves the port is the model's (log 5). -/
def Obligations.IllegalPacketIsAnsweredAndConsumed : Prop :=
  ∀ (s : State) (moves : List Move) (w0 : Word) (ws : List Word),
    s.sched = .serve .cmd :: moves → s.cmdTask = none → s.cmdPort = w0 :: ws →
    (∀ r ∈ opcodeTable, w0 &&& r.mask ≠ r.pattern) →
    (if w0 >>> 24 = 0x20#32 then 3 else if w0 >>> 24 = 0x21#32 then 2 else 1) ≤ ws.length + 1 →
    step s = .next { s with
      sched := moves
      cmdPort := (w0 :: ws).drop (if w0 >>> 24 = 0x20#32 then 3 else if w0 >>> 24 = 0x21#32 then 2 else 1)
      hist := s.hist ++ [.rsp .errIllegal 0] }

/-! ### The step -/

/-- A step that serves the CMD port runs exactly the operation decoded there, with its packet taken from the port; while
the packet is incomplete, or another command is in progress, it has no effect. The schedule (log 5) and the waiting
packet (log 12) are the model's. -/
def Obligations.StepRunsTheDecodedCommand : Prop :=
  (∀ (s : State) (moves : List Move) (i : Instr) (rest : List Word),
    s.sched = .serve .cmd :: moves → s.cmdTask = none → decodePacket s.cmdPort = .op i rest →
    step s = exec i { s with sched := moves, cmdPort := rest })
    ∧ (∀ (s : State) (moves : List Move), s.sched = .serve .cmd :: moves →
      (s.cmdTask ≠ none ∨ decodePacket s.cmdPort = .short) → step s = .next { s with sched := moves })

/-- A step that serves an event line whose request is asserted runs exactly that event, the line no longer held; a timer
asserts its own line from its deadline on. A watchdog tick waits while another is in progress. The schedule (log 5) and
the held lines (log 11) are the model's. -/
def Obligations.StepRunsTheRequestedEvent : Prop :=
  (∀ (s : State) (moves : List Move), s.sched = .serve .irq :: moves → s.evHeld.getLsbD 0 = true →
    step s = exec .irq { s with sched := moves, evHeld := s.evHeld &&& ~~~0b001#3 })
    ∧ (∀ (s : State) (moves : List Move), s.sched = .serve .tdefer :: moves →
      (s.evHeld.getLsbD 1 = true ∨ (s.deferArmed = true ∧ s.deferDeadline ≤ s.now)) →
      step s = exec .tdefer { s with sched := moves, evHeld := s.evHeld &&& ~~~0b010#3 })
    ∧ (∀ (s : State) (moves : List Move), s.sched = .serve .twdog :: moves → s.wdogPending = false →
      (s.evHeld.getLsbD 2 = true ∨ s.wdogDeadline ≤ s.now) →
      step s = exec .twdog { s with sched := moves, evHeld := s.evHeld &&& ~~~0b100#3 })

/-! ### ENABLE, DISABLE and WriteVerify -/

/-- R120: `WriteVerify` of DMA_EN and of DMA_CMD, the whole next state: the register written and its script's next item used
up, the write and the read-back in the history, the sticky flag set exactly on a difference, and nothing else. What the
register stores, `r`, is the value written, as R61 says, unless the environment's script corrupts this write (log 9). -/
def Obligations.WriteVerifyRecordsADifference : Prop :=
  ∀ (v : Word) (s : State),
    let r : Word := match s.dev.glitch with
      | some x :: _ => x
      | _ => v
    writeVerify .dmaEn v s = { s with
        dev := { s.dev with dmaEn := r, glitch := s.dev.glitch.tail }
        verifyErr := s.verifyErr || decide (r ≠ v)
        hist := s.hist ++ [.regWrite s.cfg.regMap.dmaEn v, .regRead s.cfg.regMap.dmaEn r] }
      ∧ writeVerify .dmaCmd v s = { s with
        dev := { s.dev with dmaCmd := r, glitch := s.dev.glitch.tail }
        verifyErr := s.verifyErr || decide (r ≠ v)
        hist := s.hist ++ [.regWrite s.cfg.regMap.dmaCmd v, .regRead s.cfg.regMap.dmaCmd r] }

/-- R123, with the shadow R121 and the command word R130: ENABLE, its word and its effect, for all sixteen ids, on
faithful registers. -/
def Obligations.EnableMergesTheBitAndRestarts : Prop :=
  (∀ (id : BitVec 4) (rest : List Word), decodePacket ((0x01#8 ++ 0#4 ++ id ++ 0#16) :: rest) = .op (.enable id) rest)
    ∧ ∀ (id : BitVec 4) (s : State), s.dev.glitch = [] →
    let e := s.dev.dmaEn ||| (1#32 <<< id.toNat)
    let c := (1#32 <<< s.cfg.cmdRun) ||| (e &&& 0xFFFF#32)
    exec (.enable id) s = .next { s with
      videoDMA := e.extractLsb' 0 8
      dev := { s.dev with dmaEn := e, dmaCmd := c }
      hist := s.hist ++ enableTransfers s.cfg.regMap s.dev.dmaEn e c ++ [.rsp .ok 0] }

/-- R124, with the empty test R131: DISABLE, its word and its effect, for all sixteen ids, on faithful registers. -/
def Obligations.DisableClearsTheBitAndHaltsWhenEmpty : Prop :=
  (∀ (id : BitVec 4) (rest : List Word), decodePacket ((0x02#8 ++ 0#4 ++ id ++ 0#16) :: rest) = .op (.disable id) rest)
    ∧ ∀ (id : BitVec 4) (s : State), s.dev.glitch = [] →
    let e := s.dev.dmaEn &&& ~~~(1#32 <<< id.toNat)
    exec (.disable id) s = .next { s with
      videoDMA := e.extractLsb' 0 8
      dev := { s.dev with dmaEn := e, dmaCmd := haltedCmd e s.dev.dmaCmd }
      hist := s.hist ++ disableTransfers s.cfg.regMap s.dev.dmaEn e ++ [.rsp .ok 0] }

/-- R129: a second DISABLE leaves the enable mask unchanged; ENABLE then DISABLE gives `e0 & ~bit(k)`, which is `e0`
exactly when bit `k` was clear; and, where other channels remain enabled, DMA_CMD is then the ENABLE's word. -/
def Obligations.EnableDisableProperties : Prop :=
  ∀ (id : BitVec 4) (s t u : State), s.dev.glitch = [] →
    (exec (.disable id) s = .next t → exec (.disable id) t = .next u → u.dev.dmaEn = t.dev.dmaEn)
      ∧ (exec (.enable id) s = .next t → exec (.disable id) t = .next u →
          u.dev.dmaEn = s.dev.dmaEn &&& ~~~(wordBit id.toNat)
          ∧ (u.dev.dmaEn = s.dev.dmaEn ↔ s.dev.dmaEn.getLsbD id.toNat = false)
          ∧ (s.dev.dmaEn &&& 0xFFFF#32 &&& ~~~(wordBit id.toNat) ≠ 0 →
              u.dev.dmaCmd = cmdWord s.cfg (s.dev.dmaEn ||| wordBit id.toNat)))

/-- The frame of ENABLE and DISABLE in every state, corrupted registers or not (R133): nothing but the two registers, the
shadow, the verify flag and the history. -/
def Obligations.EnableDisableFrame : Prop :=
  ∀ (id : BitVec 4) (s t : State), exec (.enable id) s = .next t ∨ exec (.disable id) s = .next t →
    OnlyCommandState s t ∧ t.ch = s.ch ∧ t.videoCap = s.videoCap ∧ t.dev.chGeom = s.dev.chGeom
      ∧ t.dev.chAddr = s.dev.chAddr ∧ SameMemory s t

/-! ### Host commands -/

/-- R98: the first failing check gives the status, the command ends with no state change and no port activity but the
response. -/
def Obligations.RejectedCommandsChangeNothing : Prop :=
  (∀ (s : State) (ch : BitVec 4) (addr cap : Word) (w h : BitVec 16) (b : BitVec 3) (m : FieldMode),
    8 ≤ ch.toNat →
    ∀ i ∈ [Instr.start ch, .stop ch, .enq ch addr cap, .setfmt ch w h b m],
      exec i s = .next { s with hist := s.hist ++ [.rsp .errChannel 0] })
    ∧ (∀ (s : State) (ch : BitVec 4) (addr cap : Word), ch.toNat < 8 →
      cap = 0 ∨ 2 ^ 32 < addr.toNat + cap.toNat →
      exec (.enq ch addr cap) s = .next { s with hist := s.hist ++ [.rsp .errRange 0] })
    ∧ (∀ (s : State) (ch : BitVec 4) (w h : BitVec 16) (b : BitVec 3) (m : FieldMode), ch.toNat < 8 →
      w = 0 ∨ h = 0 ∨ b = 0 ∨ 4 < b.toNat
        ∨ s.cfg.maxFieldBytes <
            (if m = .interlaced then (h.toNat + 1) / 2 else h.toNat) * w.toNat * b.toNat →
      exec (.setfmt ch w h b m) s = .next { s with hist := s.hist ++ [.rsp .errRange 0] })
    ∧ (∀ (s : State) (idx : BitVec 16), (0x40 ≤ idx.toNat ∧ idx.toNat < 0x80) ∨ 0x89 < idx.toNat →
      exec (.rdsr idx) s = .next { s with hist := s.hist ++ [.rsp .errRange 0] })
    ∧ (∀ (s : State) (k : Chan), (s.chan k).configured = false ∨ (s.chan k).fsm ≠ .idle →
      exec (.start (BitVec.ofNat 4 k.val)) s = .next { s with hist := s.hist ++ [.rsp .errState 0] })
    ∧ (∀ (s : State) (k : Chan) (addr cap : Word), cap ≠ 0 → addr.toNat + cap.toNat ≤ 2 ^ 32 →
      (s.chan k).queue.length = s.cfg.qdepth →
      exec (.enq (BitVec.ofNat 4 k.val) addr cap) s = .next { s with hist := s.hist ++ [.rsp .busy 0] })
    ∧ (∀ (s : State) (k : Chan) (w h : BitVec 16) (b : BitVec 3) (m : FieldMode),
      fmtInRange s.cfg w h b m = true → (s.chan k).fsm ≠ .idle →
      exec (.setfmt (BitVec.ofNat 4 k.val) w h b m) s = .next { s with hist := s.hist ++ [.rsp .busy 0] })

/-- R99: every command packet, of any legal operation with any operands in any state, is answered by exactly one response,
its last record; the data is 0 but for RDSR. -/
def Obligations.EveryCommandIsAnsweredOnce : Prop :=
  ∀ (i : Instr) (s : State), i ∉ [Instr.irq, .tdefer, .twdog] →
    ∃ t obs st d, exec i s = .next t ∧ t.hist = s.hist ++ obs ++ [.rsp st d]
      ∧ (∀ o ∈ obs, ∀ st' d', o ≠ .rsp st' d') ∧ (d ≠ 0 → st = .ok ∧ ∃ idx, i = .rdsr idx)

/-- R98 checks 2 and 3: a command with legal operands is never answered ERR_CHANNEL, ERR_RANGE or ERR_ILLEGAL. -/
def Obligations.LegalOperandsPassTheStaticChecks : Prop :=
  ∀ (i : Instr) (s t : State) (st : Status) (d : Word), i.WellFormed s.cfg = true → i ∉ [Instr.irq, .tdefer, .twdog] →
    exec i s = .next t → t.hist.getLast? = some (.rsp st d) → st = .ok ∨ st = .busy ∨ st = .errState

/-- R158 and R156: START of a configured idle channel, the first one and a later one, on faithful registers: the five
programming writes once, sections 2 and 3, and the response. -/
def Obligations.StartProgramsRequestsAndEnables : Prop :=
  ∀ (k : Chan) (s : State), s.dev.glitch = [] → (s.chan k).configured = true → (s.chan k).fsm = .idle →
    let c := s.chan k
    let a := fun j : Nat => BitVec.ofNat 32 (s.cfg.fieldBase + (4 * k.val + j) * s.cfg.maxFieldBytes)
    let g := BitVec.ofNat 16 (fieldLines c) ++ c.width
    let e := s.dev.dmaEn ||| (1#32 <<< k.val)
    let w := cmdWord s.cfg e
    exec (.start (BitVec.ofNat 4 k.val)) s = .next { s with
      ch := s.ch.set k { c with alloc := true, seq := 0, curPB := .p, curField := .f0, fsm := .awaitF0 }
      videoCap := s.videoCap ||| (1#8 <<< k.val)
      videoDMA := videoBits e
      dev := { s.dev with
        dmaEn := e
        dmaCmd := w
        chAddr := if c.alloc then s.dev.chAddr else s.dev.chAddr.set k ⟨a 0, a 1, a 2, a 3⟩
        chGeom := if c.alloc then s.dev.chGeom else s.dev.chGeom.set k g }
      hist := s.hist
        ++ (if c.alloc then [] else
            [.regWrite (s.cfg.regMap.chAddr.get k).f0p (a 0), .regWrite (s.cfg.regMap.chAddr.get k).f0b (a 1),
              .regWrite (s.cfg.regMap.chAddr.get k).f1p (a 2), .regWrite (s.cfg.regMap.chAddr.get k).f1b (a 3),
              .regWrite (s.cfg.regMap.chGeom.get k) g])
        ++ enableTransfers s.cfg.regMap s.dev.dmaEn e w ++ [.rsp .ok 0] }

/-- R162 and R163: STOP of a channel in any `fsm` state, on faithful registers: disabled and no longer requested, every
queued buffer returned head to tail with ERROR and the unadvanced sequence number, IDLE. -/
def Obligations.StopDisablesThenFlushes : Prop :=
  ∀ (k : Chan) (s : State), s.dev.glitch = [] →
    let c := s.chan k
    let e := s.dev.dmaEn &&& ~~~(1#32 <<< k.val)
    exec (.stop (BitVec.ofNat 4 k.val)) s = .next { s with
      ch := s.ch.set k { c with queue := [], fsm := .idle }
      videoCap := s.videoCap &&& ~~~(1#8 <<< k.val)
      videoDMA := videoBits e
      dev := { s.dev with dmaEn := e, dmaCmd := haltedCmd e s.dev.dmaCmd }
      hist := s.hist ++ disableTransfers s.cfg.regMap s.dev.dmaEn e
        ++ c.queue.map (fun b => .cpl
            { ch := k, tag := c.fieldMode, error := true, seq := c.seq, addr := b.addr, ts := s.now })
        ++ [.rsp .ok 0] }

/-- R166: ENQ of a buffer in range, in any `fsm` state, onto a queue that is not full. -/
def Obligations.EnqAppendsAtTheTail : Prop :=
  ∀ (k : Chan) (s : State) (addr cap : Word), cap ≠ 0 → addr.toNat + cap.toNat ≤ 2 ^ 32 →
    (s.chan k).queue.length ≠ s.cfg.qdepth →
    exec (.enq (BitVec.ofNat 4 k.val) addr cap) s = .next { s with
      ch := s.ch.set k { s.chan k with queue := (s.chan k).queue ++ [⟨addr, cap, .queued⟩] }
      hist := s.hist ++ [.rsp .ok 0] }

/-- R154, with the geometry word of R150 and R36: SETFMT in range on an idle channel; CH_GEOM is written exactly when the
buffers are already programmed, CH_ADDR never. -/
def Obligations.SetfmtStoresTheFormat : Prop :=
  ∀ (k : Chan) (s : State) (w h : BitVec 16) (b : BitVec 3) (m : FieldMode),
    w ≠ 0 → h ≠ 0 → b ≠ 0 → b.toNat ≤ 4 →
    (if m = .interlaced then (h.toNat + 1) / 2 else h.toNat) * w.toNat * b.toNat ≤ s.cfg.maxFieldBytes →
    (s.chan k).fsm = .idle →
    let g := BitVec.ofNat 16 (if m = .interlaced then (h.toNat + 1) / 2 else h.toNat) ++ w
    exec (.setfmt (BitVec.ofNat 4 k.val) w h b m) s = .next { s with
      ch := s.ch.set k
        { s.chan k with width := w, height := h, bpp := b, fieldMode := m, configured := true }
      dev := { s.dev with
        chGeom := if (s.chan k).alloc then s.dev.chGeom.set k g else s.dev.chGeom }
      hist := s.hist
        ++ (if (s.chan k).alloc then [.regWrite (s.cfg.regMap.chGeom.get k) g] else [])
        ++ [.rsp .ok 0] }

/-- R37 and R172, the per-channel indices 8k + sel: RDSR answers OK with the layout's number and changes nothing. That the
queue length of sel 6 shows modulo 256 is the model's (log 15); R37 gives the field 8 bits and no value beyond them. -/
def Obligations.RdsrReadsTheChannelRegisters : Prop :=
  ∀ (k : Chan) (s : State) (sel : Nat), sel < 8 →
    let c := s.chan k
    ∃ v : Word, exec (.rdsr (BitVec.ofNat 16 (8 * k.val + sel))) s = .next { s with hist := s.hist ++ [.rsp .ok v] }
      ∧ (sel = 0 → v.toNat = c.fsm.code.toNat + 4 * c.curPB.num + 8 * c.curField.num + 16 * c.noSignal.toNat
          + 32 * c.alloc.toNat + 64 * c.configured.toNat + 256 * c.fieldMode.code.toNat + 4096 * c.bpp.toNat)
      ∧ (sel = 1 → v.toNat = c.width.toNat + 65536 * c.height.toNat)
      ∧ (sel = 2 → v = c.timeoutCnt) ∧ (sel = 3 → v = c.errCnt) ∧ (sel = 4 → v = c.mismatchCnt)
      ∧ (sel = 5 → v = c.seq)
      ∧ (sel = 6 → v.toNat = c.queue.length % 256
          + 256 * (match c.queue with
            | [] => 0
            | e :: _ => if e.bstate = .partialFill then 1 else 0))
      ∧ (sel = 7 → v = 0)

/-- R37 and R172, the global indices 0x80 to 0x89. -/
def Obligations.RdsrReadsTheGlobalRegisters : Prop :=
  ∀ (s : State) (g : Nat), g < 10 →
    ∃ v : Word, exec (.rdsr (BitVec.ofNat 16 (0x80 + g))) s = .next { s with hist := s.hist ++ [.rsp .ok v] }
      ∧ (g = 0 → v.toNat = s.videoDMA.toNat) ∧ (g = 1 → v.toNat = s.videoCap.toNat)
      ∧ (g = 2 → v = s.pendEn) ∧ (g = 3 → v = s.pendCmd)
      ∧ (g = 4 → v.toNat = s.pendValid.toNat + 2 * s.deferArmed.toNat + 4 * s.lastFaultValid.toNat
          + 8 * s.verifyErr.toNat + 16 * s.irqActive.toNat)
      ∧ (g = 5 → v.toNat = s.lastResetMask.toNat)
      ∧ (g = 6 → v.toNat = s.now % 2 ^ 32) ∧ (g = 7 → v.toNat = s.deferDeadline % 2 ^ 32)
      ∧ (g = 8 → v.toNat = s.wdogDeadline % 2 ^ 32) ∧ (g = 9 → v.toNat = s.lastFaultTime % 2 ^ 32)

/-- The frame of START, STOP, ENQ, SETFMT and RDSR in every state: no other channel, no timer, no snapshot, no status
register, no byte of memory; and of the channel itself only what the operation's rule writes. -/
def Obligations.HostCommandFrame : Prop :=
  (∀ (s t : State) (ch : BitVec 4) (addr cap : Word) (w h : BitVec 16) (b : BitVec 3) (m : FieldMode) (idx : BitVec 16),
    ∀ i ∈ [Instr.start ch, .stop ch, .enq ch addr cap, .setfmt ch w h b m, .rdsr idx], exec i s = .next t →
      OnlyCommandState s t ∧ SameMemory s t
        ∧ ∀ j : Chan, j.val ≠ ch.toNat → t.chan j = s.chan j ∧ t.dev.chGeom.get j = s.dev.chGeom.get j
            ∧ t.dev.chAddr.get j = s.dev.chAddr.get j)
    ∧ (∀ (s t : State) (k : Chan), exec (.start (BitVec.ofNat 4 k.val)) s = .next t →
      t.chan k = { s.chan k with
        fsm := (t.chan k).fsm
        seq := (t.chan k).seq
        curPB := (t.chan k).curPB
        curField := (t.chan k).curField
        alloc := (t.chan k).alloc })
    ∧ (∀ (s t : State) (k : Chan), exec (.stop (BitVec.ofNat 4 k.val)) s = .next t →
      t.chan k = { s.chan k with queue := [], fsm := .idle }
        ∧ t.dev.chGeom = s.dev.chGeom ∧ t.dev.chAddr = s.dev.chAddr)
    ∧ (∀ (s t : State) (k : Chan) (addr cap : Word), exec (.enq (BitVec.ofNat 4 k.val) addr cap) s = .next t →
      t.chan k = { s.chan k with queue := (t.chan k).queue } ∧ t.dev = s.dev ∧ t.videoCap = s.videoCap
        ∧ t.videoDMA = s.videoDMA ∧ t.verifyErr = s.verifyErr)
    ∧ (∀ (s t : State) (k : Chan) (w h : BitVec 16) (b : BitVec 3) (m : FieldMode),
      exec (.setfmt (BitVec.ofNat 4 k.val) w h b m) s = .next t →
      t.chan k = { s.chan k with
        width := (t.chan k).width
        height := (t.chan k).height
        bpp := (t.chan k).bpp
        fieldMode := (t.chan k).fieldMode
        configured := (t.chan k).configured }
        ∧ t.dev = { s.dev with chGeom := t.dev.chGeom } ∧ t.videoCap = s.videoCap ∧ t.videoDMA = s.videoDMA
        ∧ t.verifyErr = s.verifyErr)

/-! ### The interrupt: classes and checks -/

/-- R235, the class NOT_OURS: the two reads of P1 are the only trace (beside the hidden latches). -/
def Obligations.ForeignInterruptLeavesNoTrace : Prop :=
  ∀ s : State, s.irqActive = false →
    s.dev.intStatus &&& (0x0000FFFF#32 ||| (1#32 <<< s.cfg.toutBit)) = 0 →
    s.dev.fifoStatus &&& 0xFFFF0000#32 = 0 →
    exec .irq s = .next { s with
      lat := { s.lat with st := s.dev.intStatus, er := s.dev.fifoStatus, rst := 0 }
      hist := s.hist ++
        [.regRead s.cfg.regMap.intStatus s.dev.intStatus, .regRead s.cfg.regMap.fifoStatus s.dev.fifoStatus] }

/-- R238 with R247: a global DMA timeout, whatever else `st` and `er` show, on faithful registers: every channel counts
it and gives up its in-flight frame, all eight are removed from the enable mask after a snapshot, the audio and reserved
bits stay, the timer is armed. -/
def Obligations.GlobalTimeoutResetsAllVideoChannels : Prop :=
  ∀ s : State, s.irqActive = false → s.dev.glitch = [] → s.dev.intStatus.getLsbD s.cfg.toutBit = true →
    let e := s.dev.dmaEn &&& ~~~0xFF#32
    ∃ t, exec .irq s = .next t
      ∧ (∀ k : Chan, t.chan k =
          (let c := { s.chan k with timeoutCnt := (s.chan k).timeoutCnt + 1 }
           if c.fsm = .f0Captured then { c with fsm := .awaitF0, queue := markHead .queued c.queue } else c))
      ∧ t.dev = { s.dev with dmaEn := e, dmaCmd := haltedCmd e s.dev.dmaCmd } ∧ t.videoDMA = 0
      ∧ t.pendEn = s.dev.dmaEn ∧ t.pendCmd = s.dev.dmaCmd ∧ t.pendValid = true ∧ t.lastResetMask = 0xFF
      ∧ t.lastFaultTime = s.now ∧ t.lastFaultValid = true
      ∧ t.deferDeadline = s.now + s.cfg.tDefer ∧ t.deferArmed = true
      ∧ t.hist = s.hist ++
          [.regRead s.cfg.regMap.intStatus s.dev.intStatus, .regRead s.cfg.regMap.fifoStatus s.dev.fifoStatus,
            .regRead s.cfg.regMap.dmaEn s.dev.dmaEn, .regRead s.cfg.regMap.dmaCmd s.dev.dmaCmd,
            .regWrite s.cfg.regMap.dmaEn e, .regRead s.cfg.regMap.dmaEn e] ++ haltTransfers s.cfg.regMap e
      ∧ t.irqActive = false ∧ SameMemory s t ∧ OnlyInterruptState s t

/-- R246 with R239 and R240: an interrupt with audio periods ready and no video channel to serve emits one AUD record,
the ready set not masked by the enable bits, and resets nothing. -/
def Obligations.AudioReadyIsHandedOff : Prop :=
  ∀ s : State, s.irqActive = false → s.dev.intStatus.getLsbD s.cfg.toutBit = false →
    s.dev.intStatus.extractLsb' 8 8 ≠ 0#8 →
    s.dev.intStatus &&& s.dev.dmaEn &&& 0xFF#32 = 0 → s.dev.fifoStatus &&& 0xFFFF0000#32 = 0 →
    exec .irq s = .next { s with
      lat := ⟨s.dev.intStatus, s.dev.fifoStatus, s.dev.dmaEn, s.dev.pbStatus, 0⟩
      hist := s.hist ++
        [.regRead s.cfg.regMap.intStatus s.dev.intStatus, .regRead s.cfg.regMap.fifoStatus s.dev.fifoStatus,
          .regRead s.cfg.regMap.dmaEn s.dev.dmaEn, .regRead s.cfg.regMap.pbStatus s.dev.pbStatus,
          .aud (s.dev.intStatus.extractLsb' 8 8) (s.dev.pbStatus.extractLsb' 8 8)] }

/-- An interrupt of the class DATA with exactly one video channel to serve is: the four reads into the latches, that
channel's work, and, when the work flags it, one reset operation (R233, R239, R240, R247). -/
def Obligations.OneReadyChannelIsServed : Prop :=
  ∀ (s : State) (k : Chan), s.irqActive = false → s.dev.intStatus.getLsbD s.cfg.toutBit = false →
    s.dev.intStatus &&& 0xFF00#32 = 0 →
    ((videoBits s.dev.intStatus &&& videoBits s.dev.dmaEn) ||| s.dev.fifoStatus.extractLsb' 24 8
        ||| s.dev.fifoStatus.extractLsb' 16 8 = 1#8 <<< k.val) →
    exec .irq s =
      andThen
        (channelWork k { s with
          irqActive := true
          lat := ⟨s.dev.intStatus, s.dev.fifoStatus, s.dev.dmaEn, s.dev.pbStatus, 0⟩
          hist := s.hist ++
            [.regRead s.cfg.regMap.intStatus s.dev.intStatus, .regRead s.cfg.regMap.fifoStatus s.dev.fifoStatus,
              .regRead s.cfg.regMap.dmaEn s.dev.dmaEn, .regRead s.cfg.regMap.pbStatus s.dev.pbStatus] })
        (fun u => .next
          (if u.lat.rst = 0 then { u with irqActive := false }
           else { resetChannels u.lat.rst u with irqActive := false }))

/-- R233 with R240 and R245 to R247, an interrupt of the class DATA for every ready set: the four reads into the latches;
the work of the ready channels one after another, each leaving its channel and its reset flag as its work alone would and
every other channel alone (R245: the channels are independent); one AUD record when audio is ready; then one reset operation
with the union of the flags, when there is one. The ascending order is the model's (log 7). -/
def Obligations.EveryReadySetIsServed : Prop :=
  ∀ s : State, s.Inv → s.irqActive = false → s.dev.intStatus.getLsbD s.cfg.toutBit = false →
    ¬ (s.dev.intStatus &&& (0x0000FFFF#32 ||| (1#32 <<< s.cfg.toutBit)) = 0 ∧ s.dev.fifoStatus &&& 0xFFFF0000#32 = 0) →
    let ready := (videoBits s.dev.intStatus &&& videoBits s.dev.dmaEn) ||| s.dev.fifoStatus.extractLsb' 24 8
      ||| s.dev.fifoStatus.extractLsb' 16 8
    let aready := s.dev.intStatus.extractLsb' 8 8
    let s1 := { s with
      irqActive := true
      lat := ⟨s.dev.intStatus, s.dev.fifoStatus, s.dev.dmaEn, s.dev.pbStatus, 0⟩
      hist := s.hist ++
        [.regRead s.cfg.regMap.intStatus s.dev.intStatus, .regRead s.cfg.regMap.fifoStatus s.dev.fifoStatus,
          .regRead s.cfg.regMap.dmaEn s.dev.dmaEn, .regRead s.cfg.regMap.pbStatus s.dev.pbStatus] }
    ∃ u, forChans ready channelWork allChans s1 = .next u
      ∧ (∀ k : Chan, if ready.getLsbD k.val then
            ∃ w, channelWork k s1 = .next w ∧ u.chan k = w.chan k ∧ u.lat.rst.getLsbD k.val = w.lat.rst.getLsbD k.val
          else u.chan k = s.chan k ∧ u.lat.rst.getLsbD k.val = false)
      ∧ exec .irq s = .next
          (let v := if aready = 0#8 then u else
            { u with hist := u.hist ++ [.aud aready (s.dev.pbStatus.extractLsb' 8 8)] }
           if u.lat.rst = 0 then { v with irqActive := false }
           else { resetChannels u.lat.rst v with irqActive := false })

/-- R232: while an invocation is in progress no other is begun; the assertion is held and nothing else changes. That the
held assertion is a field of the state is the model's (log 11). -/
def Obligations.InterruptIsHeldDuringAnInvocation : Prop :=
  ∀ s : State, s.irqActive = true → exec .irq s = .next { s with evHeld := s.evHeld ||| 0b001#3 }

/-- R241 to R244: the checks of a channel's work, in their order. -/
def Obligations.ChannelChecksInOrder : Prop :=
  ∀ (k : Chan) (s : State),
    let c := s.chan k
    let fe := s.lat.er.getLsbD (24 + k.val) || s.lat.er.getLsbD (16 + k.val)
    let nosig := s.lat.er.getLsbD k.val
    (fe = true → channelWork k s = .next { s with
      ch := s.ch.set k { c with errCnt := c.errCnt + 1 }
      lat := { s.lat with rst := s.lat.rst ||| (1#8 <<< k.val) } })
    ∧ (fe = false → nosig = true → channelWork k s = .next { s with ch := s.ch.set k { c with noSignal := true } })
    ∧ (fe = false → nosig = false → c.noSignal = true → channelWork k s = .next { s with
      ch := s.ch.set k { c with noSignal := false }
      lat := { s.lat with rst := s.lat.rst ||| (1#8 <<< k.val) } })
    ∧ (fe = false → nosig = false → c.noSignal = false → (c.fsm = .idle ∨ c.queue = []) → channelWork k s = .next s)
    ∧ (∀ b q, fe = false → nosig = false → c.noSignal = false → c.fsm ≠ .idle → c.queue = b :: q →
      channelWork k s =
        fieldEvent k (if s.lat.pb.getLsbD (24 + k.val) then .f1 else .f0) (if s.lat.pb.getLsbD k.val then .b else .p) b s)

/-! ### Field events -/

/-- R209 and R210: a field the channel's mode and state do not want changes nothing. -/
def Obligations.UnwantedFieldIsIgnored : Prop :=
  ∀ (k : Chan) (slot : Slot) (b : Entry) (s : State),
    ((s.chan k).fieldMode = .interlaced → (s.chan k).fsm = .awaitF0 → fieldEvent k .f1 slot b s = .next s)
      ∧ ((s.chan k).fieldMode = .top → fieldEvent k .f1 slot b s = .next s)
      ∧ ((s.chan k).fieldMode = .bottom → fieldEvent k .f0 slot b s = .next s)

/-- R205: field 0 accepted while weaving: the copy, then the slot recorded and the head PARTIAL, nothing emitted beside
the copy's own writes. -/
def Obligations.FieldZeroIsCaptured : Prop :=
  ∀ (k : Chan) (slot : Slot) (b : Entry) (q : List Entry) (s : State), s.Inv →
    (s.chan k).fieldMode = .interlaced → (s.chan k).fsm = .awaitF0 → (s.chan k).queue = b :: q →
    ∃ t, copyField k .f0 slot false b s = .next t
      ∧ fieldEvent k .f0 slot b s = .next { t with
          ch := s.ch.set k { s.chan k with
            curPB := slot
            curField := .f0
            fsm := .f0Captured
            queue := { b with bstate := .partialFill } :: q } }

/-- R206 with R208: field 1 in the recorded slot completes the frame: the copy, the buffer off the queue, one DONE record
after the copy's writes, the sequence number advanced. -/
def Obligations.MatchingFieldOneCompletes : Prop :=
  ∀ (k : Chan) (b : Entry) (q : List Entry) (s : State), s.Inv →
    (s.chan k).fieldMode = .interlaced → (s.chan k).fsm = .f0Captured → (s.chan k).queue = b :: q →
    ∃ t, copyField k .f1 (s.chan k).curPB false b s = .next t
      ∧ fieldEvent k .f1 (s.chan k).curPB b s = .next { t with
          ch := s.ch.set k { s.chan k with
            curField := .f1
            fsm := .awaitF0
            queue := q
            seq := (s.chan k).seq + 1 }
          hist := t.hist ++ [.cpl
            { ch := k, tag := .interlaced, error := false, seq := (s.chan k).seq, addr := b.addr, ts := s.now }] }

/-- R207: field 1 in the other slot, or a second field 0, discards the in-flight frame, counts it, flags the channel, and
copies and emits nothing. -/
def Obligations.MismatchDiscardsTheFrame : Prop :=
  ∀ (k : Chan) (field : FieldNo) (slot : Slot) (b : Entry) (q : List Entry) (s : State),
    (s.chan k).fieldMode = .interlaced → (s.chan k).fsm = .f0Captured → (s.chan k).queue = b :: q →
    (field = .f0 ∨ slot ≠ (s.chan k).curPB) →
    fieldEvent k field slot b s = .next { s with
      ch := s.ch.set k { s.chan k with
        fsm := .awaitF0
        queue := { b with bstate := .queued } :: q
        mismatchCnt := (s.chan k).mismatchCnt + 1 }
      lat := { s.lat with rst := s.lat.rst ||| (1#8 <<< k.val) } }

/-- R210 with R208 and R103: a wanted field in the modes TOP, BOTTOM and ALTERNATE completes one buffer by itself. -/
def Obligations.SingleFieldCompletes : Prop :=
  ∀ (k : Chan) (f : FieldNo) (slot : Slot) (b : Entry) (q : List Entry) (s : State), s.Inv →
    (s.chan k).queue = b :: q →
    ((s.chan k).fieldMode = .top ∧ f = .f0) ∨ ((s.chan k).fieldMode = .bottom ∧ f = .f1)
      ∨ (s.chan k).fieldMode = .alternate →
    ∃ t, copyField k f slot true b s = .next t
      ∧ fieldEvent k f slot b s = .next { t with
          ch := s.ch.set k { s.chan k with
            curPB := slot
            curField := f
            fsm := .awaitF0
            queue := q
            seq := (s.chan k).seq + 1 }
          hist := t.hist ++ [.cpl
            { ch := k, tag := if f = .f0 then .top else .bottom, error := false, seq := (s.chan k).seq, addr := b.addr,
              ts := s.now }] }

/-! ### The copy sequencer -/

/-- R202: the copy moves lines `0` to `L - 1`, `L` the first line that passes the source bound or the capacity (or the
planned count), each to `off0 + i * step`, in order, byte for byte; no other byte changes, nothing but memory and the
history changes. The frame buffer is disjoint from the field buffer and no field buffer byte changes meanwhile (R300). -/
def Obligations.CopyMovesWholeLinesWithinCapacity : Prop :=
  ∀ (k : Chan) (f : FieldNo) (slot : Slot) (single : Bool) (b : Entry) (s t : State),
    Memory.wf s.mem = true → s.dev.lateFill = [] → copyField k f slot single b s = .next t →
    let src := s.cfg.fieldBase + (4 * k.val + 2 * f.num + slot.num) * s.cfg.maxFieldBytes
    b.addr.toNat + b.cap.toNat ≤ src ∨ src + s.cfg.maxFieldBytes ≤ b.addr.toNat →
    let c := s.chan k
    let p := c.width.toNat * c.bpp.toNat
    let off0 := if single then 0 else f.num * p
    let step := if single then p else 2 * p
    let n := if single then c.height.toNat else (c.height.toNat + 1 - f.num) / 2
    let fits := fun i : Nat => i * p + p ≤ s.cfg.maxFieldBytes ∧ off0 + i * step + p ≤ b.cap.toNat
    ∃ L, L ≤ n ∧ (∀ i < L, fits i) ∧ (L < n → ¬ fits L)
      ∧ t.hist = s.hist ++ (List.range L).map (fun i =>
          .memWrite (b.addr.toNat + (off0 + i * step)) (Memory.readBytes s.mem (src + i * p) p))
      ∧ (∀ i < L, ∀ x < p, Memory.read t.mem (b.addr.toNat + (off0 + i * step) + x) = Memory.read s.mem (src + i * p + x))
      ∧ (∀ a, (∀ i < L, a < b.addr.toNat + (off0 + i * step) ∨ b.addr.toNat + (off0 + i * step) + p ≤ a) →
          Memory.read t.mem a = Memory.read s.mem a)
      ∧ t = { s with mem := t.mem, hist := t.hist }

/-- The frame of a copy with nothing assumed of overlaps or of the capture device (R70, R305): no byte changes outside the
frame buffer's capacity and the field buffer being drained. -/
def Obligations.CopyStaysInsideTheBuffers : Prop :=
  ∀ (k : Chan) (f : FieldNo) (slot : Slot) (single : Bool) (b : Entry) (s t : State) (a : Nat),
    copyField k f slot single b s = .next t →
    a < b.addr.toNat ∨ b.addr.toNat + b.cap.toNat ≤ a →
    a < fbAddr s.cfg k f slot ∨ fbAddr s.cfg k f slot + s.cfg.maxFieldBytes ≤ a →
    Memory.read t.mem a = Memory.read s.mem a

/-- R215, round trip: after field 0 and field 1 of one slot into a buffer large enough for the frame and disjoint from
the two field buffers, which do not change meanwhile, every frame line is the matching line of its field buffer. -/
def Obligations.WovenFrameInterleavesTheFields : Prop :=
  ∀ (k : Chan) (slot : Slot) (b : Entry) (q : List Entry) (s t u : State), s.Inv → s.dev.lateFill = [] →
    (s.chan k).fieldMode = .interlaced → (s.chan k).fsm = .awaitF0 → (s.chan k).queue = b :: q →
    (s.chan k).height.toNat * pitch (s.chan k) ≤ b.cap.toNat →
    (∀ f : FieldNo, b.addr.toNat + b.cap.toNat ≤ fbAddr s.cfg k f slot
      ∨ fbAddr s.cfg k f slot + s.cfg.maxFieldBytes ≤ b.addr.toNat) →
    fieldEvent k .f0 slot b s = .next t →
    fieldEvent k .f1 slot { b with bstate := .partialFill } t = .next u →
    ∀ y < (s.chan k).height.toNat, ∀ x < pitch (s.chan k),
      Memory.read u.mem (b.addr.toNat + y * pitch (s.chan k) + x)
        = Memory.read s.mem (fbAddr s.cfg k (if y % 2 = 0 then .f0 else .f1) slot + (y / 2) * pitch (s.chan k) + x)

/-- R215, mismatch safety, over a whole invocation: a DONE record with tag INTERLACED is emitted for a channel only when
the invocation's PB_STATUS reports field 1 in the slot recorded for the channel's in-flight frame. -/
def Obligations.WovenRecordsComeFromMatchingSlots : Prop :=
  ∀ (s t : State) (r : Cpl), exec .irq s = .next t → .cpl r ∈ t.hist.drop s.hist.length →
    r.error = false
      ∧ (r.tag = .interlaced →
          (s.chan r.ch).fsm = .f0Captured ∧ (s.chan r.ch).fieldMode = .interlaced
            ∧ s.dev.pbStatus.getLsbD (24 + r.ch.val) = true
            ∧ (if s.dev.pbStatus.getLsbD r.ch.val then Slot.b else Slot.p) = (s.chan r.ch).curPB)

/-! ### The reset operation -/

/-- R125 with R126 to R128: the reset operation on faithful registers. -/
def Obligations.ResetOperationRemovesTheChannels : Prop :=
  ∀ (m : Mask) (s : State), s.dev.glitch = [] →
    let e := s.dev.dmaEn &&& ~~~(m.setWidth 32)
    (∀ k : Chan, (resetChannels m s).chan k =
        (let c := s.chan k
         if m.getLsbD k.val ∧ c.fsm = .f0Captured then
           { c with fsm := .awaitF0, queue := markHead .queued c.queue }
         else c))
      ∧ resetChannels m s = { s with
          ch := (resetChannels m s).ch
          pendEn := s.dev.dmaEn
          pendCmd := s.dev.dmaCmd
          pendValid := true
          videoDMA := videoBits e
          dev := { s.dev with dmaEn := e, dmaCmd := haltedCmd e s.dev.dmaCmd }
          lastResetMask := m
          lastFaultTime := s.now
          lastFaultValid := true
          deferDeadline := s.now + s.cfg.tDefer
          deferArmed := true
          hist := s.hist ++
            [.regRead s.cfg.regMap.dmaEn s.dev.dmaEn, .regRead s.cfg.regMap.dmaCmd s.dev.dmaCmd,
              .regWrite s.cfg.regMap.dmaEn e, .regRead s.cfg.regMap.dmaEn e] ++ haltTransfers s.cfg.regMap e }

/-! ### The interrupt as a whole -/

/-- R248: from every state that meets the invariant an interrupt runs to its end. -/
def Obligations.InterruptCompletes : Prop :=
  ∀ s : State, s.Inv → s.irqActive = false → ∃ t, exec .irq s = .next t ∧ t.irqActive = false ∧ t.Inv

/-- The frame of IRQ: what an invocation can change (OnlyInterruptState), no channel's format, and no byte of memory
outside the capacity of the buffers at the heads of the queues and the field buffer region the capture device owns. -/
def Obligations.InterruptFrame : Prop :=
  ∀ s t : State, s.irqActive = false → exec .irq s = .next t →
    OnlyInterruptState s t ∧ (∀ k : Chan, SameFormat (s.chan k) (t.chan k))
      ∧ (∀ a, (∀ (k : Chan) (b : Entry), (s.chan k).queue.head? = some b →
              a < b.addr.toNat ∨ b.addr.toNat + b.cap.toNat ≤ a) →
            (a < s.cfg.fieldBase ∨ s.cfg.fieldBase + 32 * s.cfg.maxFieldBytes ≤ a ∨ s.dev.lateFill = []) →
            Memory.read t.mem a = Memory.read s.mem a)

/-! ### Timers -/

/-- R257: TDEFER at or after its deadline, on faithful registers: both registers restored verbatim, DMA_EN first. -/
def Obligations.DeferredRestoreIsVerbatim : Prop :=
  ∀ s : State, s.dev.glitch = [] → s.deferArmed = true → s.deferDeadline ≤ s.now →
    exec .tdefer s = .next (if s.pendValid then
        { s with
          dev := { s.dev with dmaEn := s.pendEn, dmaCmd := s.pendCmd }
          videoDMA := s.pendEn.extractLsb' 0 8
          pendValid := false
          deferArmed := false
          hist := s.hist ++
            [.regWrite s.cfg.regMap.dmaEn s.pendEn, .regRead s.cfg.regMap.dmaEn s.pendEn,
              .regWrite s.cfg.regMap.dmaCmd s.pendCmd, .regRead s.cfg.regMap.dmaCmd s.pendCmd] }
      else { s with deferArmed := false })

/-- R256: a timer event requested before its deadline, or TDEFER while not armed, has no effect at all. -/
def Obligations.TimerEventsWaitForTheirDeadlines : Prop :=
  ∀ s : State,
    ((s.deferArmed = false ∨ s.now < s.deferDeadline) → exec .tdefer s = .next s)
      ∧ (s.now < s.wdogDeadline → exec .twdog s = .next s)

/-- R259: TWDOG at or after its deadline, on faithful registers: rearmed from now, always; skipped within a period of the
last reset operation; otherwise, exactly when a requested channel is missing from the shadow, the requested set is
merged into DMA_EN and the command re-issued. -/
def Obligations.WatchdogMergesMissingChannels : Prop :=
  ∀ s : State, s.dev.glitch = [] → s.wdogDeadline ≤ s.now →
    let e := s.dev.dmaEn ||| s.videoCap.setWidth 32
    let c := cmdWord s.cfg e
    exec .twdog s = .next
      (if (s.lastFaultValid = true ∧ s.now - s.lastFaultTime < s.cfg.tWdog) ∨ s.videoCap &&& ~~~s.videoDMA = 0 then
        { s with wdogDeadline := s.now + s.cfg.tWdog }
       else
        { s with
          wdogDeadline := s.now + s.cfg.tWdog
          dev := { s.dev with dmaEn := e, dmaCmd := c }
          videoDMA := videoBits e
          hist := s.hist ++ enableTransfers s.cfg.regMap s.dev.dmaEn e c })

/-- TDEFER and TWDOG answer a next state from every state, corrupted registers or not (R248), and their frame: at or after
the deadline the one is disarmed and the other rearmed, and nothing changes but what OnlyTimerState lists. -/
def Obligations.TimerEventsCompleteWithinTheirFrame : Prop :=
  ∀ s : State,
    (∃ t, exec .tdefer s = .next t ∧ OnlyTimerState s t ∧ SameMemory s t ∧ t.wdogDeadline = s.wdogDeadline
        ∧ (s.deferDeadline ≤ s.now → t.deferArmed = false))
      ∧ ∃ t, exec .twdog s = .next t ∧ OnlyTimerState s t ∧ SameMemory s t ∧ t.deferArmed = s.deferArmed
        ∧ t.pendValid = s.pendValid ∧ (s.wdogDeadline ≤ s.now → t.wdogDeadline = s.now + s.cfg.tWdog)

/-! ### Invariants and whole-machine rules -/

/-- The invariant holds at reset. -/
def Obligations.ResetMeetsTheInvariant : Prop := State.reset.Inv

/-- Every step keeps the invariant: commands, events, single sections in any interleaving, and every move of the
environment. -/
def Obligations.StepKeepsTheInvariant : Prop := ∀ s t : State, s.Inv → step s = .next t → t.Inv

/-- R248: from every state that meets the invariant, every step goes on; no fault, no refusal. -/
def Obligations.InvariantStatesNeverStop : Prop := ∀ s : State, s.Inv → ∃ t, step s = .next t

/-- No step changes the parameters, in any state. That they are a field of the state which no step changes is the model's
(log 4); R20 names them parameters of the step relation. -/
def Obligations.ParametersNeverChange : Prop := ∀ s t : State, step s = .next t → t.cfg = s.cfg

/-- R256: no operation changes the time. -/
def Obligations.OperationsTakeNoTime : Prop := ∀ (i : Instr) (s t : State), exec i s = .next t → t.now = s.now

/-- R133: the requested set is changed only by START and STOP, and there only in the channel's own bit. -/
def Obligations.RequestedSetChangesOnlyByStartAndStop : Prop :=
  ∀ (i : Instr) (s t : State), exec i s = .next t →
    (∀ j : Chan, i ≠ .start (BitVec.ofNat 4 j.val) → i ≠ .stop (BitVec.ofNat 4 j.val) →
      t.videoCap.getLsbD j.val = s.videoCap.getLsbD j.val)

/-- R31 on faithful registers: apart from the verbatim restore, no operation changes a reserved bit of DMA_EN, and the
audio bit `8 + a` only ENABLE and DISABLE of id `8 + a` change. -/
def Obligations.AudioAndReservedEnableBitsArePreserved : Prop :=
  ∀ (i : Instr) (s t : State) (n : Nat), s.dev.glitch = [] → exec i s = .next t → i ≠ .tdefer → 8 ≤ n →
    (∀ id : BitVec 4, id.toNat = n → i ≠ .enable id ∧ i ≠ .disable id) →
    t.dev.dmaEn.getLsbD n = s.dev.dmaEn.getLsbD n

/-- R38: the history is only ever appended to, by every operation in every state. -/
def Obligations.HistoryOnlyGrows : Prop :=
  ∀ (i : Instr) (s t : State), exec i s = .next t → ∃ obs, t.hist = s.hist ++ obs

/-- R25 and R312: the flags no operation clears, and the counters no operation resets: each is as before or one more. -/
def Obligations.StickyFlagsAndCounters : Prop :=
  ∀ (i : Instr) (s t : State), exec i s = .next t →
    (s.verifyErr = true → t.verifyErr = true) ∧ (s.lastFaultValid = true → t.lastFaultValid = true)
      ∧ ∀ k : Chan,
        ((s.chan k).alloc = true → (t.chan k).alloc = true)
          ∧ ((s.chan k).configured = true → (t.chan k).configured = true)
          ∧ ((t.chan k).timeoutCnt = (s.chan k).timeoutCnt ∨ (t.chan k).timeoutCnt = (s.chan k).timeoutCnt + 1)
          ∧ ((t.chan k).errCnt = (s.chan k).errCnt ∨ (t.chan k).errCnt = (s.chan k).errCnt + 1)
          ∧ ((t.chan k).mismatchCnt = (s.chan k).mismatchCnt ∨ (t.chan k).mismatchCnt = (s.chan k).mismatchCnt + 1)

/-! ### Whole operations are their sections (R266) -/

/-- A host command taken section by section, with no other agent's section between, ends where the whole operation ends,
with nothing left in progress; ten sections are enough. The response as a section of its own is the model's (log 17). -/
def Obligations.CommandSectionsComposeToTheOperation : Prop :=
  ∀ (i : Instr) (s : State) (task : CmdTask), firstTask s.cfg i = some task →
    ∃ n, n ≤ 10 ∧ exec i { s with cmdTask := none } = .next (executorRun n { s with cmdTask := some task })

/-- An interrupt invocation taken section by section, channels in ascending order and nothing between, ends where the
whole operation ends; and a watchdog tick taken as its rearming and then its device section, nothing between, ends where the
whole TWDOG ends (R259). That the tests choosing the next phase belong to the section before is the model's (log 6). -/
def Obligations.EventSectionsComposeToTheOperation : Prop :=
  (∀ s t : State, s.irqActive = false → exec .irq { s with irqPhase := .idle } = .next t →
    ∃ n, n ≤ 30 ∧ dispatcherRun n { irqEnter s with irqPhase := .readInt } = .next t)
    ∧ (∀ s : State, s.wdogPending = false → (s.evHeld.getLsbD 2 = true ∨ s.wdogDeadline ≤ s.now) →
      exec .twdog { s with evHeld := s.evHeld &&& ~~~0b100#3 } = andThen (takeUp .twdog s) (advance .watchdog))

/-- R170: while a host command is in progress, START, STOP or SETFMT among them, no other is begun. That a packet waits
behind a command in progress is the model's reading of one command port (log 12, log 17). -/
def Obligations.OneCommandAtATime : Prop :=
  ∀ s : State, s.cmdTask ≠ none → serve .cmd s = .next s ∧ takeUp .cmd s = .next s

/-! ### Output records -/

/-- R102 and R105: the words of a completion record and of an audio record. -/
def Obligations.OutputRecordWords : Prop :=
  (∀ c : Cpl, ∃ c0, c.words = [c0, c.seq, c.addr, BitVec.ofNat 32 (c.ts % 2 ^ 32), BitVec.ofNat 32 (c.ts / 2 ^ 32)]
      ∧ c0.toNat = c.ch.val + 256 * c.tag.code.toNat + 65536 * c.error.toNat)
    ∧ ∀ ready pb : Mask, (audWord ready pb).toNat = ready.toNat + 256 * pb.toNat
end

