-- ==== Sys2Proof/Laws/State.lean ====
section
/-! SUPPORT. The fields of the state under each small update: one lemma per field, true by unfolding the update once, so
that no proof unfolds a record update again. -/

namespace Sys2Proof.Machine

/-! ### State.emit -/

@[simp] theorem emit_cfg (s : State) (o : Obs) : (s.emit o).cfg = s.cfg := rfl
@[simp] theorem emit_ch (s : State) (o : Obs) : (s.emit o).ch = s.ch := rfl
@[simp] theorem emit_videoDMA (s : State) (o : Obs) : (s.emit o).videoDMA = s.videoDMA := rfl
@[simp] theorem emit_videoCap (s : State) (o : Obs) : (s.emit o).videoCap = s.videoCap := rfl
@[simp] theorem emit_pendEn (s : State) (o : Obs) : (s.emit o).pendEn = s.pendEn := rfl
@[simp] theorem emit_pendCmd (s : State) (o : Obs) : (s.emit o).pendCmd = s.pendCmd := rfl
@[simp] theorem emit_pendValid (s : State) (o : Obs) : (s.emit o).pendValid = s.pendValid := rfl
@[simp] theorem emit_lastResetMask (s : State) (o : Obs) : (s.emit o).lastResetMask = s.lastResetMask := rfl
@[simp] theorem emit_verifyErr (s : State) (o : Obs) : (s.emit o).verifyErr = s.verifyErr := rfl
@[simp] theorem emit_now (s : State) (o : Obs) : (s.emit o).now = s.now := rfl
@[simp] theorem emit_deferArmed (s : State) (o : Obs) : (s.emit o).deferArmed = s.deferArmed := rfl
@[simp] theorem emit_deferDeadline (s : State) (o : Obs) : (s.emit o).deferDeadline = s.deferDeadline := rfl
@[simp] theorem emit_wdogDeadline (s : State) (o : Obs) : (s.emit o).wdogDeadline = s.wdogDeadline := rfl
@[simp] theorem emit_lastFaultTime (s : State) (o : Obs) : (s.emit o).lastFaultTime = s.lastFaultTime := rfl
@[simp] theorem emit_lastFaultValid (s : State) (o : Obs) : (s.emit o).lastFaultValid = s.lastFaultValid := rfl
@[simp] theorem emit_lat (s : State) (o : Obs) : (s.emit o).lat = s.lat := rfl
@[simp] theorem emit_irqActive (s : State) (o : Obs) : (s.emit o).irqActive = s.irqActive := rfl
@[simp] theorem emit_irqPhase (s : State) (o : Obs) : (s.emit o).irqPhase = s.irqPhase := rfl
@[simp] theorem emit_cmdTask (s : State) (o : Obs) : (s.emit o).cmdTask = s.cmdTask := rfl
@[simp] theorem emit_wdogPending (s : State) (o : Obs) : (s.emit o).wdogPending = s.wdogPending := rfl
@[simp] theorem emit_dev (s : State) (o : Obs) : (s.emit o).dev = s.dev := rfl
@[simp] theorem emit_mem (s : State) (o : Obs) : (s.emit o).mem = s.mem := rfl
@[simp] theorem emit_cmdPort (s : State) (o : Obs) : (s.emit o).cmdPort = s.cmdPort := rfl
@[simp] theorem emit_evHeld (s : State) (o : Obs) : (s.emit o).evHeld = s.evHeld := rfl
@[simp] theorem emit_sched (s : State) (o : Obs) : (s.emit o).sched = s.sched := rfl
@[simp] theorem emit_draws (s : State) (o : Obs) : (s.emit o).draws = s.draws := rfl

@[simp] theorem emit_hist (s : State) (o : Obs) : (s.emit o).hist = s.hist ++ [o] := rfl

/-! ### State.modChan -/

@[simp] theorem modChan_cfg (s : State) (k : Chan) (f : Ctx → Ctx) : (s.modChan k f).cfg = s.cfg := rfl
@[simp] theorem modChan_videoDMA (s : State) (k : Chan) (f : Ctx → Ctx) : (s.modChan k f).videoDMA = s.videoDMA := rfl
@[simp] theorem modChan_videoCap (s : State) (k : Chan) (f : Ctx → Ctx) : (s.modChan k f).videoCap = s.videoCap := rfl
@[simp] theorem modChan_pendEn (s : State) (k : Chan) (f : Ctx → Ctx) : (s.modChan k f).pendEn = s.pendEn := rfl
@[simp] theorem modChan_pendCmd (s : State) (k : Chan) (f : Ctx → Ctx) : (s.modChan k f).pendCmd = s.pendCmd := rfl
@[simp] theorem modChan_pendValid (s : State) (k : Chan) (f : Ctx → Ctx) : (s.modChan k f).pendValid = s.pendValid := rfl
@[simp] theorem modChan_lastResetMask (s : State) (k : Chan) (f : Ctx → Ctx) : (s.modChan k f).lastResetMask = s.lastResetMask := rfl
@[simp] theorem modChan_verifyErr (s : State) (k : Chan) (f : Ctx → Ctx) : (s.modChan k f).verifyErr = s.verifyErr := rfl
@[simp] theorem modChan_now (s : State) (k : Chan) (f : Ctx → Ctx) : (s.modChan k f).now = s.now := rfl
@[simp] theorem modChan_deferArmed (s : State) (k : Chan) (f : Ctx → Ctx) : (s.modChan k f).deferArmed = s.deferArmed := rfl
@[simp] theorem modChan_deferDeadline (s : State) (k : Chan) (f : Ctx → Ctx) : (s.modChan k f).deferDeadline = s.deferDeadline := rfl
@[simp] theorem modChan_wdogDeadline (s : State) (k : Chan) (f : Ctx → Ctx) : (s.modChan k f).wdogDeadline = s.wdogDeadline := rfl
@[simp] theorem modChan_lastFaultTime (s : State) (k : Chan) (f : Ctx → Ctx) : (s.modChan k f).lastFaultTime = s.lastFaultTime := rfl
@[simp] theorem modChan_lastFaultValid (s : State) (k : Chan) (f : Ctx → Ctx) : (s.modChan k f).lastFaultValid = s.lastFaultValid := rfl
@[simp] theorem modChan_lat (s : State) (k : Chan) (f : Ctx → Ctx) : (s.modChan k f).lat = s.lat := rfl
@[simp] theorem modChan_irqActive (s : State) (k : Chan) (f : Ctx → Ctx) : (s.modChan k f).irqActive = s.irqActive := rfl
@[simp] theorem modChan_irqPhase (s : State) (k : Chan) (f : Ctx → Ctx) : (s.modChan k f).irqPhase = s.irqPhase := rfl
@[simp] theorem modChan_cmdTask (s : State) (k : Chan) (f : Ctx → Ctx) : (s.modChan k f).cmdTask = s.cmdTask := rfl
@[simp] theorem modChan_wdogPending (s : State) (k : Chan) (f : Ctx → Ctx) : (s.modChan k f).wdogPending = s.wdogPending := rfl
@[simp] theorem modChan_dev (s : State) (k : Chan) (f : Ctx → Ctx) : (s.modChan k f).dev = s.dev := rfl
@[simp] theorem modChan_mem (s : State) (k : Chan) (f : Ctx → Ctx) : (s.modChan k f).mem = s.mem := rfl
@[simp] theorem modChan_hist (s : State) (k : Chan) (f : Ctx → Ctx) : (s.modChan k f).hist = s.hist := rfl
@[simp] theorem modChan_cmdPort (s : State) (k : Chan) (f : Ctx → Ctx) : (s.modChan k f).cmdPort = s.cmdPort := rfl
@[simp] theorem modChan_evHeld (s : State) (k : Chan) (f : Ctx → Ctx) : (s.modChan k f).evHeld = s.evHeld := rfl
@[simp] theorem modChan_sched (s : State) (k : Chan) (f : Ctx → Ctx) : (s.modChan k f).sched = s.sched := rfl
@[simp] theorem modChan_draws (s : State) (k : Chan) (f : Ctx → Ctx) : (s.modChan k f).draws = s.draws := rfl

@[simp] theorem modChan_ch (s : State) (k : Chan) (f : Ctx → Ctx) :
    (s.modChan k f).ch = s.ch.set k (f (s.ch.get k)) := rfl

/-! ### State.phase -/

@[simp] theorem phase_cfg (s : State) (f : State → IrqPhase) : (s.phase f).cfg = s.cfg := rfl
@[simp] theorem phase_ch (s : State) (f : State → IrqPhase) : (s.phase f).ch = s.ch := rfl
@[simp] theorem phase_videoDMA (s : State) (f : State → IrqPhase) : (s.phase f).videoDMA = s.videoDMA := rfl
@[simp] theorem phase_videoCap (s : State) (f : State → IrqPhase) : (s.phase f).videoCap = s.videoCap := rfl
@[simp] theorem phase_pendEn (s : State) (f : State → IrqPhase) : (s.phase f).pendEn = s.pendEn := rfl
@[simp] theorem phase_pendCmd (s : State) (f : State → IrqPhase) : (s.phase f).pendCmd = s.pendCmd := rfl
@[simp] theorem phase_pendValid (s : State) (f : State → IrqPhase) : (s.phase f).pendValid = s.pendValid := rfl
@[simp] theorem phase_lastResetMask (s : State) (f : State → IrqPhase) : (s.phase f).lastResetMask = s.lastResetMask := rfl
@[simp] theorem phase_verifyErr (s : State) (f : State → IrqPhase) : (s.phase f).verifyErr = s.verifyErr := rfl
@[simp] theorem phase_now (s : State) (f : State → IrqPhase) : (s.phase f).now = s.now := rfl
@[simp] theorem phase_deferArmed (s : State) (f : State → IrqPhase) : (s.phase f).deferArmed = s.deferArmed := rfl
@[simp] theorem phase_deferDeadline (s : State) (f : State → IrqPhase) : (s.phase f).deferDeadline = s.deferDeadline := rfl
@[simp] theorem phase_wdogDeadline (s : State) (f : State → IrqPhase) : (s.phase f).wdogDeadline = s.wdogDeadline := rfl
@[simp] theorem phase_lastFaultTime (s : State) (f : State → IrqPhase) : (s.phase f).lastFaultTime = s.lastFaultTime := rfl
@[simp] theorem phase_lastFaultValid (s : State) (f : State → IrqPhase) : (s.phase f).lastFaultValid = s.lastFaultValid := rfl
@[simp] theorem phase_lat (s : State) (f : State → IrqPhase) : (s.phase f).lat = s.lat := rfl
@[simp] theorem phase_irqActive (s : State) (f : State → IrqPhase) : (s.phase f).irqActive = s.irqActive := rfl
@[simp] theorem phase_cmdTask (s : State) (f : State → IrqPhase) : (s.phase f).cmdTask = s.cmdTask := rfl
@[simp] theorem phase_wdogPending (s : State) (f : State → IrqPhase) : (s.phase f).wdogPending = s.wdogPending := rfl
@[simp] theorem phase_dev (s : State) (f : State → IrqPhase) : (s.phase f).dev = s.dev := rfl
@[simp] theorem phase_mem (s : State) (f : State → IrqPhase) : (s.phase f).mem = s.mem := rfl
@[simp] theorem phase_hist (s : State) (f : State → IrqPhase) : (s.phase f).hist = s.hist := rfl
@[simp] theorem phase_cmdPort (s : State) (f : State → IrqPhase) : (s.phase f).cmdPort = s.cmdPort := rfl
@[simp] theorem phase_evHeld (s : State) (f : State → IrqPhase) : (s.phase f).evHeld = s.evHeld := rfl
@[simp] theorem phase_sched (s : State) (f : State → IrqPhase) : (s.phase f).sched = s.sched := rfl
@[simp] theorem phase_draws (s : State) (f : State → IrqPhase) : (s.phase f).draws = s.draws := rfl

@[simp] theorem phase_irqPhase (s : State) (f : State → IrqPhase) : (s.phase f).irqPhase = f s := rfl

/-! ### requestReset -/

@[simp] theorem requestReset_cfg (k : Chan) (s : State) : (requestReset k s).cfg = s.cfg := rfl
@[simp] theorem requestReset_ch (k : Chan) (s : State) : (requestReset k s).ch = s.ch := rfl
@[simp] theorem requestReset_videoDMA (k : Chan) (s : State) : (requestReset k s).videoDMA = s.videoDMA := rfl
@[simp] theorem requestReset_videoCap (k : Chan) (s : State) : (requestReset k s).videoCap = s.videoCap := rfl
@[simp] theorem requestReset_pendEn (k : Chan) (s : State) : (requestReset k s).pendEn = s.pendEn := rfl
@[simp] theorem requestReset_pendCmd (k : Chan) (s : State) : (requestReset k s).pendCmd = s.pendCmd := rfl
@[simp] theorem requestReset_pendValid (k : Chan) (s : State) : (requestReset k s).pendValid = s.pendValid := rfl
@[simp] theorem requestReset_lastResetMask (k : Chan) (s : State) : (requestReset k s).lastResetMask = s.lastResetMask := rfl
@[simp] theorem requestReset_verifyErr (k : Chan) (s : State) : (requestReset k s).verifyErr = s.verifyErr := rfl
@[simp] theorem requestReset_now (k : Chan) (s : State) : (requestReset k s).now = s.now := rfl
@[simp] theorem requestReset_deferArmed (k : Chan) (s : State) : (requestReset k s).deferArmed = s.deferArmed := rfl
@[simp] theorem requestReset_deferDeadline (k : Chan) (s : State) : (requestReset k s).deferDeadline = s.deferDeadline := rfl
@[simp] theorem requestReset_wdogDeadline (k : Chan) (s : State) : (requestReset k s).wdogDeadline = s.wdogDeadline := rfl
@[simp] theorem requestReset_lastFaultTime (k : Chan) (s : State) : (requestReset k s).lastFaultTime = s.lastFaultTime := rfl
@[simp] theorem requestReset_lastFaultValid (k : Chan) (s : State) : (requestReset k s).lastFaultValid = s.lastFaultValid := rfl
@[simp] theorem requestReset_irqActive (k : Chan) (s : State) : (requestReset k s).irqActive = s.irqActive := rfl
@[simp] theorem requestReset_irqPhase (k : Chan) (s : State) : (requestReset k s).irqPhase = s.irqPhase := rfl
@[simp] theorem requestReset_cmdTask (k : Chan) (s : State) : (requestReset k s).cmdTask = s.cmdTask := rfl
@[simp] theorem requestReset_wdogPending (k : Chan) (s : State) : (requestReset k s).wdogPending = s.wdogPending := rfl
@[simp] theorem requestReset_dev (k : Chan) (s : State) : (requestReset k s).dev = s.dev := rfl
@[simp] theorem requestReset_mem (k : Chan) (s : State) : (requestReset k s).mem = s.mem := rfl
@[simp] theorem requestReset_hist (k : Chan) (s : State) : (requestReset k s).hist = s.hist := rfl
@[simp] theorem requestReset_cmdPort (k : Chan) (s : State) : (requestReset k s).cmdPort = s.cmdPort := rfl
@[simp] theorem requestReset_evHeld (k : Chan) (s : State) : (requestReset k s).evHeld = s.evHeld := rfl
@[simp] theorem requestReset_sched (k : Chan) (s : State) : (requestReset k s).sched = s.sched := rfl
@[simp] theorem requestReset_draws (k : Chan) (s : State) : (requestReset k s).draws = s.draws := rfl

@[simp] theorem requestReset_rst (k : Chan) (s : State) :
    (requestReset k s).lat.rst = s.lat.rst ||| maskBit k := rfl

/-! ### raiseTimeout -/

@[simp] theorem raiseTimeout_cfg (s : State) : (raiseTimeout s).cfg = s.cfg := rfl
@[simp] theorem raiseTimeout_videoDMA (s : State) : (raiseTimeout s).videoDMA = s.videoDMA := rfl
@[simp] theorem raiseTimeout_videoCap (s : State) : (raiseTimeout s).videoCap = s.videoCap := rfl
@[simp] theorem raiseTimeout_pendEn (s : State) : (raiseTimeout s).pendEn = s.pendEn := rfl
@[simp] theorem raiseTimeout_pendCmd (s : State) : (raiseTimeout s).pendCmd = s.pendCmd := rfl
@[simp] theorem raiseTimeout_pendValid (s : State) : (raiseTimeout s).pendValid = s.pendValid := rfl
@[simp] theorem raiseTimeout_lastResetMask (s : State) : (raiseTimeout s).lastResetMask = s.lastResetMask := rfl
@[simp] theorem raiseTimeout_verifyErr (s : State) : (raiseTimeout s).verifyErr = s.verifyErr := rfl
@[simp] theorem raiseTimeout_now (s : State) : (raiseTimeout s).now = s.now := rfl
@[simp] theorem raiseTimeout_deferArmed (s : State) : (raiseTimeout s).deferArmed = s.deferArmed := rfl
@[simp] theorem raiseTimeout_deferDeadline (s : State) : (raiseTimeout s).deferDeadline = s.deferDeadline := rfl
@[simp] theorem raiseTimeout_wdogDeadline (s : State) : (raiseTimeout s).wdogDeadline = s.wdogDeadline := rfl
@[simp] theorem raiseTimeout_lastFaultTime (s : State) : (raiseTimeout s).lastFaultTime = s.lastFaultTime := rfl
@[simp] theorem raiseTimeout_lastFaultValid (s : State) : (raiseTimeout s).lastFaultValid = s.lastFaultValid := rfl
@[simp] theorem raiseTimeout_irqActive (s : State) : (raiseTimeout s).irqActive = s.irqActive := rfl
@[simp] theorem raiseTimeout_irqPhase (s : State) : (raiseTimeout s).irqPhase = s.irqPhase := rfl
@[simp] theorem raiseTimeout_cmdTask (s : State) : (raiseTimeout s).cmdTask = s.cmdTask := rfl
@[simp] theorem raiseTimeout_wdogPending (s : State) : (raiseTimeout s).wdogPending = s.wdogPending := rfl
@[simp] theorem raiseTimeout_dev (s : State) : (raiseTimeout s).dev = s.dev := rfl
@[simp] theorem raiseTimeout_mem (s : State) : (raiseTimeout s).mem = s.mem := rfl
@[simp] theorem raiseTimeout_hist (s : State) : (raiseTimeout s).hist = s.hist := rfl
@[simp] theorem raiseTimeout_cmdPort (s : State) : (raiseTimeout s).cmdPort = s.cmdPort := rfl
@[simp] theorem raiseTimeout_evHeld (s : State) : (raiseTimeout s).evHeld = s.evHeld := rfl
@[simp] theorem raiseTimeout_sched (s : State) : (raiseTimeout s).sched = s.sched := rfl
@[simp] theorem raiseTimeout_draws (s : State) : (raiseTimeout s).draws = s.draws := rfl

/-! ### irqEnter -/

@[simp] theorem irqEnter_cfg (s : State) : (irqEnter s).cfg = s.cfg := rfl
@[simp] theorem irqEnter_ch (s : State) : (irqEnter s).ch = s.ch := rfl
@[simp] theorem irqEnter_videoDMA (s : State) : (irqEnter s).videoDMA = s.videoDMA := rfl
@[simp] theorem irqEnter_videoCap (s : State) : (irqEnter s).videoCap = s.videoCap := rfl
@[simp] theorem irqEnter_pendEn (s : State) : (irqEnter s).pendEn = s.pendEn := rfl
@[simp] theorem irqEnter_pendCmd (s : State) : (irqEnter s).pendCmd = s.pendCmd := rfl
@[simp] theorem irqEnter_pendValid (s : State) : (irqEnter s).pendValid = s.pendValid := rfl
@[simp] theorem irqEnter_lastResetMask (s : State) : (irqEnter s).lastResetMask = s.lastResetMask := rfl
@[simp] theorem irqEnter_verifyErr (s : State) : (irqEnter s).verifyErr = s.verifyErr := rfl
@[simp] theorem irqEnter_now (s : State) : (irqEnter s).now = s.now := rfl
@[simp] theorem irqEnter_deferArmed (s : State) : (irqEnter s).deferArmed = s.deferArmed := rfl
@[simp] theorem irqEnter_deferDeadline (s : State) : (irqEnter s).deferDeadline = s.deferDeadline := rfl
@[simp] theorem irqEnter_wdogDeadline (s : State) : (irqEnter s).wdogDeadline = s.wdogDeadline := rfl
@[simp] theorem irqEnter_lastFaultTime (s : State) : (irqEnter s).lastFaultTime = s.lastFaultTime := rfl
@[simp] theorem irqEnter_lastFaultValid (s : State) : (irqEnter s).lastFaultValid = s.lastFaultValid := rfl
@[simp] theorem irqEnter_irqPhase (s : State) : (irqEnter s).irqPhase = s.irqPhase := rfl
@[simp] theorem irqEnter_cmdTask (s : State) : (irqEnter s).cmdTask = s.cmdTask := rfl
@[simp] theorem irqEnter_wdogPending (s : State) : (irqEnter s).wdogPending = s.wdogPending := rfl
@[simp] theorem irqEnter_dev (s : State) : (irqEnter s).dev = s.dev := rfl
@[simp] theorem irqEnter_mem (s : State) : (irqEnter s).mem = s.mem := rfl
@[simp] theorem irqEnter_hist (s : State) : (irqEnter s).hist = s.hist := rfl
@[simp] theorem irqEnter_cmdPort (s : State) : (irqEnter s).cmdPort = s.cmdPort := rfl
@[simp] theorem irqEnter_evHeld (s : State) : (irqEnter s).evHeld = s.evHeld := rfl
@[simp] theorem irqEnter_sched (s : State) : (irqEnter s).sched = s.sched := rfl
@[simp] theorem irqEnter_draws (s : State) : (irqEnter s).draws = s.draws := rfl

/-! ### irqLeave -/

@[simp] theorem irqLeave_cfg (s : State) : (irqLeave s).cfg = s.cfg := rfl
@[simp] theorem irqLeave_ch (s : State) : (irqLeave s).ch = s.ch := rfl
@[simp] theorem irqLeave_videoDMA (s : State) : (irqLeave s).videoDMA = s.videoDMA := rfl
@[simp] theorem irqLeave_videoCap (s : State) : (irqLeave s).videoCap = s.videoCap := rfl
@[simp] theorem irqLeave_pendEn (s : State) : (irqLeave s).pendEn = s.pendEn := rfl
@[simp] theorem irqLeave_pendCmd (s : State) : (irqLeave s).pendCmd = s.pendCmd := rfl
@[simp] theorem irqLeave_pendValid (s : State) : (irqLeave s).pendValid = s.pendValid := rfl
@[simp] theorem irqLeave_lastResetMask (s : State) : (irqLeave s).lastResetMask = s.lastResetMask := rfl
@[simp] theorem irqLeave_verifyErr (s : State) : (irqLeave s).verifyErr = s.verifyErr := rfl
@[simp] theorem irqLeave_now (s : State) : (irqLeave s).now = s.now := rfl
@[simp] theorem irqLeave_deferArmed (s : State) : (irqLeave s).deferArmed = s.deferArmed := rfl
@[simp] theorem irqLeave_deferDeadline (s : State) : (irqLeave s).deferDeadline = s.deferDeadline := rfl
@[simp] theorem irqLeave_wdogDeadline (s : State) : (irqLeave s).wdogDeadline = s.wdogDeadline := rfl
@[simp] theorem irqLeave_lastFaultTime (s : State) : (irqLeave s).lastFaultTime = s.lastFaultTime := rfl
@[simp] theorem irqLeave_lastFaultValid (s : State) : (irqLeave s).lastFaultValid = s.lastFaultValid := rfl
@[simp] theorem irqLeave_lat (s : State) : (irqLeave s).lat = s.lat := rfl
@[simp] theorem irqLeave_irqPhase (s : State) : (irqLeave s).irqPhase = s.irqPhase := rfl
@[simp] theorem irqLeave_cmdTask (s : State) : (irqLeave s).cmdTask = s.cmdTask := rfl
@[simp] theorem irqLeave_wdogPending (s : State) : (irqLeave s).wdogPending = s.wdogPending := rfl
@[simp] theorem irqLeave_dev (s : State) : (irqLeave s).dev = s.dev := rfl
@[simp] theorem irqLeave_mem (s : State) : (irqLeave s).mem = s.mem := rfl
@[simp] theorem irqLeave_hist (s : State) : (irqLeave s).hist = s.hist := rfl
@[simp] theorem irqLeave_cmdPort (s : State) : (irqLeave s).cmdPort = s.cmdPort := rfl
@[simp] theorem irqLeave_evHeld (s : State) : (irqLeave s).evHeld = s.evHeld := rfl
@[simp] theorem irqLeave_sched (s : State) : (irqLeave s).sched = s.sched := rfl
@[simp] theorem irqLeave_draws (s : State) : (irqLeave s).draws = s.draws := rfl

@[simp] theorem irqEnter_irqActive (s : State) : (irqEnter s).irqActive = true := rfl

@[simp] theorem irqEnter_rst (s : State) : (irqEnter s).lat.rst = 0 := rfl

@[simp] theorem irqLeave_irqActive (s : State) : (irqLeave s).irqActive = false := rfl

/-! ### regRead -/

@[simp] theorem regRead_cfg (n : RegName) (s : State) : (regRead n s).cfg = s.cfg := rfl
@[simp] theorem regRead_ch (n : RegName) (s : State) : (regRead n s).ch = s.ch := rfl
@[simp] theorem regRead_videoDMA (n : RegName) (s : State) : (regRead n s).videoDMA = s.videoDMA := rfl
@[simp] theorem regRead_videoCap (n : RegName) (s : State) : (regRead n s).videoCap = s.videoCap := rfl
@[simp] theorem regRead_pendEn (n : RegName) (s : State) : (regRead n s).pendEn = s.pendEn := rfl
@[simp] theorem regRead_pendCmd (n : RegName) (s : State) : (regRead n s).pendCmd = s.pendCmd := rfl
@[simp] theorem regRead_pendValid (n : RegName) (s : State) : (regRead n s).pendValid = s.pendValid := rfl
@[simp] theorem regRead_lastResetMask (n : RegName) (s : State) : (regRead n s).lastResetMask = s.lastResetMask := rfl
@[simp] theorem regRead_verifyErr (n : RegName) (s : State) : (regRead n s).verifyErr = s.verifyErr := rfl
@[simp] theorem regRead_now (n : RegName) (s : State) : (regRead n s).now = s.now := rfl
@[simp] theorem regRead_deferArmed (n : RegName) (s : State) : (regRead n s).deferArmed = s.deferArmed := rfl
@[simp] theorem regRead_deferDeadline (n : RegName) (s : State) : (regRead n s).deferDeadline = s.deferDeadline := rfl
@[simp] theorem regRead_wdogDeadline (n : RegName) (s : State) : (regRead n s).wdogDeadline = s.wdogDeadline := rfl
@[simp] theorem regRead_lastFaultTime (n : RegName) (s : State) : (regRead n s).lastFaultTime = s.lastFaultTime := rfl
@[simp] theorem regRead_lastFaultValid (n : RegName) (s : State) : (regRead n s).lastFaultValid = s.lastFaultValid := rfl
@[simp] theorem regRead_lat (n : RegName) (s : State) : (regRead n s).lat = s.lat := rfl
@[simp] theorem regRead_irqActive (n : RegName) (s : State) : (regRead n s).irqActive = s.irqActive := rfl
@[simp] theorem regRead_irqPhase (n : RegName) (s : State) : (regRead n s).irqPhase = s.irqPhase := rfl
@[simp] theorem regRead_cmdTask (n : RegName) (s : State) : (regRead n s).cmdTask = s.cmdTask := rfl
@[simp] theorem regRead_wdogPending (n : RegName) (s : State) : (regRead n s).wdogPending = s.wdogPending := rfl
@[simp] theorem regRead_dev (n : RegName) (s : State) : (regRead n s).dev = s.dev := rfl
@[simp] theorem regRead_mem (n : RegName) (s : State) : (regRead n s).mem = s.mem := rfl
@[simp] theorem regRead_cmdPort (n : RegName) (s : State) : (regRead n s).cmdPort = s.cmdPort := rfl
@[simp] theorem regRead_evHeld (n : RegName) (s : State) : (regRead n s).evHeld = s.evHeld := rfl
@[simp] theorem regRead_sched (n : RegName) (s : State) : (regRead n s).sched = s.sched := rfl
@[simp] theorem regRead_draws (n : RegName) (s : State) : (regRead n s).draws = s.draws := rfl

@[simp] theorem regRead_hist (n : RegName) (s : State) :
    (regRead n s).hist = s.hist ++ [.regRead (regOffset s.cfg.regMap n) (regValue s.dev n)] := rfl

/-! ### regWrite -/

@[simp] theorem regWrite_cfg (n : RegName) (v : Word) (s : State) : (regWrite n v s).cfg = s.cfg := rfl
@[simp] theorem regWrite_ch (n : RegName) (v : Word) (s : State) : (regWrite n v s).ch = s.ch := rfl
@[simp] theorem regWrite_videoDMA (n : RegName) (v : Word) (s : State) : (regWrite n v s).videoDMA = s.videoDMA := rfl
@[simp] theorem regWrite_videoCap (n : RegName) (v : Word) (s : State) : (regWrite n v s).videoCap = s.videoCap := rfl
@[simp] theorem regWrite_pendEn (n : RegName) (v : Word) (s : State) : (regWrite n v s).pendEn = s.pendEn := rfl
@[simp] theorem regWrite_pendCmd (n : RegName) (v : Word) (s : State) : (regWrite n v s).pendCmd = s.pendCmd := rfl
@[simp] theorem regWrite_pendValid (n : RegName) (v : Word) (s : State) : (regWrite n v s).pendValid = s.pendValid := rfl
@[simp] theorem regWrite_lastResetMask (n : RegName) (v : Word) (s : State) : (regWrite n v s).lastResetMask = s.lastResetMask := rfl
@[simp] theorem regWrite_verifyErr (n : RegName) (v : Word) (s : State) : (regWrite n v s).verifyErr = s.verifyErr := rfl
@[simp] theorem regWrite_now (n : RegName) (v : Word) (s : State) : (regWrite n v s).now = s.now := rfl
@[simp] theorem regWrite_deferArmed (n : RegName) (v : Word) (s : State) : (regWrite n v s).deferArmed = s.deferArmed := rfl
@[simp] theorem regWrite_deferDeadline (n : RegName) (v : Word) (s : State) : (regWrite n v s).deferDeadline = s.deferDeadline := rfl
@[simp] theorem regWrite_wdogDeadline (n : RegName) (v : Word) (s : State) : (regWrite n v s).wdogDeadline = s.wdogDeadline := rfl
@[simp] theorem regWrite_lastFaultTime (n : RegName) (v : Word) (s : State) : (regWrite n v s).lastFaultTime = s.lastFaultTime := rfl
@[simp] theorem regWrite_lastFaultValid (n : RegName) (v : Word) (s : State) : (regWrite n v s).lastFaultValid = s.lastFaultValid := rfl
@[simp] theorem regWrite_lat (n : RegName) (v : Word) (s : State) : (regWrite n v s).lat = s.lat := rfl
@[simp] theorem regWrite_irqActive (n : RegName) (v : Word) (s : State) : (regWrite n v s).irqActive = s.irqActive := rfl
@[simp] theorem regWrite_irqPhase (n : RegName) (v : Word) (s : State) : (regWrite n v s).irqPhase = s.irqPhase := rfl
@[simp] theorem regWrite_cmdTask (n : RegName) (v : Word) (s : State) : (regWrite n v s).cmdTask = s.cmdTask := rfl
@[simp] theorem regWrite_wdogPending (n : RegName) (v : Word) (s : State) : (regWrite n v s).wdogPending = s.wdogPending := rfl
@[simp] theorem regWrite_mem (n : RegName) (v : Word) (s : State) : (regWrite n v s).mem = s.mem := rfl
@[simp] theorem regWrite_cmdPort (n : RegName) (v : Word) (s : State) : (regWrite n v s).cmdPort = s.cmdPort := rfl
@[simp] theorem regWrite_evHeld (n : RegName) (v : Word) (s : State) : (regWrite n v s).evHeld = s.evHeld := rfl
@[simp] theorem regWrite_sched (n : RegName) (v : Word) (s : State) : (regWrite n v s).sched = s.sched := rfl
@[simp] theorem regWrite_draws (n : RegName) (v : Word) (s : State) : (regWrite n v s).draws = s.draws := rfl

@[simp] theorem regWrite_dev (n : RegName) (v : Word) (s : State) : (regWrite n v s).dev = regStore s.dev n v := rfl

@[simp] theorem regWrite_hist (n : RegName) (v : Word) (s : State) :
    (regWrite n v s).hist = s.hist ++ [.regWrite (regOffset s.cfg.regMap n) v] := rfl

/-! ### Outcomes -/

@[simp] theorem andThen_next (s : State) (f : State → Res) : andThen (.next s) f = f s := rfl

@[simp] theorem andThen_fault (e : Fault) (f : State → Res) : andThen (.fault e) f = .fault e := rfl

@[simp] theorem andThen_refused (e : Refusal) (f : State → Res) : andThen (.refused e) f = .refused e := rfl

/-- A sequence answers a next state exactly when both parts do. -/
theorem andThen_eq_next {r : Res} {f : State → Res} {u : State} :
    andThen r f = .next u ↔ ∃ t, r = .next t ∧ f t = .next u := by
  cases r <;> simp

end Sys2Proof.Machine
end

