-- ==== Sys2Proof/Laws/Bank.lean ====
section
/-! SUPPORT. Reading and writing the eight places of a bank, and the context file through them. -/

namespace Sys2Proof.Machine

@[simp] theorem Bank.get_set_same {α : Type} (b : Bank α) (k : Chan) (v : α) : (b.set k v).get k = v := by
  fin_cases k <;> rfl

theorem Bank.get_set_ne {α : Type} (b : Bank α) {j k : Chan} (v : α) (h : j ≠ k) : (b.set k v).get j = b.get j := by
  fin_cases j <;> fin_cases k <;> first | rfl | exact absurd rfl h

theorem Bank.get_set {α : Type} (b : Bank α) (j k : Chan) (v : α) :
    (b.set k v).get j = if j = k then v else b.get j := by
  by_cases h : j = k
  · subst h; simp
  · simp [h, Bank.get_set_ne]

@[simp] theorem Bank.set_set {α : Type} (b : Bank α) (k : Chan) (v w : α) : (b.set k v).set k w = b.set k w := by
  fin_cases k <;> rfl

@[simp] theorem Bank.set_get {α : Type} (b : Bank α) (k : Chan) : b.set k (b.get k) = b := by
  fin_cases k <;> rfl

@[simp] theorem Bank.get_tabulate {α : Type} (f : Chan → α) (k : Chan) : (Bank.tabulate f).get k = f k := by
  fin_cases k <;> rfl

@[simp] theorem Bank.get_fill {α : Type} (v : α) (k : Chan) : (Bank.fill v).get k = v := by simp [Bank.fill]

/-- Two banks with the same places are equal. -/
theorem Bank.ext_get {α : Type} {a b : Bank α} (h : ∀ k, a.get k = b.get k) : a = b := by
  cases a; cases b
  have h0 := h 0; have h1 := h 1; have h2 := h 2; have h3 := h 3
  have h4 := h 4; have h5 := h 5; have h6 := h 6; have h7 := h 7
  simp [Bank.get] at h0 h1 h2 h3 h4 h5 h6 h7
  simp [*]

@[simp] theorem BySlot.get_set_same {α : Type} (a : BySlot α) (f : FieldNo) (s : Slot) (v : α) :
    (a.set f s v).get f s = v := by cases f <;> cases s <;> rfl

/-- Writing one field and slot leaves the other three. -/
theorem BySlot.get_set_ne {α : Type} (a : BySlot α) {f g : FieldNo} {s r : Slot} (v : α) (h : (g, r) ≠ (f, s)) :
    (a.set f s v).get g r = a.get g r := by
  cases f <;> cases g <;> cases s <;> cases r <;> first | rfl | exact absurd rfl h

@[simp] theorem chan_modChan_same (s : State) (k : Chan) (f : Ctx → Ctx) : (s.modChan k f).chan k = f (s.chan k) := by
  simp [State.chan]

theorem chan_modChan_ne (s : State) {j k : Chan} (f : Ctx → Ctx) (h : j ≠ k) : (s.modChan k f).chan j = s.chan j := by
  simp [State.chan, Bank.get_set_ne _ _ h]

theorem chan_modChan (s : State) (j k : Chan) (f : Ctx → Ctx) :
    (s.modChan k f).chan j = if j = k then f (s.chan k) else s.chan j := by
  by_cases h : j = k
  · subst h; simp
  · simp [h, chan_modChan_ne]

@[simp] theorem chan_raiseTimeout (s : State) (k : Chan) :
    (raiseTimeout s).chan k = { s.chan k with timeoutCnt := (s.chan k).timeoutCnt + 1 } := by
  simp [raiseTimeout, State.chan]

end Sys2Proof.Machine
end

