-- ==== Sys2Proof/Laws/Memory.lean ====
section
/-! SUPPORT. Read after write, and that every memory operation keeps the canonical form. -/

namespace Sys2Proof.Machine

@[simp] theorem Memory.read_nil (a : Nat) : Memory.read [] a = Memory.unlisted := rfl

/-- A byte below every listed address reads as unlisted. -/
theorem Memory.read_below {m : Mem} {lo a : Nat} (h : Memory.wfFrom lo m) (ha : a < lo) :
    Memory.read m a = Memory.unlisted := by
  induction m generalizing lo with
  | nil => rfl
  | cons e m ih =>
    obtain ⟨b, v⟩ := e
    simp only [Memory.wfFrom, Bool.and_eq_true, decide_eq_true_eq] at h
    simp only [Memory.read, if_neg (show a ≠ b by omega)]
    exact ih h.2 (by omega)

/-- A write leaves every other byte alone. -/
theorem Memory.read_write_ne (m : Mem) {a b : Nat} (x : Byte) (h : b ≠ a) :
    Memory.read (Memory.write m a x) b = Memory.read m b := by
  induction m with
  | nil => simp only [Memory.write]; split <;> simp [Memory.read, h]
  | cons e m ih =>
    obtain ⟨c, v⟩ := e
    simp only [Memory.write]
    split
    · split <;> simp [Memory.read, h]
    · split
      · next hac => subst hac; split <;> simp [Memory.read, h]
      · simp [Memory.read, ih]

/-- A canonical memory reads back the byte written. -/
theorem Memory.read_write_same {m : Mem} {lo : Nat} (hm : Memory.wfFrom lo m) (a : Nat) (x : Byte) :
    Memory.read (Memory.write m a x) a = x := by
  induction m generalizing lo with
  | nil => simp only [Memory.write]; split <;> simp_all [Memory.read]
  | cons e m ih =>
    obtain ⟨c, v⟩ := e
    simp only [Memory.wfFrom, Bool.and_eq_true, decide_eq_true_eq] at hm
    obtain ⟨_, hm⟩ := hm
    simp only [Memory.write]
    split
    · next hac =>
      split
      · next hx => simp [Memory.read, show a ≠ c by omega, Memory.read_below hm (show a < c + 1 by omega), hx]
      · simp [Memory.read]
    · split
      · next hac =>
        subst hac
        split
        · next hx => rw [Memory.read_below hm (by omega), hx]
        · simp [Memory.read]
      · next hac => simp [Memory.read, hac, ih hm]

/-- A lower bound of a canonical memory may be lowered. -/
theorem Memory.wfFrom_mono {m : Mem} {lo lo' : Nat} (h : Memory.wfFrom lo m) (hl : lo' ≤ lo) : Memory.wfFrom lo' m := by
  cases m with
  | nil => rfl
  | cons e m =>
    obtain ⟨b, v⟩ := e
    simp only [Memory.wfFrom, Bool.and_eq_true, decide_eq_true_eq] at h ⊢
    exact ⟨⟨⟨by omega, h.1.1.2⟩, h.1.2⟩, h.2⟩

/-- A write inside the address space keeps the canonical form. -/
theorem Memory.wfFrom_write {m : Mem} {lo a : Nat} (x : Byte) (h : Memory.wfFrom lo m) (hlo : lo ≤ a)
    (ha : a < Memory.size) : Memory.wfFrom lo (Memory.write m a x) := by
  induction m generalizing lo with
  | nil =>
    simp only [Memory.write]
    split
    · rfl
    · next hx => simp [Memory.wfFrom, hlo, ha, hx]
  | cons e m ih =>
    obtain ⟨c, v⟩ := e
    simp only [Memory.wfFrom, Bool.and_eq_true, decide_eq_true_eq] at h
    obtain ⟨⟨⟨hc, hcs⟩, hv⟩, hm⟩ := h
    simp only [Memory.write]
    split
    · split
      · simp [Memory.wfFrom, hc, hcs, hm]; simpa using hv
      · next hx =>
        simp only [Memory.wfFrom, Bool.and_eq_true, decide_eq_true_eq]
        exact ⟨⟨⟨hlo, ha⟩, by simpa using hx⟩, ⟨⟨by omega, hcs⟩, hv⟩, hm⟩
    · split
      · next hac =>
        subst hac
        split
        · exact Memory.wfFrom_mono hm (by omega)
        · next hx =>
          simp only [Memory.wfFrom, Bool.and_eq_true, decide_eq_true_eq]
          exact ⟨⟨⟨hlo, ha⟩, by simpa using hx⟩, hm⟩
      · simp only [Memory.wfFrom, Bool.and_eq_true, decide_eq_true_eq]
        exact ⟨⟨⟨hc, hcs⟩, hv⟩, ih hm (by omega)⟩

/-- A byte outside the bytes written reads as before. -/
theorem Memory.read_writeBytes_out (m : Mem) (a : Nat) (bs : List Byte) {b : Nat} (h : b < a ∨ a + bs.length ≤ b) :
    Memory.read (Memory.writeBytes m a bs) b = Memory.read m b := by
  induction bs generalizing m a with
  | nil => rfl
  | cons x xs ih =>
    simp only [List.length_cons] at h
    rw [Memory.writeBytes, ih _ _ (by omega), Memory.read_write_ne _ _ (by omega)]

/-- Writing bytes inside the address space keeps the canonical form. -/
theorem Memory.wf_writeBytes {m : Mem} (a : Nat) (bs : List Byte) (h : Memory.wf m)
    (ha : a + bs.length ≤ Memory.size) : Memory.wf (Memory.writeBytes m a bs) := by
  induction bs generalizing m a with
  | nil => exact h
  | cons x xs ih =>
    simp only [List.length_cons] at ha
    exact ih (a + 1) (Memory.wfFrom_write x h (Nat.zero_le _) (by omega)) (by omega)

/-- A canonical memory reads back the bytes written. -/
theorem Memory.read_writeBytes_in {m : Mem} (a : Nat) (bs : List Byte) (h : Memory.wf m)
    (ha : a + bs.length ≤ Memory.size) (i : Nat) (hi : i < bs.length) :
    Memory.read (Memory.writeBytes m a bs) (a + i) = bs[i] := by
  induction bs generalizing m a i with
  | nil => simp at hi
  | cons x xs ih =>
    simp only [List.length_cons] at ha hi
    have hw := Memory.wfFrom_write x h (Nat.zero_le a) (show a < Memory.size by omega)
    cases i with
    | zero =>
      rw [Memory.writeBytes, Memory.read_writeBytes_out _ _ _ (by omega)]
      exact Memory.read_write_same h a x
    | succ i =>
      rw [Memory.writeBytes, show a + (i + 1) = a + 1 + i by omega, ih (a + 1) hw (by omega) i (by omega)]
      rfl

@[simp] theorem Memory.length_readBytes (m : Mem) (a n : Nat) : (Memory.readBytes m a n).length = n := by
  induction n generalizing a with
  | zero => rfl
  | succ n ih => simp [Memory.readBytes, ih]

/-- `MemRead` gives the bytes lowest address first. -/
theorem Memory.getElem_readBytes (m : Mem) (a n i : Nat) (h : i < (Memory.readBytes m a n).length) :
    (Memory.readBytes m a n)[i] = Memory.read m (a + i) := by
  induction n generalizing a i with
  | zero => simp at h
  | succ n ih =>
    cases i with
    | zero => rfl
    | succ i =>
      simp only [Memory.readBytes, List.getElem_cons_succ]
      rw [ih, show a + 1 + i = a + (i + 1) by omega]

end Sys2Proof.Machine
end

