-- ==== Sys2Proof/Laws/Ops.lean ====
section
/-! SUPPORT. One lemma per shared operation: all it does to the state. -/

namespace Sys2Proof.Machine

/-! ### Register sequences (40_dma_channel_control.md R120 to R131) -/

/-- `WriteVerify`: the store, the write and the read-back in the history, the sticky flag (R120). -/
theorem writeVerify_eq (n : RegName) (v : Word) (s : State) :
    writeVerify n v s =
      { s with
        dev := regStore s.dev n v
        verifyErr := s.verifyErr || regValue (regStore s.dev n v) n != v
        hist := s.hist ++
          [.regWrite (regOffset s.cfg.regMap n) v,
            .regRead (regOffset s.cfg.regMap n) (regValue (regStore s.dev n v) n)] } := by
  simp [writeVerify, regRead, regWrite, State.emit]

/-- What a faithful DMA_EN or DMA_CMD stores (20_memory.md R61). -/
theorem storedWord_faithful {d : Device} (h : d.glitch = []) (v : Word) : storedWord d v = v := by
  simp [storedWord, h]

/-- `WriteVerify` of DMA_EN with the shadow rule R121. -/
theorem setEnable_eq (e : Word) (s : State) :
    setEnable e s =
      { s with
        videoDMA := videoBits e
        dev := { s.dev with dmaEn := storedWord s.dev e, glitch := s.dev.glitch.tail }
        verifyErr := s.verifyErr || storedWord s.dev e != e
        hist := s.hist ++
          [.regWrite s.cfg.regMap.dmaEn e, .regRead s.cfg.regMap.dmaEn (storedWord s.dev e)] } := by
  simp [setEnable, writeVerify_eq, regStore, regValue, regOffset]

/-- `setEnable` on faithful registers. -/
theorem setEnable_faithful (e : Word) (s : State) (h : s.dev.glitch = []) :
    setEnable e s =
      { s with
        videoDMA := videoBits e
        dev := { s.dev with dmaEn := e }
        hist := s.hist ++ [.regWrite s.cfg.regMap.dmaEn e, .regRead s.cfg.regMap.dmaEn e] } := by
  rw [setEnable_eq, storedWord_faithful h]
  simp [h]

/-- A verified write of a faithful DMA_CMD. -/
theorem writeCmd_faithful (c : Word) (s : State) (h : s.dev.glitch = []) :
    writeVerify .dmaCmd c s =
      { s with
        dev := { s.dev with dmaCmd := c }
        hist := s.hist ++ [.regWrite s.cfg.regMap.dmaCmd c, .regRead s.cfg.regMap.dmaCmd c] } := by
  simp [writeVerify_eq, regStore, regValue, regOffset, storedWord_faithful h, h]

/-- The enable sequence on faithful registers (R123): five transfers. -/
theorem enableBits_faithful (bits : Word) (s : State) (h : s.dev.glitch = []) :
    enableBits bits s =
      { s with
        videoDMA := videoBits (s.dev.dmaEn ||| bits)
        dev := { s.dev with dmaEn := s.dev.dmaEn ||| bits, dmaCmd := cmdWord s.cfg (s.dev.dmaEn ||| bits) }
        hist := s.hist ++
          [.regRead s.cfg.regMap.dmaEn s.dev.dmaEn,
            .regWrite s.cfg.regMap.dmaEn (s.dev.dmaEn ||| bits),
            .regRead s.cfg.regMap.dmaEn (s.dev.dmaEn ||| bits),
            .regWrite s.cfg.regMap.dmaCmd (cmdWord s.cfg (s.dev.dmaEn ||| bits)),
            .regRead s.cfg.regMap.dmaCmd (cmdWord s.cfg (s.dev.dmaEn ||| bits))] } := by
  rw [enableBits, setEnable_faithful _ _ (by simpa using h), writeCmd_faithful _ _ (by simpa using h)]
  simp [regRead, State.emit, regOffset, regValue]

/-- The halt on faithful registers (R124, R131). -/
theorem haltIfEmpty_faithful (e : Word) (s : State) (h : s.dev.glitch = []) :
    haltIfEmpty e s =
      if noChannels e then
        { s with
          dev := { s.dev with dmaCmd := 0 }
          hist := s.hist ++ [.regWrite s.cfg.regMap.dmaCmd 0, .regRead s.cfg.regMap.dmaCmd 0] }
      else s := by
  simp only [haltIfEmpty, writeCmd_faithful _ _ h]

/-- The registers a sequence over DMA_EN and DMA_CMD may leave changed, and nothing else. -/
def OnlyDmaRegs (s t : State) : Prop :=
  t = { s with
    videoDMA := t.videoDMA
    verifyErr := t.verifyErr
    hist := t.hist
    dev := { s.dev with dmaEn := t.dev.dmaEn, dmaCmd := t.dev.dmaCmd, glitch := t.dev.glitch } }

theorem onlyDmaRegs_refl (s : State) : OnlyDmaRegs s s := rfl

theorem onlyDmaRegs_trans {s t u : State} (h : OnlyDmaRegs s t) (g : OnlyDmaRegs t u) : OnlyDmaRegs s u := by
  unfold OnlyDmaRegs at *
  rw [g, h]

theorem regRead_onlyDma (n : RegName) (s : State) : OnlyDmaRegs s (regRead n s) := rfl

theorem setEnable_onlyDma (e : Word) (s : State) : OnlyDmaRegs s (setEnable e s) := by
  rw [setEnable_eq]; rfl

theorem writeCmd_onlyDma (c : Word) (s : State) : OnlyDmaRegs s (writeVerify .dmaCmd c s) := by
  rw [writeVerify_eq]; rfl

theorem haltIfEmpty_onlyDma (e : Word) (s : State) : OnlyDmaRegs s (haltIfEmpty e s) := by
  unfold haltIfEmpty
  split
  · exact writeCmd_onlyDma 0 s
  · exact onlyDmaRegs_refl s

/-- The enable sequence changes nothing but the two registers, the shadow, the verify flag and the history. -/
theorem enableBits_onlyDma (bits : Word) (s : State) : OnlyDmaRegs s (enableBits bits s) :=
  onlyDmaRegs_trans (onlyDmaRegs_trans (regRead_onlyDma .dmaEn s) (setEnable_onlyDma _ _)) (writeCmd_onlyDma _ _)

/-- The disable sequence changes nothing but the two registers, the shadow, the verify flag and the history. -/
theorem disableBits_onlyDma (bits : Word) (s : State) : OnlyDmaRegs s (disableBits bits s) :=
  onlyDmaRegs_trans (onlyDmaRegs_trans (regRead_onlyDma .dmaEn s) (setEnable_onlyDma _ _)) (haltIfEmpty_onlyDma _ _)

/-! ### The copy of one line (20_memory.md R65 to R67) -/

/-- What a line's late fill may change: memory inside the line, and the script it is taken from. -/
theorem landFill_frame (addr n : Nat) (s : State) :
    landFill addr n s =
      { s with mem := (landFill addr n s).mem
               dev := { s.dev with lateFill := s.dev.lateFill.tail } } := by
  unfold landFill
  split
  · next h => simp only [h, List.tail_nil]; cases s; rename_i d _ _ _ _ _ _; cases d; simp_all
  · next h => simp [h]
  · next h => simp [h]

theorem landFill_quiet (addr n : Nat) (s : State) (h : s.dev.lateFill = []) : landFill addr n s = s := by
  simp [landFill, h]

/-- Bytes outside the line about to be read are not touched by its late fill. -/
theorem landFill_read_out (addr n : Nat) (s : State) {b : Nat} (h : b < addr ∨ addr + n ≤ b) :
    Memory.read (landFill addr n s).mem b = Memory.read s.mem b := by
  unfold landFill
  split
  · rfl
  · rfl
  · refine Memory.read_writeBytes_out _ _ _ ?_
    simp only [List.length_take]
    omega

/-- A late fill keeps memory canonical. -/
theorem landFill_wf (addr n : Nat) (s : State) (hm : Memory.wf s.mem) (h : addr + n ≤ Memory.size) :
    Memory.wf (landFill addr n s).mem := by
  unfold landFill
  split
  · exact hm
  · exact hm
  · refine Memory.wf_writeBytes _ _ hm ?_
    simp only [List.length_take]
    omega

/-- A line's copy answers a next state exactly when both lines lie in the space, and then this one. -/
theorem copyLine_eq_next {src dst n : Nat} {s t : State} :
    copyLine src dst n s = .next t ↔
      src + n ≤ Memory.size ∧ dst + n ≤ Memory.size ∧
        t = memWrite dst (Memory.readBytes (landFill src n s).mem src n) (landFill src n s) := by
  unfold copyLine
  split
  · next h => simp; omega
  · next h =>
    split
    · next g => simp; omega
    · next g =>
      simp only [Host.Outcome.next.injEq]
      constructor
      · rintro rfl; exact ⟨by omega, by omega, rfl⟩
      · rintro ⟨_, _, rfl⟩; rfl

/-! ### Loops over channels -/

/-- What every body of a loop keeps, the loop keeps. -/
theorem forChans_keeps {P : State → Prop} {m : Mask} {f : Chan → State → Res}
    (hf : ∀ k s t, P s → f k s = .next t → P t) :
    ∀ (ks : List Chan) (s t : State), P s → forChans m f ks s = .next t → P t := by
  intro ks
  induction ks with
  | nil => intro s t hs h; simp only [forChans, Host.Outcome.next.injEq] at h; exact h ▸ hs
  | cons k ks ih =>
    intro s t hs h
    simp only [forChans] at h
    split at h
    · obtain ⟨u, hu, ht⟩ := andThen_eq_next.1 h
      exact ih u t (hf k s u hs hu) ht
    · exact ih s t hs h

/-- A loop whose body always goes on from states that meet an invariant, and keeps it, goes on. -/
theorem forChans_completes {P : State → Prop} {m : Mask} {f : Chan → State → Res}
    (hf : ∀ k s, P s → ∃ t, f k s = .next t ∧ P t) :
    ∀ (ks : List Chan) (s : State), P s → ∃ t, forChans m f ks s = .next t ∧ P t := by
  intro ks
  induction ks with
  | nil => intro s hs; exact ⟨s, rfl, hs⟩
  | cons k ks ih =>
    intro s hs
    simp only [forChans]
    split
    · obtain ⟨t, ht, hp⟩ := hf k s hs
      obtain ⟨u, hu, hq⟩ := ih t hp
      exact ⟨u, by rw [ht]; exact hu, hq⟩
    · exact ih s hs

end Sys2Proof.Machine
end

