-- ==== Sys2Proof/Laws/Commands.lean ====
section
/-! SUPPORT. Channel operands, the disable sequence on faithful registers, and the extent of the field buffers. -/

namespace Sys2Proof.Machine

/-- A video channel's number as an operand names that channel (30_encoding.md R98 check 2). -/
@[simp] theorem chanOf_ofNat (k : Chan) : chanOf (BitVec.ofNat 4 k.val) = some k := by fin_cases k <;> rfl

theorem chanOf_eq_none {ch : BitVec 4} (h : 8 ≤ ch.toNat) : chanOf ch = none := by
  unfold chanOf
  rw [dif_neg (by omega)]

/-- The disable sequence on faithful registers (40_dma_channel_control.md R124): three or five transfers. -/
theorem disableBits_faithful (bits : Word) (s : State) (h : s.dev.glitch = []) :
    disableBits bits s =
      { s with
        videoDMA := videoBits (s.dev.dmaEn &&& ~~~bits)
        dev := { s.dev with
          dmaEn := s.dev.dmaEn &&& ~~~bits
          dmaCmd := haltedCmd (s.dev.dmaEn &&& ~~~bits) s.dev.dmaCmd }
        hist := s.hist ++ disableTransfers s.cfg.regMap s.dev.dmaEn (s.dev.dmaEn &&& ~~~bits) } := by
  rw [disableBits, setEnable_faithful _ _ (by simpa using h), haltIfEmpty_faithful _ _ (by simpa using h)]
  simp only [noChannels, channelBits, haltedCmd, disableTransfers, haltTransfers, beq_iff_eq]
  split <;> simp [regRead, State.emit, regOffset, regValue]

/-- Every field buffer lies inside the address space (20_memory.md R69, 00_scope.md R6). -/
theorem fbAddr_le {p : Params} (h : p.ok = true) (k : Chan) (f : FieldNo) (s : Slot) :
    fbAddr p k f s + p.maxFieldBytes ≤ Memory.size := by
  simp only [Params.ok, Bool.and_eq_true, decide_eq_true_eq] at h
  unfold fbAddr Memory.size
  have hj : 4 * k.val + 2 * f.num + s.num ≤ 31 := by
    have := k.isLt
    cases f <;> cases s <;> simp only [FieldNo.num, Slot.num] <;> omega
  have : (4 * k.val + 2 * f.num + s.num) * p.maxFieldBytes ≤ 31 * p.maxFieldBytes := Nat.mul_le_mul_right _ hj
  omega

/-- Giving up the in-flight frame keeps a well-formed context well formed (40_dma_channel_control.md R126). -/
theorem ctxOk_dropFrame {p : Params} {c : Ctx} (h : ctxOk p c = true) (hf : c.fsm = .f0Captured) :
    ctxOk p (dropFrame c) = true := by
  unfold ctxOk dropFrame at *
  cases hq : c.queue with
  | nil => simp [hq, queueShape, hf] at h
  | cons e q =>
    simp [hq, hf, queueShape, markHead] at h ⊢
    obtain ⟨⟨⟨⟨⟨a, b⟩, -, c2⟩, d⟩, -⟩, g⟩ := h
    exact ⟨⟨⟨⟨a, b⟩, c2⟩, d⟩, g⟩

/-- The head buffer of a well-formed context lies inside the address space (41_host_stream_queue.md R166). -/
theorem ctxOk_head {p : Params} {c : Ctx} (h : ctxOk p c = true) {b : Entry} {q : List Entry} (hq : c.queue = b :: q) :
    bufInRange b.addr b.cap = true := by
  simp [ctxOk, hq] at h
  tauto

end Sys2Proof.Machine
end

