-- ==== Sys2Proof/Laws/Encoding.lean ====
section
/-! SUPPORT. The fields of an encoded W0 (30_encoding.md R91) are the ones it was made of. -/

namespace Sys2Proof

@[simp] theorem w0Opc_encodeW0 (opc : BitVec 8) (ch : BitVec 4) (imm : BitVec 16) :
    w0Opc (encodeW0 opc ch imm) = opc := by
  apply BitVec.eq_of_getLsbD_eq
  intro i hi
  simp only [w0Opc, encodeW0, BitVec.getLsbD_extractLsb', BitVec.getLsbD_append, hi]
  simp [show ¬ 24 + i < 16 by omega, show ¬ 24 + i - 16 < 4 by omega, show ¬ 24 + i - 16 - 4 < 4 by omega,
    show 24 + i - 16 - 4 - 4 = i by omega]

@[simp] theorem w0Ch_encodeW0 (opc : BitVec 8) (ch : BitVec 4) (imm : BitVec 16) :
    w0Ch (encodeW0 opc ch imm) = ch := by
  apply BitVec.eq_of_getLsbD_eq
  intro i hi
  simp only [w0Ch, encodeW0, BitVec.getLsbD_extractLsb', BitVec.getLsbD_append, hi]
  simp [show ¬ 16 + i < 16 by omega, show 16 + i - 16 = i by omega, hi]

@[simp] theorem w0Imm_encodeW0 (opc : BitVec 8) (ch : BitVec 4) (imm : BitVec 16) :
    w0Imm (encodeW0 opc ch imm) = imm := by
  apply BitVec.eq_of_getLsbD_eq
  intro i hi
  simp only [w0Imm, encodeW0, BitVec.getLsbD_extractLsb', BitVec.getLsbD_append, hi]
  simp [hi]

/-- The packet length of an encoded W0 is that of its operation code (R90). -/
theorem packetLength_encodeW0 (opc : BitVec 8) (ch : BitVec 4) (imm : BitVec 16) :
    packetLength (encodeW0 opc ch imm) = if opc = 0x20 then 3 else if opc = 0x21 then 2 else 1 := by
  simp [packetLength]

/-- Every mode comes back from its code (R23). -/
@[simp] theorem ofCode_code (m : FieldMode) : FieldMode.ofCode m.code = m := by cases m <;> rfl

end Sys2Proof
end

