-- ==== Sys2Proof/Laws/PerInstr.lean ====
section
/-! SUPPORT. Per-instruction facts about the syntax: the encoder gives each packet the length its first word announces
(30_encoding.md R90), and each event one line (R101). -/

/-- A packet's number of words is the one its `W0` announces; an event asserts exactly one line. -/
def Sys2Proof.Laws.EncodedLength.Statement (i : Sys2Proof.Instr) : Prop :=
  match Sys2Proof.encode i with
  | .packet [] => False
  | .packet (w0 :: ws) => ws.length + 1 = Sys2Proof.packetLength w0
  | .event lines => lines = 0b001 ∨ lines = 0b010 ∨ lines = 0b100

theorem Sys2Proof.Laws.EncodedLength.enable (id : BitVec 4) :
    Sys2Proof.Laws.EncodedLength.Statement (.enable id) := by
  simp [Statement, Sys2Proof.encode, Sys2Proof.packetLength_encodeW0]

theorem Sys2Proof.Laws.EncodedLength.disable (id : BitVec 4) :
    Sys2Proof.Laws.EncodedLength.Statement (.disable id) := by
  simp [Statement, Sys2Proof.encode, Sys2Proof.packetLength_encodeW0]

theorem Sys2Proof.Laws.EncodedLength.start (ch : BitVec 4) :
    Sys2Proof.Laws.EncodedLength.Statement (.start ch) := by
  simp [Statement, Sys2Proof.encode, Sys2Proof.packetLength_encodeW0]

theorem Sys2Proof.Laws.EncodedLength.stop (ch : BitVec 4) :
    Sys2Proof.Laws.EncodedLength.Statement (.stop ch) := by
  simp [Statement, Sys2Proof.encode, Sys2Proof.packetLength_encodeW0]

theorem Sys2Proof.Laws.EncodedLength.enq (ch : BitVec 4) (addr cap : Sys2Proof.Word) :
    Sys2Proof.Laws.EncodedLength.Statement (.enq ch addr cap) := by
  simp [Statement, Sys2Proof.encode, Sys2Proof.packetLength_encodeW0]

theorem Sys2Proof.Laws.EncodedLength.setfmt (ch : BitVec 4) (width height : BitVec 16) (bpp : BitVec 3)
    (mode : Sys2Proof.FieldMode) : Sys2Proof.Laws.EncodedLength.Statement (.setfmt ch width height bpp mode) := by
  simp [Statement, Sys2Proof.encode, Sys2Proof.packetLength_encodeW0]

theorem Sys2Proof.Laws.EncodedLength.rdsr (idx : BitVec 16) :
    Sys2Proof.Laws.EncodedLength.Statement (.rdsr idx) := by
  simp [Statement, Sys2Proof.encode, Sys2Proof.packetLength_encodeW0]

theorem Sys2Proof.Laws.EncodedLength.irq : Sys2Proof.Laws.EncodedLength.Statement .irq := .inl rfl

theorem Sys2Proof.Laws.EncodedLength.tdefer : Sys2Proof.Laws.EncodedLength.Statement .tdefer := .inr (.inl rfl)

theorem Sys2Proof.Laws.EncodedLength.twdog : Sys2Proof.Laws.EncodedLength.Statement .twdog := .inr (.inr rfl)
end

