-- ==== Sys2Proof/Laws/Weaver.lean ====
section
/-! SUPPORT. What the copy sequencer can do (42_pingpong_weaver.md R202). -/

namespace Sys2Proof.Machine

/-- The fields a copy may leave changed: memory, the history, the late fills used up. -/
def OnlyCopied (s t : State) : Prop :=
  t = { s with mem := t.mem, hist := t.hist, dev := { s.dev with lateFill := t.dev.lateFill } }

theorem onlyCopied_refl (s : State) : OnlyCopied s s := rfl

theorem onlyCopied_trans {s t u : State} (h : OnlyCopied s t) (g : OnlyCopied t u) : OnlyCopied s u := by
  unfold OnlyCopied at *
  rw [g, h]

theorem copyLine_onlyCopied {src dst n : Nat} {s t : State} (h : copyLine src dst n s = .next t) : OnlyCopied s t := by
  obtain ⟨_, _, rfl⟩ := copyLine_eq_next.1 h
  unfold OnlyCopied
  simp only [memWrite, State.emit]
  rw [landFill_frame]

/-- A copy changes nothing but memory, the history and the late fills. -/
theorem copyLines_onlyCopied {src dst cap p off0 step : Nat} :
    ∀ (n i : Nat) (s t : State), copyLines src dst cap p off0 step n i s = .next t → OnlyCopied s t := by
  intro n
  induction n with
  | zero => intro i s t h; simp only [copyLines, Host.Outcome.next.injEq] at h; exact h ▸ onlyCopied_refl s
  | succ n ih =>
    intro i s t h
    simp only [copyLines] at h
    split at h
    · simp only [Host.Outcome.next.injEq] at h; exact h ▸ onlyCopied_refl s
    · split at h
      · simp only [Host.Outcome.next.injEq] at h; exact h ▸ onlyCopied_refl s
      · obtain ⟨u, hu, ht⟩ := andThen_eq_next.1 h
        exact onlyCopied_trans (copyLine_onlyCopied hu) (ih (i + 1) u t ht)

/-- One line's copy writes its destination line and, by the late fill, its source line; no other byte changes. -/
theorem copyLine_read_out {src dst n : Nat} {s t : State} (h : copyLine src dst n s = .next t) {b : Nat}
    (hs : b < src ∨ src + n ≤ b) (hd : b < dst ∨ dst + n ≤ b) : Memory.read t.mem b = Memory.read s.mem b := by
  obtain ⟨_, _, rfl⟩ := copyLine_eq_next.1 h
  simp only [memWrite]
  rw [Memory.read_writeBytes_out _ _ _ (by simpa using hd), landFill_read_out _ _ _ hs]

/-- One line's copy keeps memory canonical. -/
theorem copyLine_wf {src dst n : Nat} {s t : State} (h : copyLine src dst n s = .next t) (hm : Memory.wf s.mem) :
    Memory.wf t.mem := by
  obtain ⟨hs, hd, rfl⟩ := copyLine_eq_next.1 h
  exact Memory.wf_writeBytes _ _ (landFill_wf _ _ _ hm hs) (by simpa using hd)

/-- A copy whose buffers lie in the address space always goes on, and keeps memory canonical: the two bounds of R202
keep every line inside them. -/
theorem copyLines_completes {src dst cap p off0 step : Nat} (hd : dst + cap ≤ Memory.size) :
    ∀ (n i : Nat) (s : State), src + s.cfg.maxFieldBytes ≤ Memory.size → Memory.wf s.mem →
      ∃ t, copyLines src dst cap p off0 step n i s = .next t ∧ Memory.wf t.mem := by
  intro n
  induction n with
  | zero => intro i s _ hm; exact ⟨s, rfl, hm⟩
  | succ n ih =>
    intro i s hs hm
    simp only [copyLines]
    split
    · exact ⟨s, rfl, hm⟩
    · split
      · exact ⟨s, rfl, hm⟩
      · next h1 h2 =>
        have hl : copyLine (src + i * p) (dst + (off0 + i * step)) p s = .next _ :=
          copyLine_eq_next.2 ⟨by omega, by omega, rfl⟩
        have hc := copyLine_onlyCopied hl
        have hw := copyLine_wf hl hm
        rw [hl, andThen_next]
        refine ih (i + 1) _ ?_ hw
        rw [hc]
        exact hs

end Sys2Proof.Machine
end

