-- ==== Sys2Proof/Tests/Slice0.lean ====
section
/-! SUPPORT. Tests against the vectors of 95_test_vectors.md and the words written out from 30_encoding.md. Expected
values come from those files, each test naming its vector. -/

namespace Sys2Proof.Machine.Slice0

/-! ### Helpers -/

/-- The next state of an outcome; reset where there is none. -/
def after (r : Res) : State :=
  match r with
  | .next t => t
  | _ => State.reset

/-- Did the outcome go on? -/
def goesOn (r : Res) : Bool :=
  match r with
  | .next _ => true
  | _ => false

/-- Run operations whole, one after another. -/
def run (is : List Instr) (s : State) : State := is.foldl (fun t i => after (exec i t)) s

/-- An interrupt with the three status answers of the test syntax (R106). -/
def irqWith (st er pb : Word) (s : State) : State :=
  after (exec .irq { s with dev := { s.dev with intStatus := st, fifoStatus := er, pbStatus := pb } })

/-- Reset with DMA_EN, its shadow and DMA_CMD set. -/
def withRegs (e c : Word) : State :=
  { State.reset with
    videoDMA := videoBits e
    dev := { Device.reset with dmaEn := e, dmaCmd := c } }

/-- Program P2 up to its third line: channel 0 streaming 4 x 4, one buffer of 16 bytes. -/
def p2 : State := run [.setfmt 0 4 4 1 .interlaced, .start 0, .enq 0 0x20000000 16] State.reset

/-- P2 with the two field buffers filled. -/
def p2filled : State :=
  { p2 with
    mem := Memory.writeBytes (Memory.writeBytes [] 0x10000000 [0x00, 0x01, 0x02, 0x03, 0x10, 0x11, 0x12, 0x13])
      0x100CA800 [0x80, 0x81, 0x82, 0x83, 0x90, 0x91, 0x92, 0x93] }

/-- P2 after its first interrupt: field 0 captured in slot P. -/
def p2captured : State := irqWith 0x00000001 0 0 p2filled

/-! ### Decoding: words written out from the spec's encodings (V30) -/

theorem test_decode_enable : decodePacket [0x01010000] = .op (.enable 1) [] := by decide

theorem test_decode_disable : decodePacket [0x02010000] = .op (.disable 1) [] := by decide

theorem test_decode_start : decodePacket [0x10080000] = .op (.start 8) [] := by decide

theorem test_decode_stop : decodePacket [0x11070000] = .op (.stop 7) [] := by decide

theorem test_decode_enq :
    decodePacket [0x20000000, 0x20000000, 0x000CA800] = .op (.enq 0 0x20000000 829440) [] := by decide

theorem test_decode_setfmt :
    decodePacket [0x21030012, 0x012002D0, 0x30000004] = .op (.setfmt 3 720 288 2 .top) [0x30000004] := by decide

theorem test_decode_setfmt_alternate :
    decodePacket [0x21050034, 0x00020004] = .op (.setfmt 5 4 2 4 .alternate) [] := by decide

theorem test_decode_rdsr : decodePacket [0x3000003A] = .op (.rdsr 0x3A) [] := by decide

theorem test_decode_events :
    decodeEvent 0b001 = some .irq ∧ decodeEvent 0b010 = some .tdefer ∧ decodeEvent 0b100 = some .twdog := by decide

/-- V30-14 to V30-18: reserved opcodes, RSV, IMM and CH. -/
theorem test_decode_illegal :
    decodePacket [0x00000000] = .illegal .reservedOpcode [] ∧
    decodePacket [0xFF000000] = .illegal .reservedOpcode [] ∧
    decodePacket [0x01100000] = .illegal .reservedBits [] ∧
    decodePacket [0x01010001] = .illegal .immBits [] ∧
    decodePacket [0x30010004] = .illegal .channelBits [] := by decide

/-- V30-19, V30-21, V30-22: an illegal packet's length is still that of its opcode. -/
theorem test_decode_illegal_length :
    decodePacket [0x21000008, 0x024002D0, 1] = .illegal .immBits [1] ∧
    decodePacket [0x20000001, 0x20000000, 0x10, 1] = .illegal .immBits [1] ∧
    decodePacket [0x20F00000, 5, 6, 1] = .illegal .reservedBits [1] := by decide

theorem test_decode_table_word :
    decodeTableWord 32 0x01000000 = some (.enable 0) ∧ decodeTableWord 96 0x20000000 = some (.enq 0 0 0) ∧
    decodeTableWord 64 0x21000000 = some (.setfmt 0 0 0 0 .interlaced) ∧ decodeTableWord 8 4 = some .twdog := by decide

/-- 10_state.md R30: the default offsets of the last channel's registers, and another layout. -/
theorem test_reg_offsets :
    regOffset RegMap.default (.chConfig 7) = 0x05C ∧ regOffset RegMap.default (.chGeom 7) = 0x07C ∧
    regOffset RegMap.default (.decStatus 7) = 0x09C ∧ regOffset RegMap.default (.chAddr 7 .f1 .b) = 0x17C ∧
    regOffset { RegMap.default with chGeom := Bank.tabulate fun k => 0x800 + 0x40 * k.val } (.chGeom 2) = 0x880 := by
  decide

theorem test_encode :
    encode (.setfmt 0 720 576 2 .interlaced) = .packet [0x21000002, 0x024002D0] ∧
    encode (.rdsr 4) = .packet [0x30000004] ∧ encode .tdefer = .event 0b010 := by decide

/-! ### Operand checks: an illegal term for each -/

theorem test_wf_channel :
    Instr.WellFormed Params.default (.start 8) = false ∧ Instr.WellFormed Params.default (.stop 8) = false ∧
    Instr.WellFormed Params.default (.enq 8 0 1) = false ∧
    Instr.WellFormed Params.default (.setfmt 8 4 4 1 .top) = false := by decide

/-- V41-14, V41-15. -/
theorem test_wf_buffer :
    Instr.WellFormed Params.default (.enq 0 0xFFFFFFF0 0x11) = false ∧
    Instr.WellFormed Params.default (.enq 0 0x20000000 0) = false ∧
    Instr.WellFormed Params.default (.enq 0 0xFFFFFFF0 0x10) = true := by decide

/-- V41-2 to V41-7. -/
theorem test_wf_format :
    Instr.WellFormed Params.default (.setfmt 0 0 576 2 .interlaced) = false ∧
    Instr.WellFormed Params.default (.setfmt 0 720 0 2 .interlaced) = false ∧
    Instr.WellFormed Params.default (.setfmt 0 720 576 0 .interlaced) = false ∧
    Instr.WellFormed Params.default (.setfmt 0 720 576 5 .interlaced) = false ∧
    Instr.WellFormed Params.default (.setfmt 3 720 576 2 .top) = false ∧
    Instr.WellFormed Params.default (.setfmt 0 720 577 2 .interlaced) = false ∧
    Instr.WellFormed Params.default (.setfmt 0 720 576 2 .interlaced) = true ∧
    Instr.WellFormed Params.default (.setfmt 7 65535 1 1 .interlaced) = true := by decide

/-- V41-19. -/
theorem test_wf_index :
    Instr.WellFormed Params.default (.rdsr 0x40) = false ∧ Instr.WellFormed Params.default (.rdsr 0x7F) = false ∧
    Instr.WellFormed Params.default (.rdsr 0x8A) = false ∧ Instr.WellFormed Params.default (.rdsr 0x3F) = true := by
  decide

/-! ### ENABLE, DISABLE, the reset operation -/

/-- V40-1: both registers and the five transfers. -/
theorem test_enable_history :
    (after (exec (.enable 0) State.reset)).hist =
      [.regRead 0x028 0, .regWrite 0x028 1, .regRead 0x028 1, .regWrite 0x008 0x80000001, .regRead 0x008 0x80000001,
        .rsp .ok 0] := by decide

/-- V40-14: a corrupted write of DMA_EN. -/
theorem test_enable_corrupted :
    let s := after (exec (.enable 0) { State.reset with dev := { Device.reset with glitch := [some 0] } })
    s.verifyErr = true ∧ s.videoDMA = 1 ∧ s.dev.dmaEn = 0 ∧ s.dev.dmaCmd = 0x80000001 := by decide

/-- V40-11: the empty test ignores bit 16. -/
theorem test_disable_empty :
    let s := after (exec (.disable 0) (withRegs 0x00010001 0x80000001))
    s.dev.dmaEn = 0x00010000 ∧ s.dev.dmaCmd = 0 ∧ s.videoDMA = 0 := by decide

/-- V40-10: audio remains, DMA_CMD is not written. -/
theorem test_disable_audio_remains :
    let s := after (exec (.disable 0) (withRegs 0x00000101 0x80000101))
    s.dev.dmaEn = 0x00000100 ∧ s.dev.dmaCmd = 0x80000101 ∧ s.hist.length = 4 := by decide

/-- V40-20. -/
theorem test_reset_channels :
    let s := resetChannels 0x02 { withRegs 7 0x80000007 with now := 1000 }
    s.pendEn = 7 ∧ s.pendCmd = 0x80000007 ∧ s.dev.dmaEn = 5 ∧ s.dev.dmaCmd = 0x80000007 ∧ s.videoDMA = 5 ∧
    s.lastFaultTime = 1000 ∧ s.deferDeadline = 1100 ∧ s.lastResetMask = 2 ∧ s.hist.length = 4 := by decide

/-! ### Host commands -/

/-- Program P1 step 2: the first START's eleven records. -/
theorem test_start_history :
    (run [.setfmt 0 720 576 2 .interlaced, .start 0] State.reset).hist =
      [.rsp .ok 0, .regWrite 0x100 0x10000000, .regWrite 0x104 0x10065400, .regWrite 0x108 0x100CA800,
        .regWrite 0x10C 0x1012FC00, .regWrite 0x060 0x012002D0, .regRead 0x028 0, .regWrite 0x028 1, .regRead 0x028 1,
        .regWrite 0x008 0x80000001, .regRead 0x008 0x80000001, .rsp .ok 0] := by decide

/-- V41-1, V41-10. -/
theorem test_start_rejected :
    (after (exec (.start 0) State.reset)).hist = [.rsp .errState 0] ∧
    (after (exec (.start 0) p2)).hist = p2.hist ++ [.rsp .errState 0] := by decide

/-- V41-17: STOP of an idle channel flushes. -/
theorem test_stop_flushes :
    (run [.enq 0 0x20000000 16, .stop 0] State.reset).hist =
      [.rsp .ok 0, .regRead 0x028 0, .regWrite 0x028 0, .regRead 0x028 0, .regWrite 0x008 0, .regRead 0x008 0,
        .cpl ⟨0, .interlaced, true, 0, 0x20000000, 0⟩, .rsp .ok 0] := by decide

/-- V41-16: the queue is full. -/
theorem test_enq_full :
    let s := run (List.replicate 16 (.enq 0 0x20000000 16)) State.reset
    (s.chan 0).queue.length = 16 ∧ (after (exec (.enq 0 0x20000000 16) s)).hist = s.hist ++ [.rsp .busy 0] := by decide

/-- V41-9. -/
theorem test_setfmt_busy :
    let s := after (exec (.setfmt 0 8 8 1 .top) p2)
    s.ch = p2.ch ∧ s.hist = p2.hist ++ [.rsp .busy 0] := by decide

/-- V41-11: geometry only after the first start. -/
theorem test_setfmt_geometry :
    let s := after (exec (.stop 0) p2)
    (after (exec (.setfmt 0 4 4 1 .interlaced) s)).hist = s.hist ++ [.regWrite 0x060 0x00020004, .rsp .ok 0] := by
  decide

/-- V41-21. -/
theorem test_rdsr_captured :
    let s := irqWith 1 0 0 (run [.setfmt 0 720 576 2 .interlaced, .start 0, .enq 0 0x20000000 1] State.reset)
    srValue s 0x00 = 0x00002062 ∧ srValue s 0x01 = 0x024002D0 ∧ srValue s 0x06 = 0x00000101 := by decide

/-- V41-18, V41-20, V41-19. -/
theorem test_rdsr_indices :
    (run [.rdsr 0x3F, .rdsr 0x88, .rdsr 0x8A] State.reset).hist = [.rsp .ok 0, .rsp .ok 50, .rsp .errRange 0] := by
  decide

/-! ### Records -/

/-- 2.1: completion words and the audio word. -/
theorem test_record_words :
    (Cpl.words ⟨3, .bottom, false, 0, 0, 0⟩).head? = some 0x00000203 ∧
    (Cpl.words ⟨5, .alternate, true, 7, 8, 0x100000002⟩) = [0x00010305, 7, 8, 2, 1] ∧
    audWord 0x03 0x02 = 0x00000203 := by decide

/-! ### Interrupts -/

/-- Program P2: the woven frame, byte for byte, and its record. -/
theorem test_weave :
    let s := irqWith 0x00000001 0 0x01000000 p2captured
    Memory.readBytes s.mem 0x20000000 16 =
      [0x00, 0x01, 0x02, 0x03, 0x80, 0x81, 0x82, 0x83, 0x10, 0x11, 0x12, 0x13, 0x90, 0x91, 0x92, 0x93] ∧
    s.hist.getLast? = some (.cpl ⟨0, .interlaced, false, 0, 0x20000000, 0⟩) ∧ srValue s 0x00 = 0x00001069 := by decide

/-- Program P1 step 10 on P2's state: field 1 in the other slot. -/
theorem test_mismatch :
    let s := irqWith 0x00000001 0 0x01000001 p2captured
    (s.chan 0).mismatchCnt = 1 ∧ (s.chan 0).fsm = .awaitF0 ∧ (s.chan 0).queue = [⟨0x20000000, 16, .queued⟩] ∧
    s.lastResetMask = 1 ∧ s.dev.dmaEn = 0 ∧ s.deferDeadline = 100 := by decide

/-- V42-3: truncation by whole lines, DONE all the same. -/
theorem test_truncation :
    let t := run [.setfmt 0 4 4 1 .interlaced, .start 0, .enq 0 0x20000000 10] State.reset
    let s := irqWith 1 0 0x01000000 (irqWith 1 0 0 { p2filled with ch := t.ch })
    Memory.readBytes s.mem 0x20000000 12 = [0x00, 0x01, 0x02, 0x03, 0x80, 0x81, 0x82, 0x83, 0, 0, 0, 0] ∧
    (s.chan 0).seq = 1 := by decide

/-- V60-4, V60-6, V60-9. -/
theorem test_classifier :
    (irqWith 0xFFFC0000 0x0000FF00 0 State.reset).hist = [.regRead 0x000 0xFFFC0000, .regRead 0x00C 0x0000FF00] ∧
    (irqWith 0x00020001 0xFF000000 0 p2).lastResetMask = 0xFF ∧
    ((irqWith 0x00020001 0xFF000000 0 p2).chan 7).timeoutCnt = 1 ∧
    ((irqWith 0x00020001 0xFF000000 0 p2).chan 7).errCnt = 0 ∧
    ((irqWith 0 0x02000000 0 p2).chan 1).errCnt = 1 := by decide

/-- V60-11: the audio hand-off. -/
theorem test_audio :
    (irqWith 0x00000100 0 0x00000200 State.reset).hist.getLast? = some (.aud 0x01 0x02) := by decide

/-! ### Timers -/

/-- V60-23: the restore is verbatim. -/
theorem test_tdefer_verbatim :
    let s := after (exec .tdefer
      { withRegs 4 0x80000004 with pendEn := 3, pendValid := true, deferArmed := true, deferDeadline := 180, now := 180 })
    s.dev.dmaEn = 3 ∧ s.dev.dmaCmd = 0 ∧ s.videoDMA = 3 ∧ s.pendValid = false ∧ s.deferArmed = false := by decide

/-- V60-21. -/
theorem test_tdefer_early :
    let s := { withRegs 4 0 with pendValid := true, deferArmed := true, deferDeadline := 180, now := 179 }
    after (exec .tdefer s) = s := by decide

/-- V60-24: debounced. -/
theorem test_twdog_debounced :
    let s := { withRegs 5 0 with videoCap := 7, lastFaultTime := 1000, lastFaultValid := true, now := 1049 }
    after (exec .twdog s) = { s with wdogDeadline := 1099 } := by decide

/-- V60-25: one millisecond later it acts. -/
theorem test_twdog_acts :
    let s := after (exec .twdog
      { withRegs 0x105 0 with videoCap := 7, lastFaultTime := 1000, lastFaultValid := true, now := 1050 })
    s.dev.dmaEn = 0x107 ∧ s.dev.dmaCmd = 0x80000107 ∧ s.videoDMA = 7 ∧ s.wdogDeadline = 1100 := by decide

/-! ### The placing of one instruction -/

/-- A row of the table placed after reset runs at once: it is answered, or, for an event, leaves its trace. -/
theorem test_withFetchWord :
    (after (step (State.reset.withFetchWord 32 0x01000000))).dev.dmaEn = 1 ∧
    (after (step (State.reset.withFetchWord 64 0x21000000))).hist = [.rsp .errRange 0] ∧
    (after (step (State.reset.withFetchWord 96 0x20000000))).hist = [.rsp .errRange 0] ∧
    (after (step (State.reset.withFetchWord 32 0x30000000))).hist = [.rsp .ok 0] ∧
    (after (step (State.reset.withFetchWord 8 1))).hist = [.regRead 0 0, .regRead 0xC 0] ∧
    goesOn (step (State.reset.withFetchWord 8 2)) = true ∧ goesOn (step (State.reset.withFetchWord 8 4)) = true := by
  decide

/-! ### Witnesses: one state and operands that meet all the hypotheses of each statement of
Certificates/Slice0/Obligations.lean, and of each of its clauses. `goesOn r` stands for "there is t with r = next t". -/

theorem goesOn_iff (r : Res) : goesOn r = true ↔ r = .next (after r) := by cases r <;> simp [goesOn, after]

/-- P2 with a mismatched second interrupt's status in the registers. -/
def p2ready (pb : Word) : State :=
  { p2captured with dev := { p2captured.dev with dmaEn := 1, intStatus := 1, pbStatus := pb } }

/-- P2 in one of the single-field modes. -/
def p2mode (m : FieldMode) : State := run [.setfmt 0 4 4 1 m, .start 0, .enq 0 0x20000000 16] State.reset

/-- Reset with a queue that holds at most one buffer. -/
def shallow : State := { State.reset with cfg := { Params.default with qdepth := 1 } }

theorem test_witness_HardwareResetRestoresTheBlock :
    ({ p2captured with sched := [.hwReset, .serve .irq] } : State).sched = .hwReset :: [.serve .irq] ∧
    (p2captured.chan 0).fsm = .f0Captured := by decide

theorem test_witness_DecodeOfEncodeIsTheInstruction :
    encode (.enq 15 0xFFFFFFFF 0) = .packet [0x200F0000, 0xFFFFFFFF, 0] ∧ encode .twdog = .event 0b100 := by decide

theorem test_witness_EncodeOfDecodeIsThePacket :
    decodePacket [0x21000037, 0xFFFF0000, 5] = .op (.setfmt 0 0 0xFFFF 7 .alternate) [5] ∧
    decodeEvent 0b001 = some .irq := by decide

theorem test_witness_OpcodeRowsAreDisjoint :
    ⟨.rdsr, 0x30000000, 0xFFFF0000⟩ ∈ opcodeTable ∧ 0x3000FFFF#32 &&& 0xFFFF0000#32 = 0x30000000#32 := by decide

/-- The three packet lengths, each with exactly its words there, then one more. -/
theorem test_witness_IllegalPacketIsAnsweredAndConsumed :
    ∀ ws ∈ [[0x20F00000#32, 5, 6], [0x20F00000, 5, 6, 7], [0x21000008, 5], [0x31000000], [0xFF000000, 1]],
      let s := { State.reset with sched := [.serve .cmd], cmdPort := ws }
      let w0 := ws.headD 0
      s.sched = .serve .cmd :: [] ∧ s.cmdTask = none ∧ s.cmdPort = w0 :: ws.tail ∧
      (∀ r ∈ opcodeTable, w0 &&& r.mask ≠ r.pattern) ∧
      (if w0 >>> 24 = 0x20#32 then 3 else if w0 >>> 24 = 0x21#32 then 2 else 1) ≤ ws.tail.length + 1 := by decide

theorem test_witness_StepRunsTheDecodedCommand :
    (let s := { p2 with sched := [.serve .cmd], cmdPort := [0x30000000, 7] }
     s.cmdTask = none ∧ decodePacket s.cmdPort = .op (.rdsr 0) [7]) ∧
    decodePacket [0x20000000, 5] = .short ∧ ({ p2 with cmdTask := some (.stopFlush 0) } : State).cmdTask ≠ none := by
  decide

/-- A held line, and each timer exactly at its deadline. -/
theorem test_witness_StepRunsTheRequestedEvent :
    ({ p2 with evHeld := 0b001 } : State).evHeld.getLsbD 0 = true ∧
    (let s := { p2 with deferArmed := true, deferDeadline := 7, now := 7 }
     s.deferArmed = true ∧ s.deferDeadline ≤ s.now) ∧
    (let s := { p2 with now := 50 }
     s.wdogPending = false ∧ s.wdogDeadline ≤ s.now) := by decide

theorem test_witness_WriteVerifyRecordsADifference :
    State.reset.dev.glitch = [] ∧ ({ Device.reset with glitch := [some 5, none] } : Device).glitch = some 5 :: [none] ∧
    (writeVerify .dmaCmd 4 { State.reset with dev := { Device.reset with glitch := [some 5] } }).verifyErr = true := by
  decide

theorem test_witness_EnableMergesTheBitAndRestarts : p2.dev.glitch = [] ∧ p2.dev.dmaEn = 1 := by decide

/-- With the last channel bit, and with one more, so that both branches of the halt are met. -/
theorem test_witness_DisableClearsTheBitAndHaltsWhenEmpty :
    (withRegs 1 0x80000001).dev.glitch = [] ∧ (withRegs 3 0x80000003).dev.glitch = [] := by decide

/-- A bit that was set and one that was clear, other channels enabled beside it. -/
theorem test_witness_EnableDisableProperties :
    (let s := withRegs 0x8003 0
     s.dev.glitch = [] ∧ 0x8003#32 &&& 0xFFFF#32 &&& ~~~(wordBit 15) ≠ 0 ∧
     goesOn (exec (.disable 15) (after (exec (.disable 15) s))) = true) ∧
    (let s := withRegs 2 0
     s.dev.glitch = [] ∧ 2#32 &&& 0xFFFF#32 &&& ~~~(wordBit 0) ≠ 0 ∧
     goesOn (exec (.disable 0) (after (exec (.enable 0) s))) = true) := by decide

theorem test_witness_EnableDisableFrame :
    let s := { State.reset with dev := { Device.reset with glitch := [some 9, none, some 7] } }
    goesOn (exec (.enable 9) s) = true ∧ goesOn (exec (.disable 9) s) = true := by decide

/-- Each clause at the edges of its range. -/
theorem test_witness_RejectedCommandsChangeNothing :
    (8 ≤ (8#4).toNat ∧ 8 ≤ (15#4).toNat) ∧
    ((7#4).toNat < 8 ∧ 2 ^ 32 < (0xFFFFFFFF#32).toNat + (2#32).toNat) ∧
    (State.reset.cfg.maxFieldBytes < 576 * 721 * 1 ∧ 4 < (5#3).toNat) ∧
    ((0x40 ≤ (0x40#16).toNat ∧ (0x40#16).toNat < 0x80) ∧ (0x40 ≤ (0x7F#16).toNat ∧ (0x7F#16).toNat < 0x80) ∧
      0x89 < (0x8A#16).toNat) ∧
    ((State.reset.chan 7).configured = false ∧ (p2.chan 0).fsm ≠ .idle) ∧
    ((0x20000000#32).toNat + (16#32).toNat ≤ 2 ^ 32 ∧
      ((run [.enq 7 0 1] shallow).chan 7).queue.length = (run [.enq 7 0 1] shallow).cfg.qdepth) ∧
    (fmtInRange p2.cfg 720 576 2 .interlaced = true ∧ (p2.chan 0).fsm ≠ .idle) := by decide

theorem test_witness_EveryCommandIsAnsweredOnce :
    Instr.enq 15 0 0 ∉ [Instr.irq, .tdefer, .twdog] ∧ Instr.rdsr 0x80 ∉ [Instr.irq, .tdefer, .twdog] := by decide

/-- The three answers that stay possible. -/
theorem test_witness_LegalOperandsPassTheStaticChecks :
    (Instr.WellFormed p2.cfg (.start 0) = true ∧ Instr.start 0 ∉ [Instr.irq, .tdefer, .twdog] ∧
      (after (exec (.start 0) p2)).hist.getLast? = some (.rsp .errState 0)) ∧
    (Instr.WellFormed p2.cfg (.setfmt 0 4 4 1 .top) = true ∧
      (after (exec (.setfmt 0 4 4 1 .top) p2)).hist.getLast? = some (.rsp .busy 0)) ∧
    (Instr.WellFormed p2.cfg (.rdsr 0x89) = true ∧ goesOn (exec (.rdsr 0x89) p2) = true) := by decide

/-- A first START and a later one. -/
theorem test_witness_StartProgramsRequestsAndEnables :
    ∀ s ∈ [run [.setfmt 0 4 4 1 .top] State.reset, run [.stop 0] p2],
      s.dev.glitch = [] ∧ (s.chan 0).configured = true ∧ (s.chan 0).fsm = .idle := by decide

theorem test_witness_StopDisablesThenFlushes :
    p2captured.dev.glitch = [] ∧ (p2captured.chan 0).queue ≠ [] := by decide

/-- The last byte of the space, onto a queue with one place left. -/
theorem test_witness_EnqAppendsAtTheTail :
    1#32 ≠ 0 ∧ (0xFFFFFFFF#32).toNat + (1#32).toNat ≤ 2 ^ 32 ∧ (shallow.chan 7).queue.length ≠ shallow.cfg.qdepth := by
  decide

/-- A field of exactly the largest size, with the buffers not yet and already programmed. -/
theorem test_witness_SetfmtStoresTheFormat :
    ∀ s ∈ [State.reset, run [.stop 0] p2],
      720#16 ≠ 0 ∧ 576#16 ≠ 0 ∧ 2#3 ≠ 0 ∧ (2#3).toNat ≤ 4 ∧
      (if FieldMode.interlaced = .interlaced then ((576#16).toNat + 1) / 2 else (576#16).toNat) * (720#16).toNat
        * (2#3).toNat = s.cfg.maxFieldBytes ∧ (s.chan 0).fsm = .idle := by decide

/-- All eight selectors, on the first and the last channel. -/
theorem test_witness_RdsrReadsTheChannelRegisters :
    ∀ sel < 8, ∀ k ∈ [(0 : Chan), 7], goesOn (exec (.rdsr (BitVec.ofNat 16 (8 * k.val + sel))) p2captured) = true := by
  decide

theorem test_witness_RdsrReadsTheGlobalRegisters :
    ∀ g < 10, goesOn (exec (.rdsr (BitVec.ofNat 16 (0x80 + g))) p2captured) = true := by decide

theorem test_witness_HostCommandFrame :
    ∀ i ∈ [Instr.start 0, .stop 0, .enq 0 4 4, .setfmt 0 4 4 1 .top, .rdsr 0, .start 9],
      goesOn (exec i p2) = true ∧ goesOn (exec i State.reset) = true ∧ (1 : Chan).val ≠ (0#4).toNat := by decide

/-- Every bit that does not count is set. -/
theorem test_witness_ForeignInterruptLeavesNoTrace :
    p2.irqActive = false ∧ 0xFFFD0000#32 &&& (0x0000FFFF#32 ||| (1#32 <<< p2.cfg.toutBit)) = 0 ∧
    0x0000FFFF#32 &&& 0xFFFF0000#32 = 0 := by decide

theorem test_witness_GlobalTimeoutResetsAllVideoChannels :
    p2captured.irqActive = false ∧ p2captured.dev.glitch = [] ∧
    (0x00020001#32).getLsbD p2captured.cfg.toutBit = true ∧ (p2captured.chan 0).fsm = .f0Captured := by decide

theorem test_witness_AudioReadyIsHandedOff :
    let s := { withRegs 0x80 0 with dev := { (withRegs 0x80 0).dev with intStatus := 0x8001 } }
    s.irqActive = false ∧ s.dev.intStatus.getLsbD s.cfg.toutBit = false ∧ s.dev.intStatus.extractLsb' 8 8 ≠ 0#8 ∧
    s.dev.intStatus &&& s.dev.dmaEn &&& 0xFF#32 = 0 ∧ s.dev.fifoStatus &&& 0xFFFF0000#32 = 0 := by decide

/-- Ready by its data bit, and by each FIFO error bit while not enabled. -/
theorem test_witness_OneReadyChannelIsServed :
    ((withRegs 1 0).irqActive = false ∧ (0x81#32).getLsbD (withRegs 1 0).cfg.toutBit = false ∧
      0x81#32 &&& 0xFF00#32 = 0 ∧ ((videoBits 0x81 &&& videoBits 1) ||| (0#32).extractLsb' 24 8
        ||| (0#32).extractLsb' 16 8 = 1#8 <<< (0 : Chan).val)) ∧
    ((videoBits 0 &&& videoBits 1) ||| (0x80000000#32).extractLsb' 24 8 ||| (0x80000000#32).extractLsb' 16 8
        = 1#8 <<< (7 : Chan).val) ∧
    ((videoBits 0x80 &&& videoBits 1) ||| (0x00800000#32).extractLsb' 24 8 ||| (0x00800000#32).extractLsb' 16 8
        = 1#8 <<< (7 : Chan).val) := by decide

/-- Channel 0 ready by its data, channel 7 by a FIFO error, and an audio period. -/
def busy : State := { p2captured with dev := { p2captured.dev with intStatus := 0x0101, fifoStatus := 0x80000000 } }

/-- Two channels and audio together; and an interrupt of the class DATA with nothing to serve. -/
theorem test_witness_EveryReadySetIsServed :
    (busy.Inv ∧ busy.irqActive = false ∧ (0x0101#32).getLsbD busy.cfg.toutBit = false) ∧
    ¬ (0x0101#32 &&& (0x0000FFFF#32 ||| (1#32 <<< busy.cfg.toutBit)) = 0 ∧ 0x80000000#32 &&& 0xFFFF0000#32 = 0) ∧
    ¬ (0x0002#32 &&& (0x0000FFFF#32 ||| (1#32 <<< busy.cfg.toutBit)) = 0) := by decide

/-- Its effect: the frame captured by channel 0 is a mismatch, channel 7 counts an error, both are reset once. -/
theorem test_two_channels_and_audio :
    let t := after (exec .irq busy)
    (t.chan 0).mismatchCnt = 1 ∧ (t.chan 7).errCnt = 1 ∧ t.lastResetMask = 0x81 ∧ .aud 1 0 ∈ t.hist := by decide

theorem test_witness_InterruptIsHeldDuringAnInvocation :
    (after (takeUp .irq { p2 with evHeld := 1 })).irqActive = true := by decide

/-- Both FIFO error bits, signal lost, signal back, nothing to do (idle, or no buffer), and a buffer to fill. -/
theorem test_witness_ChannelChecksInOrder :
    ((0x80000000#32).getLsbD (24 + 7) || (0x80000000#32).getLsbD (16 + 7)) = true ∧
    ((0x00010000#32).getLsbD (24 + 0) || (0x00010000#32).getLsbD (16 + 0)) = true ∧
    (((0x00000001#32).getLsbD (24 + 0) || (0x00000001#32).getLsbD (16 + 0)) = false ∧ (1#32).getLsbD 0 = true) ∧
    ((p2.modChan 0 fun c => { c with noSignal := true }).chan 0).noSignal = true ∧
    (p2.lat.er = 0 ∧ (p2.chan 0).noSignal = false ∧ (p2.chan 0).fsm ≠ .idle ∧
      (p2.chan 0).queue = ⟨0x20000000, 16, .queued⟩ :: []) ∧
    ((p2.chan 7).fsm = .idle ∧ (p2.chan 7).queue = []) := by decide

theorem test_witness_UnwantedFieldIsIgnored :
    ((p2.chan 0).fieldMode = .interlaced ∧ (p2.chan 0).fsm = .awaitF0) ∧
    ((p2mode .top).chan 0).fieldMode = .top ∧ ((p2mode .bottom).chan 0).fieldMode = .bottom := by decide

theorem test_witness_FieldZeroIsCaptured :
    p2filled.Inv ∧ (p2filled.chan 0).fieldMode = .interlaced ∧ (p2filled.chan 0).fsm = .awaitF0 ∧
    (p2filled.chan 0).queue = ⟨0x20000000, 16, .queued⟩ :: [] := by decide

theorem test_captured_inv : p2captured.Inv := by decide

theorem test_witness_MatchingFieldOneCompletes :
    p2captured.Inv ∧ (p2captured.chan 0).fieldMode = .interlaced ∧ (p2captured.chan 0).fsm = .f0Captured ∧
    (p2captured.chan 0).queue = ⟨0x20000000, 16, .partialFill⟩ :: [] := ⟨test_captured_inv, by decide⟩

/-- A second field 0, and field 1 in the other slot. -/
theorem test_witness_MismatchDiscardsTheFrame :
    (p2captured.chan 0).fieldMode = .interlaced ∧ (p2captured.chan 0).fsm = .f0Captured ∧
    (p2captured.chan 0).queue = ⟨0x20000000, 16, .partialFill⟩ :: [] ∧ Slot.b ≠ (p2captured.chan 0).curPB := by decide

/-- The four wanted fields of the three modes. -/
theorem test_witness_SingleFieldCompletes :
    ∀ c ∈ [(FieldMode.top, FieldNo.f0), (.bottom, .f1), (.alternate, .f0), (.alternate, .f1)],
      (p2mode c.1).Inv ∧ ((p2mode c.1).chan 0).queue = ⟨0x20000000, 16, .queued⟩ :: [] ∧
      ((c.1 = .top ∧ c.2 = .f0) ∨ (c.1 = .bottom ∧ c.2 = .f1) ∨ c.1 = .alternate) ∧
      ((p2mode c.1).chan 0).fieldMode = c.1 := by decide

/-- A buffer that ends where the field buffers begin, woven and single. -/
theorem test_witness_CopyMovesWholeLinesWithinCapacity :
    ∀ single ∈ [true, false], ∀ f ∈ [FieldNo.f0, .f1],
      let b : Entry := ⟨0x0FFFFFF0, 16, .queued⟩
      Memory.wf p2filled.mem = true ∧ p2filled.dev.lateFill = [] ∧
      goesOn (copyField 0 f .p single b p2filled) = true ∧
      b.addr.toNat + b.cap.toNat ≤
        p2filled.cfg.fieldBase + (4 * (0 : Chan).val + 2 * f.num + Slot.p.num) * p2filled.cfg.maxFieldBytes := by decide

theorem test_witness_CopyStaysInsideTheBuffers :
    let s := { p2filled with dev := { p2filled.dev with lateFill := [some [9, 9, 9, 9]] } }
    goesOn (copyField 0 .f0 .p false ⟨0x20000000, 16, .queued⟩ s) = true ∧
    (0x20000010 < (0x20000000#32).toNat ∨ (0x20000000#32).toNat + (16#32).toNat ≤ 0x20000010) ∧
    (0x20000010 < fbAddr s.cfg 0 .f0 .p ∨ fbAddr s.cfg 0 .f0 .p + s.cfg.maxFieldBytes ≤ 0x20000010) := by decide

theorem test_witness_WovenFrameInterleavesTheFields :
    let b : Entry := ⟨0x20000000, 16, .queued⟩
    let t := after (fieldEvent 0 .f0 .p b p2filled)
    (p2filled.Inv ∧ p2filled.dev.lateFill = [] ∧ (p2filled.chan 0).fieldMode = .interlaced) ∧
    ((p2filled.chan 0).fsm = .awaitF0 ∧ (p2filled.chan 0).queue = b :: []) ∧
    (p2filled.chan 0).height.toNat * pitch (p2filled.chan 0) = b.cap.toNat ∧
    (∀ f ∈ [FieldNo.f0, .f1], fbAddr p2filled.cfg 0 f .p + p2filled.cfg.maxFieldBytes ≤ b.addr.toNat) ∧
    goesOn (fieldEvent 0 .f0 .p b p2filled) = true ∧
    goesOn (fieldEvent 0 .f1 .p { b with bstate := .partialFill } t) = true := by decide

theorem test_witness_WovenRecordsComeFromMatchingSlots :
    let s := p2ready 0x01000000
    goesOn (exec .irq s) = true ∧
    .cpl ⟨0, .interlaced, false, 0, 0x20000000, 0⟩ ∈ (after (exec .irq s)).hist.drop s.hist.length := by decide

theorem test_witness_ResetOperationRemovesTheChannels :
    p2captured.dev.glitch = [] ∧ (1#8).getLsbD (0 : Chan).val = true ∧ (p2captured.chan 0).fsm = .f0Captured := by decide

theorem test_witness_InterruptCompletes : p2captured.Inv ∧ p2captured.irqActive = false := ⟨test_captured_inv, rfl⟩

/-- A byte below and one above the buffer, with a late fill that lands in the field buffer region. -/
theorem test_witness_InterruptFrame :
    let s := { p2ready 0x01000000 with dev := { (p2ready 0x01000000).dev with lateFill := [some [9]] } }
    s.irqActive = false ∧ goesOn (exec .irq s) = true ∧
    (∀ k : Chan, ∀ b ∈ (s.chan k).queue.head?, 0x1FFFFFFF < b.addr.toNat ∧ b.addr.toNat + b.cap.toNat ≤ 0x20000010) ∧
    s.cfg.fieldBase + 32 * s.cfg.maxFieldBytes ≤ 0x1FFFFFFF := by decide

/-- Exactly at the deadline, with a snapshot and without. -/
theorem test_witness_DeferredRestoreIsVerbatim :
    ∀ v ∈ [true, false],
      let s := { p2 with pendValid := v, deferArmed := true, deferDeadline := 9, now := 9 }
      s.dev.glitch = [] ∧ s.deferArmed = true ∧ s.deferDeadline ≤ s.now := by decide

theorem test_witness_TimerEventsWaitForTheirDeadlines :
    State.reset.deferArmed = false ∧
    (let s := { p2 with deferArmed := true, deferDeadline := 50, now := 49 }
     s.now < s.deferDeadline ∧ s.now < s.wdogDeadline) := by decide

/-- Debounced at 49 ms after the fault, acting at 50 ms, nothing missing, something missing. -/
theorem test_witness_WatchdogMergesMissingChannels :
    (∀ n ∈ [1049, 1050],
      let s := { withRegs 5 0 with videoCap := 7, lastFaultTime := 1000, lastFaultValid := true, now := n }
      s.dev.glitch = [] ∧ s.wdogDeadline ≤ s.now ∧ s.videoCap &&& ~~~s.videoDMA ≠ 0 ∧
      (s.now - s.lastFaultTime < s.cfg.tWdog ↔ n = 1049)) ∧
    (let s := { p2 with now := 50 }
     s.dev.glitch = [] ∧ s.wdogDeadline ≤ s.now ∧ s.videoCap &&& ~~~s.videoDMA = 0) := by decide

theorem test_witness_TimerEventsCompleteWithinTheirFrame :
    let s := { p2 with deferArmed := true, deferDeadline := 50, now := 50 }
    s.deferDeadline ≤ s.now ∧ s.wdogDeadline ≤ s.now := by decide

/-- A command, a section, the clock and a hardware reset, from a state with a command and an interrupt in progress. -/
theorem test_witness_StepKeepsTheInvariant :
    let s := { after (takeUp .irq { p2captured with evHeld := 1 }) with cmdTask := some (.stopFlush 0) }
    s.Inv ∧ ∀ m ∈ [Move.serve .cmd, .advance (.dispatcher 0), .advance .executor, .tick 100],
      ({ s with sched := [m] } : State).Inv ∧ goesOn (step { s with sched := [m] }) = true := by decide

theorem test_witness_InvariantStatesNeverStop :
    ({ p2ready 0 with sched := [.serve .irq], evHeld := 1 } : State).Inv := by decide

theorem test_witness_ParametersNeverChange :
    ∀ m ∈ [Move.serve .twdog, .tick 1, .drive (.dec 7) 5], goesOn (step { p2 with sched := [m] }) = true := by decide

/-- Every operation goes on from a streaming state. -/
theorem test_witness_OperationsTakeNoTime :
    ∀ i ∈ [Instr.enable 8, .disable 8, .start 0, .stop 0, .enq 0 1 1, .setfmt 0 1 1 1 .top, .rdsr 1, .irq, .tdefer,
      .twdog], goesOn (exec i p2) = true := by decide

theorem test_witness_RequestedSetChangesOnlyByStartAndStop :
    ∀ i ∈ [Instr.start 0, .stop 0, .enable 7], goesOn (exec i p2) = true ∧
      i ≠ .start (BitVec.ofNat 4 (7 : Chan).val) ∧ i ≠ .stop (BitVec.ofNat 4 (7 : Chan).val) := by decide

/-- The lowest audio bit under its neighbours' operations, and the highest reserved bit. -/
theorem test_witness_AudioAndReservedEnableBitsArePreserved :
    ∀ i ∈ [Instr.enable 7, .disable 9, .stop 0, .irq, .twdog], ∀ n ∈ [8, 31],
      p2.dev.glitch = [] ∧ goesOn (exec i p2) = true ∧ i ≠ .tdefer ∧ 8 ≤ n ∧
      (∀ id : BitVec 4, id.toNat = n → i ≠ .enable id ∧ i ≠ .disable id) := by decide

theorem test_witness_HistoryOnlyGrows : goesOn (exec (.stop 0) p2captured) = true := by decide

theorem test_witness_StickyFlagsAndCounters :
    let s := { p2ready 0 with verifyErr := true, lastFaultValid := true }
    goesOn (exec .irq s) = true ∧ s.verifyErr = true ∧ s.lastFaultValid = true ∧ (s.chan 0).alloc = true ∧
    (s.chan 0).configured = true := by decide

theorem test_witness_CommandSectionsComposeToTheOperation :
    firstTask Params.default (.start 7) = some (.startCheck 7) ∧
    firstTask Params.default (.start 8) = some (.respond .errChannel 0) ∧
    firstTask Params.default (.enq 0 0 0) = some (.respond .errRange 0) := by decide

/-- An interrupt, and a watchdog tick: its line held before the deadline, and the deadline reached. -/
theorem test_witness_EventSectionsComposeToTheOperation :
    (p2captured.irqActive = false ∧ goesOn (exec .irq { p2ready 0x01000001 with irqPhase := .idle }) = true) ∧
    (let s := { p2 with evHeld := 0b100 }
     s.wdogPending = false ∧ s.evHeld.getLsbD 2 = true ∧ s.now < s.wdogDeadline) ∧
    (let s := { p2 with now := 50 }
     s.wdogPending = false ∧ s.wdogDeadline ≤ s.now) := by decide

theorem test_witness_OneCommandAtATime :
    (after (takeUp .cmd { p2 with cmdPort := [0x11000000] })).cmdTask ≠ none := by decide

end Sys2Proof.Machine.Slice0
end

/-! ## What no section undoes

Two preorders on states. `Preserves` holds of every step but the hardware reset; `Confined` of every section of a whole
operation, which moreover leaves the clock and the operations in progress alone. Each section of the model has one lemma
below that says it is confined; statements about whole operations and steps are read off from the two. -/

namespace Sys2Proof.Machine

/-- The shadow shows the video bits of DMA_EN as long as no verification has failed (40_dma_channel_control.md R121). -/
def Shadowed (s : State) : Prop := s.verifyErr = false → s.videoDMA = videoBits s.dev.dmaEn

/-- `t` has the parameters of `s`, continues its history, clears no sticky flag (10_state.md R25), and meets the
invariant's clauses on memory, shadow and timers if `s` does. -/
structure Preserves (s t : State) : Prop where
  cfg : t.cfg = s.cfg
  hist : s.hist <+: t.hist
  verifyErr : s.verifyErr = true → t.verifyErr = true
  faultValid : s.lastFaultValid = true → t.lastFaultValid = true
  mem : Memory.wf s.mem = true → Memory.wf t.mem = true
  shadow : Shadowed s → Shadowed t
  timers : timersOk s = true → timersOk t = true

/-- `Preserves`, and the clock and the operations in progress are as before. -/
structure Confined (s t : State) : Prop extends Preserves s t where
  now : t.now = s.now
  cmdTask : t.cmdTask = s.cmdTask
  phase : t.irqPhase = s.irqPhase
  active : t.irqActive = s.irqActive

theorem Preserves.refl (s : State) : Preserves s s := ⟨rfl, List.prefix_rfl, id, id, id, id, id⟩

theorem Preserves.trans {s t u : State} (h : Preserves s t) (g : Preserves t u) : Preserves s u where
  cfg := g.cfg.trans h.cfg
  hist := h.hist.trans g.hist
  verifyErr := g.verifyErr ∘ h.verifyErr
  faultValid := g.faultValid ∘ h.faultValid
  mem := g.mem ∘ h.mem
  shadow := g.shadow ∘ h.shadow
  timers := g.timers ∘ h.timers

theorem Confined.refl (s : State) : Confined s s := ⟨.refl s, rfl, rfl, rfl, rfl⟩

theorem Confined.trans {s t u : State} (h : Confined s t) (g : Confined t u) : Confined s u where
  toPreserves := h.toPreserves.trans g.toPreserves
  now := g.now.trans h.now
  cmdTask := g.cmdTask.trans h.cmdTask
  phase := g.phase.trans h.phase
  active := g.active.trans h.active

/-! ### The registers and the history -/

theorem confined_emit (o : Obs) (s : State) : Confined s (s.emit o) :=
  ⟨⟨rfl, List.prefix_append _ _, id, id, id, id, id⟩, rfl, rfl, rfl, rfl⟩

theorem confined_regRead (n : RegName) (s : State) : Confined s (regRead n s) := confined_emit _ s

/-- A plain write of a register other than DMA_EN: ProgramBuffers and SETFMT make them. -/
theorem confined_regWrite {n : RegName} {s : State} (v : Word) (h : (regStore s.dev n v).dmaEn = s.dev.dmaEn) :
    Confined s (regWrite n v s) :=
  ⟨⟨rfl, List.prefix_append _ _, id, id, id, fun hs he => (hs he).trans (congrArg videoBits h.symm), id⟩,
    rfl, rfl, rfl, rfl⟩

/-- The shadow rule R121: a stored value that differs from the one written sets the flag. -/
theorem confined_setEnable (e : Word) (s : State) : Confined s (setEnable e s) := by
  rw [setEnable_eq]
  refine ⟨⟨rfl, List.prefix_append _ _, fun h => by simp [h], id, id, fun _ he => ?_, id⟩, rfl, rfl, rfl, rfl⟩
  simp only [Bool.or_eq_false_iff, bne_eq_false_iff_eq] at he
  exact congrArg videoBits he.2.symm

theorem confined_writeCmd (c : Word) (s : State) : Confined s (writeVerify .dmaCmd c s) := by
  rw [writeVerify_eq]
  refine ⟨⟨rfl, List.prefix_append _ _, fun h => by simp [h], id, id, fun hs he => hs ?_, id⟩, rfl, rfl, rfl, rfl⟩
  exact (Bool.or_eq_false_iff.1 he).1

theorem confined_haltIfEmpty (e : Word) (s : State) : Confined s (haltIfEmpty e s) := by
  unfold haltIfEmpty
  split
  · exact confined_writeCmd 0 s
  · exact .refl s

theorem confined_enableBits (bits : Word) (s : State) : Confined s (enableBits bits s) :=
  ((confined_regRead .dmaEn s).trans (confined_setEnable _ _)).trans (confined_writeCmd _ _)

theorem confined_disableBits (bits : Word) (s : State) : Confined s (disableBits bits s) :=
  ((confined_regRead .dmaEn s).trans (confined_setEnable _ _)).trans (confined_haltIfEmpty _ _)

theorem confined_modChan (k : Chan) (f : Ctx → Ctx) (s : State) : Confined s (s.modChan k f) :=
  ⟨⟨rfl, List.prefix_rfl, id, id, id, id, id⟩, rfl, rfl, rfl, rfl⟩

theorem confined_videoCap (m : Mask) (s : State) : Confined s { s with videoCap := m } :=
  ⟨⟨rfl, List.prefix_rfl, id, id, id, id, id⟩, rfl, rfl, rfl, rfl⟩

theorem confined_lat (l : Latches) (s : State) : Confined s { s with lat := l } :=
  ⟨⟨rfl, List.prefix_rfl, id, id, id, id, id⟩, rfl, rfl, rfl, rfl⟩

/-! ### Sections of the host commands -/

theorem confined_programStep (k : Chan) (s : State) (j : Nat) : Confined s (programStep k s j) := by
  unfold programStep
  split
  · exact confined_regWrite _ rfl
  · split
    · exact confined_regWrite _ rfl
    · exact confined_modChan k _ s

theorem confined_programBuffers (k : Chan) (s : State) : Confined s (programBuffers k s) :=
  List.foldlRecOn _ _ (.refl s) fun t h j _ => h.trans (confined_programStep k t j)

theorem confined_startQueueSection (k : Chan) (s : State) : Confined s (startQueueSection k s) := confined_modChan k _ s

theorem confined_startEnableSection (k : Chan) (s : State) : Confined s (startEnableSection k s) :=
  (confined_videoCap _ s).trans (confined_enableBits _ _)

theorem confined_stopDisableSection (k : Chan) (s : State) : Confined s (stopDisableSection k s) :=
  (confined_videoCap _ s).trans (confined_disableBits _ _)

theorem confined_stopFlushSection (k : Chan) (s : State) : Confined s (stopFlushSection k s) :=
  ⟨⟨rfl, List.prefix_append _ _, id, id, id, id, id⟩, rfl, rfl, rfl, rfl⟩

theorem confined_enqueueSection (k : Chan) (addr cap : Word) (s : State) :
    Confined s (enqueueSection k addr cap s) := by
  unfold enqueueSection
  split
  · exact .refl s
  · exact confined_modChan k _ s

theorem confined_setFormatSection (k : Chan) (width height : BitVec 16) (bpp : BitVec 3) (mode : FieldMode)
    (s : State) : Confined s (setFormatSection k width height bpp mode s) := by
  unfold setFormatSection
  split
  · dsimp only
    split
    · exact (confined_modChan k _ s).trans (confined_regWrite _ rfl)
    · exact confined_modChan k _ s
  · exact .refl s

/-- Every section of a command is confined. -/
theorem confined_taskEffect (task : CmdTask) (s : State) : Confined s (taskEffect task s) :=
  match task with
  | .enable _ => confined_enableBits _ s
  | .disable _ => confined_disableBits _ s
  | .startCheck _ => .refl s
  | .startProgram k j => confined_programStep k s j
  | .startQueue k => confined_startQueueSection k s
  | .startEnable k => confined_startEnableSection k s
  | .stopDisable k => confined_stopDisableSection k s
  | .stopFlush k => confined_stopFlushSection k s
  | .enqueue k addr cap => confined_enqueueSection k addr cap s
  | .setFormat k width height bpp mode => confined_setFormatSection k width height bpp mode s
  | .readStatus _ => .refl s
  | .respond _ _ => confined_emit _ s

/-! ### Sections of the timer events -/

/-- The snapshot is given up together with the timer's arming (60_exceptions.md R257). -/
def disarm (s : State) : State := { s with pendValid := false, deferArmed := false }

theorem confined_disarm (s : State) : Confined s (disarm s) := by
  refine ⟨⟨rfl, List.prefix_rfl, id, id, id, id, fun h => ?_⟩, rfl, rfl, rfl, rfl⟩
  simp only [timersOk, disarm, Bool.and_eq_true] at h ⊢
  obtain ⟨⟨⟨-, -⟩, hfault⟩, hwdog⟩ := h
  exact ⟨⟨⟨rfl, rfl⟩, hfault⟩, hwdog⟩

/-- TDEFER's section is the verbatim restore, where there is a snapshot, and then the disarming. -/
theorem deferSection_eq (s : State) :
    deferSection s = disarm (if s.pendValid then writeVerify .dmaCmd s.pendCmd (setEnable s.pendEn s) else s) := by
  unfold deferSection
  split
  · rfl
  · next h => simp only [disarm, ← Bool.eq_false_iff.2 h]

theorem confined_deferSection (s : State) : Confined s (deferSection s) := by
  rw [deferSection_eq]
  refine Confined.trans ?_ (confined_disarm _)
  split
  · exact (confined_setEnable _ s).trans (confined_writeCmd _ _)
  · exact .refl s

theorem confined_wdogRearm (s : State) : Confined s (wdogRearm s) := by
  refine ⟨⟨rfl, List.prefix_rfl, id, id, id, id, fun h => ?_⟩, rfl, rfl, rfl, rfl⟩
  simp only [timersOk, wdogRearm, Bool.and_eq_true] at h ⊢
  exact ⟨h.1, by simp⟩

theorem confined_wdogSection (s : State) : Confined s (wdogSection s) := by
  unfold wdogSection
  split
  · exact .refl s
  · split
    · exact .refl s
    · exact confined_enableBits _ s

/-! ### Sections of the interrupt -/

theorem confined_readInt (s : State) : Confined s (readInt s) := (confined_regRead _ s).trans (confined_lat _ _)

theorem confined_readFifo (s : State) : Confined s (readFifo s) := (confined_regRead _ s).trans (confined_lat _ _)

theorem confined_readMasks (s : State) : Confined s (readMasks s) :=
  ((confined_regRead _ s).trans (confined_regRead _ _)).trans (confined_lat _ _)

theorem confined_raiseTimeout (s : State) : Confined s (raiseTimeout s) :=
  ⟨⟨rfl, List.prefix_rfl, id, id, id, id, id⟩, rfl, rfl, rfl, rfl⟩

theorem confined_audioHandOff (s : State) : Confined s (audioHandOff s) := by
  unfold audioHandOff
  split
  · exact .refl s
  · exact confined_emit _ s

theorem confined_discardInFlight (k : Chan) (s : State) : Confined s (discardInFlight k s) := by
  unfold discardInFlight
  split
  · exact confined_modChan k _ s
  · exact .refl s

/-- What section B of the reset operation records beside its register sequence: snapshot, fault time, timer
(40_dma_channel_control.md R127, R128). -/
def recordFault (m : Mask) (en cmd : Word) (s : State) : State :=
  { s with
    pendEn := en
    pendCmd := cmd
    pendValid := true
    lastResetMask := m
    lastFaultTime := s.now
    lastFaultValid := true
    deferDeadline := s.now + s.cfg.tDefer
    deferArmed := true }

/-- Section B is its register sequence and then its records: the sequence reads none of them. -/
theorem resetSection_eq (m : Mask) (s : State) :
    resetSection m s =
      recordFault m s.dev.dmaEn s.dev.dmaCmd
        (haltIfEmpty (s.dev.dmaEn &&& ~~~(m.setWidth 32))
          (setEnable (s.dev.dmaEn &&& ~~~(m.setWidth 32)) (regRead .dmaCmd (regRead .dmaEn s)))) := by
  unfold resetSection haltIfEmpty
  simp only [setEnable_eq, writeVerify_eq, recordFault, regRead, State.emit]
  split <;> rfl

theorem confined_recordFault (m : Mask) (en cmd : Word) (s : State) : Confined s (recordFault m en cmd s) := by
  refine ⟨⟨rfl, List.prefix_rfl, id, fun _ => rfl, id, id, fun h => ?_⟩, rfl, rfl, rfl, rfl⟩
  simp only [timersOk, recordFault, Bool.and_eq_true] at h ⊢
  exact ⟨by simp, h.2⟩

theorem confined_resetSection (m : Mask) (s : State) : Confined s (resetSection m s) := by
  rw [resetSection_eq]
  exact ((((confined_regRead _ s).trans (confined_regRead _ _)).trans (confined_setEnable _ _)).trans
    (confined_haltIfEmpty _ _)).trans (confined_recordFault _ _ _ _)

/-! ### The copy -/

/-- What one line's copy keeps, the copy of a field keeps. -/
theorem copyLines_keeps {P : State → Prop}
    (hline : ∀ src dst n s t, P s → copyLine src dst n s = .next t → P t) {src dst cap p off0 step : Nat} :
    ∀ (n i : Nat) (s t : State), P s → copyLines src dst cap p off0 step n i s = .next t → P t := by
  intro n
  induction n with
  | zero => intro i s t hs h; cases h; exact hs
  | succ n ih =>
    intro i s t hs h
    simp only [copyLines] at h
    split at h
    · cases h; exact hs
    · split at h
      · cases h; exact hs
      · obtain ⟨u, hu, ht⟩ := andThen_eq_next.1 h
        exact ih (i + 1) u t (hline _ _ _ s u hs hu) ht

/-- One line's copy appends the write of its destination to the history. -/
theorem copyLine_hist {src dst n : Nat} {s t : State} (h : copyLine src dst n s = .next t) : s.hist <+: t.hist := by
  obtain ⟨-, -, rfl⟩ := copyLine_eq_next.1 h
  rw [landFill_frame]
  exact List.prefix_append _ _

theorem copyField_onlyCopied {k : Chan} {f : FieldNo} {slot : Slot} {single : Bool} {buf : Entry} {s t : State}
    (h : copyField k f slot single buf s = .next t) : OnlyCopied s t := copyLines_onlyCopied _ _ _ _ h

theorem confined_copyField {k : Chan} {f : FieldNo} {slot : Slot} {single : Bool} {buf : Entry} {s t : State}
    (h : copyField k f slot single buf s = .next t) : Confined s t := by
  have hframe := copyField_onlyCopied h
  have hhist : s.hist <+: t.hist :=
    copyLines_keeps (P := fun u => s.hist <+: u.hist) (fun _ _ _ _ _ hp hl => hp.trans (copyLine_hist hl)) _ _ _ _
      List.prefix_rfl h
  have hmem : Memory.wf s.mem = true → Memory.wf t.mem = true := fun hm =>
    copyLines_keeps (P := fun u => Memory.wf u.mem = true) (fun _ _ _ _ _ hp hl => copyLine_wf hl hp) _ _ _ _ hm h
  unfold OnlyCopied at hframe
  refine ⟨⟨?_, hhist, ?_, ?_, hmem, ?_, ?_⟩, ?_, ?_, ?_, ?_⟩ <;> rw [hframe] <;> exact id

end Sys2Proof.Machine

/-! ## What happens to a context

`Served` lists everything the dispatcher's work on a channel does to its context; `Tracks` and `CountsOnce` say what the
invariant and the statistics need of it. `Manages` says what the commands and timers keep of a context. -/

namespace Sys2Proof.Machine

/-! ### The shape of a queue (10_state.md R26) -/

@[simp] theorem queueShape_nil (f : Fsm) : queueShape f [] = true ↔ f ≠ .f0Captured := by simp [queueShape]

@[simp] theorem queueShape_cons (f : Fsm) (e : Entry) (q : List Entry) :
    queueShape f (e :: q) = true ↔
      (e.bstate = .partialFill ↔ f = .f0Captured) ∧ ∀ x ∈ q, x.bstate = .queued := by
  rw [queueShape, Bool.and_eq_true, beq_iff_eq, Bool.eq_iff_iff]
  simp

/-- Outside F0_CAPTURED every buffer is QUEUED. -/
theorem queueShape_iff_queued {f : Fsm} (hf : f ≠ .f0Captured) (q : List Entry) :
    queueShape f q = true ↔ ∀ x ∈ q, x.bstate = .queued := by
  cases q with
  | nil => simp [hf]
  | cons e q => cases h : e.bstate <;> simp [hf, h]

theorem queueShape_tail {f g : Fsm} {q : List Entry} (h : queueShape f q = true) (hg : g ≠ .f0Captured) :
    queueShape g q.tail = true := by
  rw [queueShape_iff_queued hg]
  cases q with
  | nil => simp
  | cons e q => exact ((queueShape_cons f e q).1 h).2

/-- Marking the head PARTIAL is what F0_CAPTURED asks of a queue that holds a buffer. -/
theorem queueShape_markHead_partial {f : Fsm} {q : List Entry} (h : queueShape f q = true) (hq : q ≠ []) :
    queueShape .f0Captured (markHead .partialFill q) = true := by
  cases q with
  | nil => exact absurd rfl hq
  | cons e q => simpa [markHead] using ((queueShape_cons f e q).1 h).2

theorem queueShape_append {f : Fsm} {q : List Entry} {e : Entry} (h : queueShape f q = true) (he : e.bstate = .queued) :
    queueShape f (q ++ [e]) = true := by
  cases q with
  | nil => simpa [he] using h
  | cons x q =>
    obtain ⟨hx, hq⟩ := (queueShape_cons f x q).1 h
    simp only [List.cons_append, queueShape_cons, List.mem_append, List.mem_singleton]
    exact ⟨hx, fun y hy => hy.elim (hq y) fun h => h ▸ he⟩

/-! ### A well-formed context, clause by clause -/

theorem ctxOk_iff (p : Params) (c : Ctx) :
    ctxOk p c = true ↔
      c.queue.length ≤ p.qdepth ∧ (∀ e ∈ c.queue, bufInRange e.addr e.cap = true) ∧ queueShape c.fsm c.queue = true
        ∧ (c.fsm = .idle ∨ (c.configured = true ∧ c.alloc = true))
        ∧ (c.fsm = .f0Captured → c.fieldMode = .interlaced)
        ∧ (c.configured = true → fmtInRange p c.width c.height c.bpp c.fieldMode = true) := by
  simp only [ctxOk, Bool.and_eq_true, Bool.or_eq_true, decide_eq_true_eq, List.all_eq_true, beq_iff_eq, bne_iff_ne,
    Bool.not_eq_true', ← Bool.not_eq_true, ne_eq, and_assoc, ← imp_iff_not_or]

theorem startable_iff (c : Ctx) : startable c = true ↔ c.configured = true ∧ c.fsm = .idle := by simp [startable]

theorem ctxOk_reset (p : Params) : ctxOk p Ctx.reset = true := by simp [ctxOk_iff, Ctx.reset]

/-! ### What the dispatcher does to a context -/

/-- The effect of VideoChannelWork on its channel's context (60_exceptions.md R241 to R244, 42_pingpong_weaver.md R205 to
R210), case by case with the condition under which it happens. -/
inductive Served : Ctx → Ctx → Prop where
  | unchanged (c : Ctx) : Served c c
  | fifoError (c : Ctx) : Served c { c with errCnt := c.errCnt + 1 }
  | signal (c : Ctx) (lost : Bool) : Served c { c with noSignal := lost }
  | captured (c : Ctx) (slot : Slot) : c.fieldMode = .interlaced → c.fsm ≠ .idle → c.queue ≠ [] →
    Served c { c with curPB := slot, curField := .f0, queue := markHead .partialFill c.queue, fsm := .f0Captured }
  | completed (c : Ctx) (slot : Slot) (field : FieldNo) : c.fsm ≠ .idle →
    Served c { c with curPB := slot, curField := field, queue := c.queue.tail, seq := c.seq + 1, fsm := .awaitF0 }
  | mismatched (c : Ctx) : c.fsm = .f0Captured →
    Served c { dropFrame c with mismatchCnt := c.mismatchCnt + 1 }

/-- What an event keeps of every context: the invariant, and what START and SETFMT set; an idle channel stays idle. -/
structure Tracks (c d : Ctx) : Prop where
  ok : ∀ p, ctxOk p c = true → ctxOk p d = true
  alloc : d.alloc = c.alloc
  configured : d.configured = c.configured
  idle : c.fsm = .idle → d.fsm = .idle

theorem Tracks.refl (c : Ctx) : Tracks c c := ⟨fun _ => id, rfl, rfl, id⟩

theorem Tracks.trans {c d e : Ctx} (h : Tracks c d) (g : Tracks d e) : Tracks c e where
  ok p := g.ok p ∘ h.ok p
  alloc := g.alloc.trans h.alloc
  configured := g.configured.trans h.configured
  idle := g.idle ∘ h.idle

theorem Tracks.startable {c d : Ctx} (h : Tracks c d) (hc : startable c = true) : startable d = true := by
  rw [startable_iff] at hc ⊢
  exact ⟨h.configured.trans hc.1, h.idle hc.2⟩

theorem tracks_dropFrame {c : Ctx} (h : c.fsm = .f0Captured) : Tracks c (dropFrame c) :=
  ⟨fun _ hc => ctxOk_dropFrame hc h, rfl, rfl, fun hi => by simp [h] at hi⟩

theorem tracks_timedOut (c : Ctx) : Tracks c { c with timeoutCnt := c.timeoutCnt + 1 } := ⟨fun _ => id, rfl, rfl, id⟩

theorem length_markHead (b : BufState) (q : List Entry) : (markHead b q).length = q.length := by
  cases q <;> rfl

/-- Marking the head moves no buffer. -/
theorem bufInRange_markHead {b : BufState} {q : List Entry} (h : ∀ e ∈ q, bufInRange e.addr e.cap = true) :
    ∀ e ∈ markHead b q, bufInRange e.addr e.cap = true := by
  cases q with
  | nil => exact h
  | cons x q => simpa [markHead] using h

/-- Serving a channel keeps its context well formed. -/
theorem Served.tracks {c d : Ctx} (h : Served c d) : Tracks c d := by
  cases h with
  | unchanged => exact .refl c
  | fifoError => exact ⟨fun _ => id, rfl, rfl, id⟩
  | signal => exact ⟨fun _ => id, rfl, rfl, id⟩
  | captured slot hmode hrun hq =>
    refine ⟨fun p hc => ?_, rfl, rfl, fun hi => absurd hi hrun⟩
    rw [ctxOk_iff] at hc ⊢
    obtain ⟨hlen, hbuf, hshape, hset, -, hfmt⟩ := hc
    exact ⟨by simpa only [length_markHead], bufInRange_markHead hbuf, queueShape_markHead_partial hshape hq,
      .inr (hset.resolve_left hrun), fun _ => hmode, hfmt⟩
  | completed slot field hrun =>
    refine ⟨fun p hc => ?_, rfl, rfl, fun hi => absurd hi hrun⟩
    rw [ctxOk_iff] at hc ⊢
    obtain ⟨hlen, hbuf, hshape, hset, -, hfmt⟩ := hc
    exact ⟨by simpa using Nat.le_add_right_of_le hlen, fun e he => hbuf e (List.mem_of_mem_tail he),
      queueShape_tail hshape (by simp), .inr (hset.resolve_left hrun), by simp, hfmt⟩
  | mismatched hcap =>
    exact (tracks_dropFrame hcap).trans ⟨fun _ => id, rfl, rfl, id⟩

/-! ### The statistics (10_state.md R25) -/

/-- Each counter is as before or one more. -/
def CountsOnce (c d : Ctx) : Prop :=
  (d.timeoutCnt = c.timeoutCnt ∨ d.timeoutCnt = c.timeoutCnt + 1)
    ∧ (d.errCnt = c.errCnt ∨ d.errCnt = c.errCnt + 1)
    ∧ (d.mismatchCnt = c.mismatchCnt ∨ d.mismatchCnt = c.mismatchCnt + 1)

/-- All counters are as before. -/
structure SameCounts (c d : Ctx) : Prop where
  timeout : d.timeoutCnt = c.timeoutCnt
  err : d.errCnt = c.errCnt
  mismatch : d.mismatchCnt = c.mismatchCnt

theorem SameCounts.trans {c d e : Ctx} (h : SameCounts c d) (g : SameCounts d e) : SameCounts c e where
  timeout := g.timeout.trans h.timeout
  err := g.err.trans h.err
  mismatch := g.mismatch.trans h.mismatch

theorem SameCounts.countsOnce {c d : Ctx} (h : SameCounts c d) : CountsOnce c d :=
  ⟨.inl h.timeout, .inl h.err, .inl h.mismatch⟩

/-- Steps that count nothing may follow. -/
theorem CountsOnce.trans_same {c d e : Ctx} (h : CountsOnce c d) (g : SameCounts d e) : CountsOnce c e := by
  unfold CountsOnce
  rwa [g.timeout, g.err, g.mismatch]

theorem Served.countsOnce {c d : Ctx} (h : Served c d) : CountsOnce c d := by
  cases h with
  | fifoError => exact ⟨.inl rfl, .inr rfl, .inl rfl⟩
  | mismatched => exact ⟨.inl rfl, .inl rfl, .inr rfl⟩
  | _ => exact ⟨.inl rfl, .inl rfl, .inl rfl⟩

/-! ### What commands and timers do to a context -/

/-- What a command keeps of every context: the invariant under the parameters `p`, `alloc` and `configured` once set
(R312 of 70_reset_and_hazards.md), and the statistics. -/
structure Manages (p : Params) (c d : Ctx) : Prop where
  ok : ctxOk p c = true → ctxOk p d = true
  alloc : c.alloc = true → d.alloc = true
  configured : c.configured = true → d.configured = true
  counts : SameCounts c d

theorem Manages.refl (p : Params) (c : Ctx) : Manages p c c := ⟨id, id, id, ⟨rfl, rfl, rfl⟩⟩

theorem Manages.trans {p : Params} {c d e : Ctx} (h : Manages p c d) (g : Manages p d e) : Manages p c e where
  ok := g.ok ∘ h.ok
  alloc := g.alloc ∘ h.alloc
  configured := g.configured ∘ h.configured
  counts := h.counts.trans g.counts

theorem manages_allocated (p : Params) (c : Ctx) : Manages p c { c with alloc := true } := by
  refine ⟨fun hc => ?_, fun _ => rfl, id, ⟨rfl, rfl, rfl⟩⟩
  rw [ctxOk_iff] at hc ⊢
  obtain ⟨hlen, hbuf, hshape, hset, hmode, hfmt⟩ := hc
  exact ⟨hlen, hbuf, hshape, hset.imp_right fun h => ⟨h.1, rfl⟩, hmode, hfmt⟩

/-- START section 2 (41_host_stream_queue.md R158) on a channel that is configured and programmed. -/
theorem manages_started (p : Params) {c : Ctx} (hs : startable c = true) (ha : c.alloc = true) :
    Manages p c { c with seq := 0, curPB := .p, curField := .f0, fsm := .awaitF0 } := by
  obtain ⟨hconf, hidle⟩ := (startable_iff c).1 hs
  refine ⟨fun hc => ?_, id, id, ⟨rfl, rfl, rfl⟩⟩
  rw [ctxOk_iff] at hc ⊢
  obtain ⟨hlen, hbuf, hshape, -, -, hfmt⟩ := hc
  refine ⟨hlen, hbuf, ?_, .inr ⟨hconf, ha⟩, by simp, hfmt⟩
  rwa [queueShape_iff_queued (by simp [hidle])] at hshape ⊢

/-- STOP section 2 (R162, R163). -/
theorem manages_flushed (p : Params) (c : Ctx) : Manages p c { c with queue := [], fsm := .idle } := by
  refine ⟨fun hc => ?_, id, id, ⟨rfl, rfl, rfl⟩⟩
  rw [ctxOk_iff] at hc ⊢
  obtain ⟨-, -, -, -, -, hfmt⟩ := hc
  exact ⟨by simp, by simp, by simp, .inl rfl, by simp, hfmt⟩

/-- ENQ (R166): a buffer in range, and room for it. -/
theorem manages_appended (p : Params) {c : Ctx} {addr cap : Word} (hroom : c.queue.length ≠ p.qdepth)
    (hb : bufInRange addr cap = true) : Manages p c { c with queue := c.queue ++ [⟨addr, cap, .queued⟩] } := by
  refine ⟨fun hc => ?_, id, id, ⟨rfl, rfl, rfl⟩⟩
  rw [ctxOk_iff] at hc ⊢
  obtain ⟨hlen, hbuf, hshape, hrest⟩ := hc
  refine ⟨?_, ?_, queueShape_append hshape rfl, hrest⟩
  · simpa using Nat.lt_of_le_of_ne hlen hroom
  · simpa [or_imp, forall_and] using ⟨hbuf, hb⟩

/-- SETFMT (R154): a format in range, on a channel that is not streaming. -/
theorem manages_formatted {p : Params} {c : Ctx} {width height : BitVec 16} {bpp : BitVec 3} {mode : FieldMode}
    (hidle : c.fsm = .idle) (hr : fmtInRange p width height bpp mode = true) :
    Manages p c (withFormat width height bpp mode c) := by
  refine ⟨fun hc => ?_, id, fun _ => rfl, ⟨rfl, rfl, rfl⟩⟩
  rw [ctxOk_iff] at hc ⊢
  obtain ⟨hlen, hbuf, hshape, -⟩ := hc
  exact ⟨hlen, hbuf, hshape, .inl hidle, fun h => by simp [withFormat, hidle] at h, fun _ => hr⟩

end Sys2Proof.Machine

/-! ## The interrupt

What serving a channel can do to the state, what any relation that every section respects says of a whole invocation, and
the sections of the reset operation. -/

namespace Sys2Proof.Machine

/-! ### All contexts at once -/

/-- The contexts of `s` and `t` are related channel by channel. -/
def EachChan (Q : Ctx → Ctx → Prop) (s t : State) : Prop := ∀ j : Chan, Q (s.chan j) (t.chan j)

theorem eachChan_of_ch {Q : Ctx → Ctx → Prop} (hrefl : ∀ c, Q c c) {s t : State} (h : t.ch = s.ch) :
    EachChan Q s t := fun j => by
  rw [State.chan, State.chan, h]
  exact hrefl _

/-- The response record touches no context. -/
theorem eachChan_respond {Q : Ctx → Ctx → Prop} {s t : State} {status : Status} {data : Word} (h : EachChan Q s t) :
    EachChan Q s (respond status data t) := h

/-- A section that changes one context is judged by that context. -/
theorem eachChan_modChan {Q : Ctx → Ctx → Prop} (hrefl : ∀ c, Q c c) {s t : State} {k : Chan} {f : Ctx → Ctx}
    (ht : t.ch = (s.modChan k f).ch) (h : Q (s.chan k) (f (s.chan k))) : EachChan Q s t := fun j => by
  have hj : t.chan j = (s.modChan k f).chan j := congrArg (·.get j) ht
  rw [hj, chan_modChan]
  split
  · next hj => exact hj ▸ h
  · exact hrefl _

@[simp] theorem modChan_modChan (s : State) (k : Chan) (f g : Ctx → Ctx) :
    (s.modChan k f).modChan k g = s.modChan k (g ∘ f) := by simp [State.modChan]

/-! ### One channel's work -/

/-- What VideoChannelWork(k) can do: the context of `k` alone, as `Served` lists it, and of the device only the late fills
used up. -/
structure Works (k : Chan) (s t : State) : Prop extends Confined s t where
  served : Served (s.chan k) (t.chan k)
  others : ∀ j, j ≠ k → t.chan j = s.chan j
  dev : t.dev = { s.dev with lateFill := t.dev.lateFill }

theorem Works.refl (k : Chan) (s : State) : Works k s s := ⟨.refl s, .unchanged _, fun _ _ => rfl, rfl⟩

theorem Works.emit {k : Chan} {s t : State} (h : Works k s t) (o : Obs) : Works k s (t.emit o) :=
  ⟨h.toConfined.trans (confined_emit o t), h.served, h.others, h.dev⟩

theorem Works.requestReset {k : Chan} {s t : State} (h : Works k s t) (j : Chan) : Works k s (requestReset j t) :=
  ⟨h.toConfined.trans (confined_lat _ t), h.served, h.others, h.dev⟩

theorem works_modChan {k : Chan} {s : State} {f : Ctx → Ctx} (h : Served (s.chan k) (f (s.chan k))) :
    Works k s (s.modChan k f) :=
  ⟨confined_modChan k f s, by simpa using h, fun _ hj => chan_modChan_ne s f hj, rfl⟩

/-- A copy, and then a change of the channel's context. -/
theorem works_copy_modChan {k : Chan} {g : FieldNo} {slot : Slot} {single : Bool} {buf : Entry} {s t : State}
    {f : Ctx → Ctx} (hc : copyField k g slot single buf s = .next t) (h : Served (s.chan k) (f (s.chan k))) :
    Works k s (t.modChan k f) := by
  have hframe := copyField_onlyCopied hc
  have hch : ∀ j, t.chan j = s.chan j := fun j => by rw [hframe]; rfl
  refine ⟨(confined_copyField hc).trans (confined_modChan k f t), ?_, fun j hj => ?_, ?_⟩
  · rwa [chan_modChan_same, hch]
  · rw [chan_modChan_ne t f hj, hch]
  · rw [modChan_dev, hframe]

theorem works_captureField0 {k : Chan} {slot : Slot} {buf : Entry} {s t : State}
    (hmode : (s.chan k).fieldMode = .interlaced) (hrun : (s.chan k).fsm ≠ .idle) (hq : (s.chan k).queue ≠ [])
    (h : captureField0 k slot buf s = .next t) : Works k s t := by
  obtain ⟨u, hu, ht⟩ := andThen_eq_next.1 h
  cases ht
  exact works_copy_modChan hu (.captured _ slot hmode hrun hq)

theorem works_singleField {k : Chan} {f : FieldNo} {slot : Slot} {buf : Entry} {tag : FieldMode} {s t : State}
    (hrun : (s.chan k).fsm ≠ .idle) (h : singleField k f slot buf tag s = .next t) : Works k s t := by
  obtain ⟨u, hu, ht⟩ := andThen_eq_next.1 h
  cases ht
  rw [complete, modChan_modChan]
  exact (works_copy_modChan hu (.completed _ slot f hrun)).emit _

/-- The slot latched with field 0 stays latched when field 1 completes the frame (R206). -/
theorem works_weaveField1 {k : Chan} {slot : Slot} {buf : Entry} {s t : State} (hrun : (s.chan k).fsm ≠ .idle)
    (h : weaveField1 k slot buf s = .next t) : Works k s t := by
  obtain ⟨u, hu, ht⟩ := andThen_eq_next.1 h
  cases ht
  rw [complete, modChan_modChan]
  exact (works_copy_modChan hu (.completed _ (s.chan k).curPB .f1 hrun)).emit _

theorem works_mismatch {k : Chan} {s : State} (h : (s.chan k).fsm = .f0Captured) : Works k s (mismatch k s) := by
  rw [mismatch, raiseFault, modChan_modChan]
  exact (works_modChan (.mismatched _ h)).requestReset k

/-- A field event on a streaming channel with a buffer queued. -/
theorem works_fieldEvent {k : Chan} {field : FieldNo} {slot : Slot} {buf : Entry} {s t : State}
    (hrun : (s.chan k).fsm ≠ .idle) (hq : (s.chan k).queue ≠ []) (h : fieldEvent k field slot buf s = .next t) :
    Works k s t := by
  unfold fieldEvent at h
  dsimp only at h
  split at h
  · next hmode =>
    split at h
    · next hcap =>
      split at h
      · exact works_weaveField1 hrun h
      · cases h; exact works_mismatch hcap
    · split at h
      · exact works_captureField0 hmode hrun hq h
      · cases h; exact .refl k s
  · split at h
    · exact works_singleField hrun h
    · cases h; exact .refl k s
  · split at h
    · exact works_singleField hrun h
    · cases h; exact .refl k s
  · exact works_singleField hrun h

/-- VideoChannelWork(k), the checks of R241 to R244 in order. -/
theorem works_channelWork {k : Chan} {s t : State} (h : channelWork k s = .next t) : Works k s t := by
  unfold channelWork at h
  dsimp only at h
  split at h
  · cases h; exact (works_modChan (.fifoError _)).requestReset k
  split at h
  · cases h; exact works_modChan (.signal _ true)
  split at h
  · cases h; exact (works_modChan (.signal _ false)).requestReset k
  split at h
  · cases h; exact .refl k s
  next hrun =>
    split at h
    · cases h; exact .refl k s
    · next hq => exact works_fieldEvent hrun (by simp [hq]) h

theorem Works.tracks {k : Chan} {s t : State} (h : Works k s t) : EachChan Tracks s t := fun j => by
  by_cases hj : j = k
  · exact hj ▸ h.served.tracks
  · rw [h.others j hj]; exact .refl _

/-- A loop over distinct channels, each body confined to its own channel's context, serves each context at most once. -/
theorem forChans_served {m : Mask} :
    ∀ (ks : List Chan) (s t : State), ks.Nodup → forChans m channelWork ks s = .next t →
      ∀ j, (j ∈ ks → Served (s.chan j) (t.chan j)) ∧ (j ∉ ks → t.chan j = s.chan j) := by
  intro ks
  induction ks with
  | nil => intro s t _ h j; cases h; simp
  | cons k ks ih =>
    intro s t hnodup h j
    obtain ⟨hk, hks⟩ := List.nodup_cons.1 hnodup
    simp only [forChans] at h
    split at h
    · obtain ⟨u, hu, ht⟩ := andThen_eq_next.1 h
      have hw := works_channelWork hu
      obtain ⟨hin, hout⟩ := ih u t hks ht j
      by_cases hj : j = k
      · subst hj
        rw [hout hk]
        exact ⟨fun _ => hw.served, by simp⟩
      · rw [← hw.others j hj]
        simpa [hj] using ⟨hin, hout⟩
    · obtain ⟨hin, hout⟩ := ih s t hks h j
      by_cases hj : j = k
      · subst hj
        rw [hout hk]
        exact ⟨fun _ => .unchanged _, by simp⟩
      · simpa [hj] using ⟨hin, hout⟩

/-! ### A whole invocation -/

/-- The state in which an invocation is classified: entered, and both status registers of P1 read. -/
def classified (s : State) : State := readFifo (readInt (irqEnter s))

/-- The three courses of an invocation (60_exceptions.md R233): not ours, timed out, data. -/
theorem dispatch_cases {s t : State} (h : dispatch s = .next t) :
    t = irqLeave (classified s)
      ∨ t = irqLeave (resetPhase (raiseTimeout (classified s)))
      ∨ ∃ u,
          forChans (latchedReady (readMasks (classified s))) channelWork allChans (readMasks (classified s)) = .next u
          ∧ t = irqLeave (resetPhase (audioHandOff u)) := by
  unfold dispatch at h
  dsimp only at h
  split at h
  · cases h; exact .inl rfl
  split at h
  · cases h; exact .inr (.inl rfl)
  obtain ⟨v, hv, ht⟩ := andThen_eq_next.1 h
  obtain ⟨u, hu, huv⟩ := andThen_eq_next.1 hv
  cases huv; cases ht
  exact .inr (.inr ⟨u, hu, rfl⟩)

/-- A preorder that every section of an interrupt invocation respects. -/
structure InterruptClosed (R : State → State → Prop) : Prop where
  refl : ∀ s, R s s
  trans : ∀ {s t u}, R s t → R t u → R s u
  readInt : ∀ s, R s (readInt s)
  readFifo : ∀ s, R s (readFifo s)
  timeout : ∀ s, R s (raiseTimeout s)
  masks : ∀ s, R s (readMasks s)
  work : ∀ {k s t}, Works k s t → R s t
  audio : ∀ s, R s (audioHandOff s)
  discard : ∀ k s, R s (discardInFlight k s)
  resetRegs : ∀ m s, R s (resetSection m s)

theorem InterruptClosed.discardAll {R : State → State → Prop} (hR : InterruptClosed R) (m : Mask) (s : State) :
    R s (discardAll m s) :=
  List.foldlRecOn _ _ (hR.refl s) fun t h k _ => by
    split
    · exact hR.trans h (hR.discard k t)
    · exact h

theorem InterruptClosed.resetPhase {R : State → State → Prop} (hR : InterruptClosed R) (s : State) :
    R s (resetPhase s) := by
  unfold Machine.resetPhase
  split
  · exact hR.refl s
  · exact hR.trans (hR.discardAll _ s) (hR.resetRegs _ _)

/-- A whole invocation is related to its entry, up to its end. -/
theorem InterruptClosed.dispatch {R : State → State → Prop} (hR : InterruptClosed R) {s t : State}
    (h : dispatch s = .next t) : ∃ u, R (irqEnter s) u ∧ t = irqLeave u := by
  have hclass : R (irqEnter s) (classified s) := hR.trans (hR.readInt _) (hR.readFifo _)
  obtain rfl | rfl | ⟨u, hu, rfl⟩ := dispatch_cases h
  · exact ⟨_, hclass, rfl⟩
  · exact ⟨_, hR.trans hclass (hR.trans (hR.timeout _) (hR.resetPhase _)), rfl⟩
  · have hloop : R (irqEnter s) u :=
      forChans_keeps (fun _ _ _ hr hw => hR.trans hr (hR.work (works_channelWork hw))) _ _ _
        (hR.trans hclass (hR.masks _)) hu
    exact ⟨_, hR.trans hloop (hR.trans (hR.audio _) (hR.resetPhase _)), rfl⟩

/-! ### The phases of an invocation taken section by section -/

theorem resetPhaseOf_ne_idle (s : State) : resetPhaseOf s ≠ .idle := by unfold resetPhaseOf; split <;> simp

theorem audioPhaseOf_ne_idle (s : State) : audioPhaseOf s ≠ .idle := by
  unfold audioPhaseOf; split
  · exact resetPhaseOf_ne_idle s
  · simp

theorem channelPhaseOf_ne_idle (s : State) (m : Mask) : channelPhaseOf s m ≠ .idle := by
  unfold channelPhaseOf; split
  · exact audioPhaseOf_ne_idle s
  · simp

theorem classPhaseOf_ne_idle (s : State) : classPhaseOf s ≠ .idle := by
  unfold classPhaseOf; split
  · simp
  · split <;> simp

theorem discardPhaseOf_ne_idle (m : Mask) : discardPhaseOf m ≠ .idle := by unfold discardPhaseOf; split <;> simp

/-- The dispatcher's next section: none while no invocation is in progress, the end of the invocation, or a section that
leaves it in a next phase. -/
theorem InterruptClosed.advance {R : State → State → Prop} (hR : InterruptClosed R) {pick : Nat} {s t : State}
    (h : advanceDispatcher pick s = .next t) :
    t = s ∨ t = (irqLeave s).phase (fun _ => .idle)
      ∨ s.irqPhase ≠ .idle ∧ ∃ u f, R s u ∧ f u ≠ .idle ∧ t = u.phase f := by
  unfold advanceDispatcher at h
  split at h
  case h_1 => cases h; exact .inl rfl
  case h_2 hp => cases h; exact .inr (.inr ⟨by simp [hp], _, _, hR.readInt s, by simp, rfl⟩)
  case h_3 hp => cases h; exact .inr (.inr ⟨by simp [hp], _, _, hR.readFifo s, classPhaseOf_ne_idle _, rfl⟩)
  case h_4 hp => cases h; exact .inr (.inr ⟨by simp [hp], _, _, hR.timeout s, resetPhaseOf_ne_idle _, rfl⟩)
  case h_5 hp => cases h; exact .inr (.inr ⟨by simp [hp], _, _, hR.masks s, by simp, rfl⟩)
  case h_6 hp => cases h; exact .inr (.inr ⟨by simp [hp], _, _, hR.refl s, channelPhaseOf_ne_idle _ _, rfl⟩)
  case h_7 m hp =>
    refine .inr (.inr ⟨by simp [hp], ?_⟩)
    split at h
    · cases h; exact ⟨_, _, hR.refl s, audioPhaseOf_ne_idle _, rfl⟩
    · obtain ⟨u, hu, ht⟩ := andThen_eq_next.1 h
      cases ht
      exact ⟨_, _, hR.work (works_channelWork hu), channelPhaseOf_ne_idle _ _, rfl⟩
  case h_8 hp => cases h; exact .inr (.inr ⟨by simp [hp], _, _, hR.audio s, resetPhaseOf_ne_idle _, rfl⟩)
  case h_9 m hp =>
    refine .inr (.inr ⟨by simp [hp], ?_⟩)
    split at h
    · cases h; exact ⟨_, _, hR.refl s, by simp, rfl⟩
    · cases h; exact ⟨_, _, hR.discard _ s, discardPhaseOf_ne_idle _, rfl⟩
  case h_10 hp => cases h; exact .inr (.inr ⟨by simp [hp], _, _, hR.resetRegs _ s, by simp, rfl⟩)
  case h_11 => cases h; exact .inr (.inl rfl)

/-! ### The sections of an event keep every context in order -/

/-- What every section of an event keeps. -/
structure EventKeeps (s t : State) : Prop extends Confined s t where
  chans : EachChan Tracks s t

theorem EventKeeps.of_ch {s t : State} (h : Confined s t) (hch : t.ch = s.ch) : EventKeeps s t :=
  ⟨h, eachChan_of_ch .refl hch⟩

@[simp] theorem setEnable_ch (e : Word) (s : State) : (setEnable e s).ch = s.ch := by rw [setEnable_onlyDma e s]

@[simp] theorem writeCmd_ch (c : Word) (s : State) : (writeVerify .dmaCmd c s).ch = s.ch := by rw [writeCmd_onlyDma c s]

@[simp] theorem haltIfEmpty_ch (e : Word) (s : State) : (haltIfEmpty e s).ch = s.ch := by rw [haltIfEmpty_onlyDma e s]

@[simp] theorem enableBits_ch (bits : Word) (s : State) : (enableBits bits s).ch = s.ch := by
  rw [enableBits_onlyDma bits s]

@[simp] theorem disableBits_ch (bits : Word) (s : State) : (disableBits bits s).ch = s.ch := by
  rw [disableBits_onlyDma bits s]

@[simp] theorem audioHandOff_ch (s : State) : (audioHandOff s).ch = s.ch := by unfold audioHandOff; split <;> rfl

@[simp] theorem resetSection_ch (m : Mask) (s : State) : (resetSection m s).ch = s.ch := by
  simp [resetSection_eq, recordFault]

@[simp] theorem deferSection_ch (s : State) : (deferSection s).ch = s.ch := by
  rw [deferSection_eq, disarm]
  split <;> simp

@[simp] theorem wdogSection_ch (s : State) : (wdogSection s).ch = s.ch := by
  unfold wdogSection
  split
  · rfl
  · split <;> simp

theorem tracks_discardInFlight (k : Chan) (s : State) : EachChan Tracks s (discardInFlight k s) := by
  unfold discardInFlight
  split
  · next h => exact eachChan_modChan .refl rfl (tracks_dropFrame h)
  · exact eachChan_of_ch .refl rfl

theorem eventKeeps_closed : InterruptClosed EventKeeps where
  refl s := .of_ch (.refl s) rfl
  trans h g := ⟨h.toConfined.trans g.toConfined, fun j => (h.chans j).trans (g.chans j)⟩
  readInt s := .of_ch (confined_readInt s) rfl
  readFifo s := .of_ch (confined_readFifo s) rfl
  timeout s := ⟨confined_raiseTimeout s, fun j => by rw [chan_raiseTimeout]; exact tracks_timedOut _⟩
  masks s := .of_ch (confined_readMasks s) rfl
  work h := ⟨h.toConfined, h.tracks⟩
  audio s := .of_ch (confined_audioHandOff s) (audioHandOff_ch s)
  discard k s := ⟨confined_discardInFlight k s, tracks_discardInFlight k s⟩
  resetRegs m s := .of_ch (confined_resetSection m s) (resetSection_ch m s)

/-- IRQ keeps what its sections keep: `irq_active` is set at the entry and cleared at the end (R233). -/
theorem eventKeeps_execIrq {s t : State} (h : execIrq s = .next t) : EventKeeps s t := by
  unfold execIrq at h
  split at h
  · cases h; exact .of_ch ⟨⟨rfl, List.prefix_rfl, id, id, id, id, id⟩, rfl, rfl, rfl, rfl⟩ rfl
  · next hactive =>
    obtain ⟨u, hu, rfl⟩ := eventKeeps_closed.dispatch h
    exact { hu with active := (Bool.eq_false_iff.2 hactive).symm }

/-- The timer events touch no context. -/
theorem execTdefer_ch {s t : State} (h : execTdefer s = .next t) : t.ch = s.ch := by
  unfold execTdefer at h
  split at h <;> cases h
  · exact deferSection_ch s
  · rfl

theorem execTwdog_ch {s t : State} (h : execTwdog s = .next t) : t.ch = s.ch := by
  unfold execTwdog at h
  split at h <;> cases h
  · exact wdogSection_ch _
  · rfl

theorem eventKeeps_execTdefer {s t : State} (h : execTdefer s = .next t) : EventKeeps s t := by
  refine .of_ch ?_ (execTdefer_ch h)
  unfold execTdefer at h
  split at h <;> cases h
  · exact confined_deferSection s
  · exact .refl s

theorem eventKeeps_execTwdog {s t : State} (h : execTwdog s = .next t) : EventKeeps s t := by
  refine .of_ch ?_ (execTwdog_ch h)
  unfold execTwdog at h
  split at h <;> cases h
  · exact (confined_wdogRearm s).trans (confined_wdogSection _)
  · exact .refl s

end Sys2Proof.Machine

/-! ## Whole operations and single sections of commands -/

namespace Sys2Proof.Machine

/-! ### Commands -/

/-- Steps 0 to 4 of ProgramBuffers write registers; the last sets `alloc` (41_host_stream_queue.md R156). -/
theorem programStep_ch (k : Chan) (s : State) (j : Nat) :
    (programStep k s j).ch = if j < 5 then s.ch else (s.modChan k fun c => { c with alloc := true }).ch := by
  unfold programStep
  split
  · next h => rw [if_pos (by omega)]; rfl
  · split
    · next h => rw [if_pos (by omega)]; rfl
    · rw [if_neg (by omega)]

theorem programBuffers_ch (k : Chan) (s : State) :
    (programBuffers k s).ch = (s.modChan k fun c => { c with alloc := true }).ch := by
  simp [programBuffers, programStep_ch]

@[simp] theorem startEnableSection_ch (k : Chan) (s : State) : (startEnableSection k s).ch = s.ch := by
  simp [startEnableSection]

@[simp] theorem stopDisableSection_ch (k : Chan) (s : State) : (stopDisableSection k s).ch = s.ch := by
  simp [stopDisableSection]

theorem stopFlushSection_ch (k : Chan) (s : State) :
    (stopFlushSection k s).ch = (s.modChan k fun c => { c with queue := [], fsm := .idle }).ch := by
  simp [stopFlushSection, flushAll]

/-- Sections one after the other. -/
theorem manages_trans {p : Params} {s t u : State} (h : EachChan (Manages p) s t) (g : EachChan (Manages p) t u) :
    EachChan (Manages p) s u := fun j => (h j).trans (g j)

theorem manages_programStep (p : Params) (k : Chan) (s : State) (j : Nat) :
    EachChan (Manages p) s (programStep k s j) := by
  by_cases hj : j < 5
  · exact eachChan_of_ch (.refl p) (by rw [programStep_ch, if_pos hj])
  · exact eachChan_modChan (.refl p) (by rw [programStep_ch, if_neg hj]) (manages_allocated p _)

theorem manages_startQueueSection (p : Params) {k : Chan} {s : State} (hs : startable (s.chan k) = true)
    (ha : (s.chan k).alloc = true) : EachChan (Manages p) s (startQueueSection k s) :=
  eachChan_modChan (.refl p) rfl (manages_started p hs ha)

theorem manages_stopFlushSection (p : Params) (k : Chan) (s : State) :
    EachChan (Manages p) s (stopFlushSection k s) :=
  eachChan_modChan (.refl p) (stopFlushSection_ch k s) (manages_flushed p _)

theorem manages_enqueueSection {k : Chan} {addr cap : Word} {s : State} (h : bufInRange addr cap = true) :
    EachChan (Manages s.cfg) s (enqueueSection k addr cap s) := by
  unfold enqueueSection
  split
  · exact eachChan_of_ch (.refl _) rfl
  · next hroom => exact eachChan_modChan (.refl _) rfl (manages_appended _ hroom h)

theorem manages_setFormatSection {k : Chan} {width height : BitVec 16} {bpp : BitVec 3} {mode : FieldMode} {s : State}
    (h : fmtInRange s.cfg width height bpp mode = true) :
    EachChan (Manages s.cfg) s (setFormatSection k width height bpp mode s) := by
  unfold setFormatSection
  split
  · next hidle =>
    refine eachChan_modChan (.refl _) ?_ (manages_formatted hidle h)
    dsimp only
    split <;> rfl
  · exact eachChan_of_ch (.refl _) rfl

/-! ### What a whole operation is -/

/-- What a host command has done when its response is due: nothing (it was rejected, or it is RDSR), or its sections one
after the other, with the checks they were taken under (41_host_stream_queue.md R154 to R172). -/
inductive CommandBody : Instr → State → State → Prop where
  | unchanged (i : Instr) (s : State) : CommandBody i s s
  | enable (id : BitVec 4) (s : State) : CommandBody (.enable id) s (enableSection id s)
  | disable (id : BitVec 4) (s : State) : CommandBody (.disable id) s (disableSection id s)
  | firstStart (ch : BitVec 4) (k : Chan) (s : State) : startable (s.chan k) = true →
    CommandBody (.start ch) s (startEnableSection k (startQueueSection k (programBuffers k s)))
  | start (ch : BitVec 4) (k : Chan) (s : State) : startable (s.chan k) = true → (s.chan k).alloc = true →
    CommandBody (.start ch) s (startEnableSection k (startQueueSection k s))
  | stop (ch : BitVec 4) (k : Chan) (s : State) :
    CommandBody (.stop ch) s (stopFlushSection k (stopDisableSection k s))
  | enq (ch : BitVec 4) (k : Chan) (addr cap : Word) (s : State) : bufInRange addr cap = true →
    CommandBody (.enq ch addr cap) s (enqueueSection k addr cap s)
  | setfmt (ch : BitVec 4) (k : Chan) (width height : BitVec 16) (bpp : BitVec 3) (mode : FieldMode) (s : State) :
    fmtInRange s.cfg width height bpp mode = true →
    CommandBody (.setfmt ch width height bpp mode) s (setFormatSection k width height bpp mode s)

theorem startChannel_body (ch : BitVec 4) (k : Chan) (s : State) :
    ∃ u status data, CommandBody (.start ch) s u ∧ startChannel k s = respond status data u := by
  unfold startChannel
  split
  · next hs =>
    by_cases ha : (s.chan k).alloc = true
    · simp only [ha, if_true]
      exact ⟨_, _, _, .start ch k s hs ha, rfl⟩
    · simp only [ha]
      exact ⟨_, _, _, .firstStart ch k s hs, rfl⟩
  · exact ⟨_, _, _, .unchanged _ s, rfl⟩

/-- A whole operation is a command's body and its response (30_encoding.md R99), or one of the three events. -/
theorem exec_cases {i : Instr} {s t : State} (h : exec i s = .next t) :
    (∃ u status data, CommandBody i s u ∧ t = respond status data u)
      ∨ (i = .irq ∧ execIrq s = .next t) ∨ (i = .tdefer ∧ execTdefer s = .next t)
      ∨ (i = .twdog ∧ execTwdog s = .next t) := by
  cases i with
  | enable id => cases h; exact .inl ⟨_, _, _, .enable id s, rfl⟩
  | disable id => cases h; exact .inl ⟨_, _, _, .disable id s, rfl⟩
  | start ch =>
    simp only [exec, execStart] at h
    split at h <;> cases h
    · exact .inl ⟨_, _, _, .unchanged _ s, rfl⟩
    · exact .inl (startChannel_body ch _ s)
  | stop ch =>
    simp only [exec, execStop] at h
    split at h <;> cases h
    · exact .inl ⟨_, _, _, .unchanged _ s, rfl⟩
    · exact .inl ⟨_, _, _, .stop ch _ s, rfl⟩
  | enq ch addr cap =>
    simp only [exec, execEnq] at h
    split at h
    · cases h; exact .inl ⟨_, _, _, .unchanged _ s, rfl⟩
    · split at h <;> cases h
      · next hb => exact .inl ⟨_, _, _, .enq ch _ addr cap s hb, rfl⟩
      · exact .inl ⟨_, _, _, .unchanged _ s, rfl⟩
  | setfmt ch width height bpp mode =>
    simp only [exec, execSetfmt] at h
    split at h
    · cases h; exact .inl ⟨_, _, _, .unchanged _ s, rfl⟩
    · split at h <;> cases h
      · next hr => exact .inl ⟨_, _, _, .setfmt ch _ width height bpp mode s hr, rfl⟩
      · exact .inl ⟨_, _, _, .unchanged _ s, rfl⟩
  | rdsr idx =>
    simp only [exec, execRdsr] at h
    split at h <;> cases h <;> exact .inl ⟨_, _, _, .unchanged _ s, rfl⟩
  | irq => exact .inr (.inl ⟨rfl, h⟩)
  | tdefer => exact .inr (.inr (.inl ⟨rfl, h⟩))
  | twdog => exact .inr (.inr (.inr ⟨rfl, h⟩))

/-! ### What a whole operation keeps -/

theorem CommandBody.manages {i : Instr} {s u : State} (h : CommandBody i s u) : EachChan (Manages s.cfg) s u := by
  cases h with
  | unchanged => exact eachChan_of_ch (.refl _) rfl
  | enable id => exact eachChan_of_ch (.refl _) (enableBits_ch _ s)
  | disable id => exact eachChan_of_ch (.refl _) (disableBits_ch _ s)
  | firstStart ch k _ hs =>
    have hprog : (programBuffers k s).chan k = { s.chan k with alloc := true } :=
      (congrArg (·.get k) (programBuffers_ch k s)).trans (by simp [State.chan])
    have hqueue := manages_startQueueSection s.cfg (s := programBuffers k s) (k := k) (by rw [hprog]; exact hs)
      (by rw [hprog])
    exact manages_trans
      (manages_trans (eachChan_modChan (.refl _) (programBuffers_ch k s) (manages_allocated _ _)) hqueue)
      (eachChan_of_ch (.refl _) (startEnableSection_ch k _))
  | start ch k _ hs ha =>
    exact manages_trans (manages_startQueueSection _ hs ha) (eachChan_of_ch (.refl _) (startEnableSection_ch k _))
  | stop ch k =>
    exact manages_trans (eachChan_of_ch (.refl _) (stopDisableSection_ch k s)) (manages_stopFlushSection _ k _)
  | enq ch k addr cap _ hb => exact manages_enqueueSection hb
  | setfmt ch k width height bpp mode _ hr => exact manages_setFormatSection hr

theorem CommandBody.confined {i : Instr} {s u : State} (h : CommandBody i s u) : Confined s u := by
  cases h with
  | unchanged => exact .refl s
  | enable id => exact confined_enableBits _ s
  | disable id => exact confined_disableBits _ s
  | firstStart ch k =>
    exact ((confined_programBuffers k s).trans (confined_startQueueSection k _)).trans
      (confined_startEnableSection k _)
  | start ch k => exact (confined_startQueueSection k s).trans (confined_startEnableSection k _)
  | stop ch k => exact (confined_stopDisableSection k s).trans (confined_stopFlushSection k _)
  | enq ch k addr cap => exact confined_enqueueSection k addr cap s
  | setfmt ch k width height bpp mode => exact confined_setFormatSection k width height bpp mode s

/-- Every operation but IRQ, which counts faults, manages the contexts; the timers leave them alone. -/
theorem manages_exec {i : Instr} {s t : State} (hi : i ≠ .irq) (h : exec i s = .next t) :
    EachChan (Manages s.cfg) s t := by
  obtain ⟨u, status, data, hu, rfl⟩ | ⟨rfl, -⟩ | ⟨rfl, h⟩ | ⟨rfl, h⟩ := exec_cases h
  · exact eachChan_respond hu.manages
  · exact absurd rfl hi
  · exact eachChan_of_ch (.refl _) (execTdefer_ch h)
  · exact eachChan_of_ch (.refl _) (execTwdog_ch h)

/-- No operation touches the parameters, the clock or another operation in progress; none clears a sticky flag, takes
back history, or breaks the invariant's clauses on memory, shadow and timers. -/
theorem confined_exec {i : Instr} {s t : State} (h : exec i s = .next t) : Confined s t := by
  obtain ⟨u, status, data, hu, rfl⟩ | ⟨rfl, h⟩ | ⟨rfl, h⟩ | ⟨rfl, h⟩ := exec_cases h
  · exact hu.confined.trans (confined_emit _ u)
  · exact (eventKeeps_execIrq h).toConfined
  · exact (eventKeeps_execTdefer h).toConfined
  · exact (eventKeeps_execTwdog h).toConfined

/-- An operation keeps every context well formed. -/
theorem ctxOk_exec {i : Instr} {s t : State} (h : exec i s = .next t) (k : Chan) (hk : ctxOk s.cfg (s.chan k) = true) :
    ctxOk s.cfg (t.chan k) = true := by
  by_cases hi : i = .irq
  · subst hi; exact ((eventKeeps_execIrq h).chans k).ok _ hk
  · exact (manages_exec hi h k).ok hk

end Sys2Proof.Machine

/-! ## The invariant through every move -/

namespace Sys2Proof.Machine

/-! ### The invariant from what was kept -/

/-- A step that preserves the invariant's data has only its contexts, the running invocation and the command in progress
to answer for. -/
theorem Preserves.inv {s t : State} (h : Preserves s t) (hs : s.Inv)
    (hctx : ∀ k, ctxOk s.cfg (s.chan k) = true → ctxOk s.cfg (t.chan k) = true)
    (hphase : t.irqActive = (t.irqPhase != .idle)) (htask : taskOk t = true) : t.Inv := by
  obtain ⟨hcfg, hctxs, hmem, hshadow, htimers, -, -⟩ := hs
  refine ⟨h.cfg ▸ hcfg, fun k => ?_, h.mem hmem, h.shadow hshadow, h.timers htimers, hphase, htask⟩
  rw [h.cfg]
  exact hctx k (hctxs k)

theorem State.Inv.phase {s : State} (hs : s.Inv) : s.irqActive = (s.irqPhase != .idle) := by
  obtain ⟨-, -, -, -, -, hphase, -⟩ := hs
  exact hphase

theorem State.Inv.task {s : State} (hs : s.Inv) : taskOk s = true := by
  obtain ⟨-, -, -, -, -, -, htask⟩ := hs
  exact htask

theorem Confined.phaseOk {s t : State} (h : Confined s t) (hs : s.Inv) : t.irqActive = (t.irqPhase != .idle) := by
  rw [h.active, h.phase]
  exact hs.phase

theorem Confined.inv {s t : State} (h : Confined s t) (hs : s.Inv)
    (hctx : ∀ k, ctxOk s.cfg (s.chan k) = true → ctxOk s.cfg (t.chan k) = true) (htask : taskOk t = true) : t.Inv :=
  h.toPreserves.inv hs hctx (h.phaseOk hs) htask

/-- The checks of a command in progress still hold after a section of an event: START's channel is still idle and
configured. -/
theorem EventKeeps.taskOk {s t : State} (h : EventKeeps s t) (hs : taskOk s = true) : taskOk t = true := by
  unfold Machine.taskOk at hs ⊢
  rw [h.cmdTask, h.cfg]
  split at hs
  · next k _ _ => exact (h.chans k).startable hs
  · next k _ =>
    rw [Bool.and_eq_true] at hs ⊢
    exact ⟨(h.chans k).startable hs.1, (h.chans k).alloc.trans hs.2⟩
  · exact hs
  · exact hs
  · rfl

theorem EventKeeps.inv {s t : State} (h : EventKeeps s t) (hs : s.Inv) : t.Inv :=
  h.toConfined.inv hs (fun k => (h.chans k).ok _) (h.taskOk hs.task)

/-- A whole command begins with none in progress, and leaves none. -/
theorem inv_execCommand {i : Instr} {s t : State} (hs : s.Inv) (hidle : s.cmdTask = none) (h : exec i s = .next t) :
    t.Inv := by
  have hc := confined_exec h
  refine hc.inv hs (ctxOk_exec h) ?_
  simp [taskOk, hc.cmdTask, hidle]

/-! ### The command executor, section by section -/

/-- A section of a command manages the contexts, given the earlier checks of that command. -/
theorem manages_taskEffect {s : State} {task : CmdTask} (htask : s.cmdTask = some task) (h : taskOk s = true) :
    EachChan (Manages s.cfg) s (taskEffect task s) := by
  simp only [taskOk, htask] at h
  cases task with
  | enable id => exact eachChan_of_ch (.refl _) (enableBits_ch _ s)
  | disable id => exact eachChan_of_ch (.refl _) (disableBits_ch _ s)
  | startCheck k => exact eachChan_of_ch (.refl _) rfl
  | startProgram k j => exact manages_programStep _ k s j
  | startQueue k =>
    obtain ⟨hstart, halloc⟩ := Bool.and_eq_true_iff.1 h
    exact manages_startQueueSection _ hstart halloc
  | startEnable k => exact eachChan_of_ch (.refl _) (startEnableSection_ch k s)
  | stopDisable k => exact eachChan_of_ch (.refl _) (stopDisableSection_ch k s)
  | stopFlush k => exact manages_stopFlushSection _ k s
  | enqueue k addr cap => exact manages_enqueueSection h
  | setFormat k width height bpp mode => exact manages_setFormatSection h
  | readStatus idx => exact eachChan_of_ch (.refl _) rfl
  | respond status data => exact eachChan_of_ch (.refl _) rfl

/-- The checks of START after one more step of ProgramBuffers: the last step has set `alloc`. -/
theorem taskOk_after_programStep {k : Chan} {j : Nat} {s : State} (h : startable (s.chan k) = true) :
    taskOk { programStep k s j with
      cmdTask := some (if j < 5 then .startProgram k (j + 1) else .startQueue k) } = true := by
  by_cases hj : j < 5
  · simp only [hj, if_true, taskOk]
    have hk : (programStep k s j).chan k = s.chan k := congrArg (·.get k) ((programStep_ch k s j).trans (if_pos hj))
    exact hk ▸ h
  · simp only [hj, if_false, taskOk]
    have hk : (programStep k s j).chan k = { s.chan k with alloc := true } :=
      (congrArg (·.get k) ((programStep_ch k s j).trans (if_neg hj))).trans (by simp [State.chan])
    exact hk ▸ Bool.and_eq_true_iff.2 ⟨h, rfl⟩

/-- The next section's checks hold once a section has been taken. -/
theorem taskOk_nextTask {s : State} {task : CmdTask} (htask : s.cmdTask = some task) (h : taskOk s = true) :
    taskOk { taskEffect task s with cmdTask := nextTask task s } = true := by
  simp only [taskOk, htask] at h
  cases task with
  | startCheck k =>
    simp only [nextTask, afterCheck, taskEffect]
    split
    · next hstart =>
      split
      · next halloc => exact Bool.and_eq_true_iff.2 ⟨hstart, halloc⟩
      · exact hstart
    · rfl
  | startProgram k j => exact taskOk_after_programStep h
  | _ => rfl

theorem inv_advanceExecutor {s : State} (hs : s.Inv) : (advanceExecutor s).Inv := by
  unfold advanceExecutor
  split
  · exact hs
  · next task htask =>
    have hc := confined_taskEffect task s
    exact Preserves.inv { hc.toPreserves with } hs (fun k => (manages_taskEffect htask hs.task k).ok) (hc.phaseOk hs)
      (taskOk_nextTask htask hs.task)

/-! ### The interrupt dispatcher and the watchdog, section by section -/

theorem inv_advanceDispatcher {pick : Nat} {s t : State} (hs : s.Inv) (h : advanceDispatcher pick s = .next t) :
    t.Inv := by
  obtain rfl | rfl | ⟨hphase, u, f, hu, hf, rfl⟩ := eventKeeps_closed.advance h
  · exact hs
  · exact Preserves.inv { Preserves.refl s with } hs (fun _ => id) rfl hs.task
  · have hactive : u.irqActive = true := hu.active.trans (hs.phase.trans (by simpa using hphase))
    exact Preserves.inv { hu.toPreserves with } hs (fun k => (hu.chans k).ok _)
      (hactive.trans (by simpa using hf)) (hu.taskOk hs.task)

theorem eventKeeps_advanceWatchdog (s : State) : EventKeeps s (advanceWatchdog s) := by
  unfold advanceWatchdog
  split
  · exact .of_ch { confined_wdogSection s with } (wdogSection_ch s)
  · exact .of_ch (.refl s) rfl

/-! ### Taking operations from the ports -/

/-- The checks on operands alone are made when a packet is taken (30_encoding.md R98). -/
theorem taskOk_firstTask (s : State) (i : Instr) : taskOk { s with cmdTask := firstTask s.cfg i } = true := by
  cases i with
  | enable id => rfl
  | disable id => rfl
  | start ch => simp only [firstTask]; cases chanOf ch <;> rfl
  | stop ch => simp only [firstTask]; cases chanOf ch <;> rfl
  | enq ch addr cap =>
    simp only [firstTask]
    cases chanOf ch with
    | none => rfl
    | some k =>
      dsimp only
      split
      · next hb => exact hb
      · rfl
  | setfmt ch width height bpp mode =>
    simp only [firstTask]
    cases chanOf ch with
    | none => rfl
    | some k =>
      dsimp only
      split
      · next hr => exact hr
      · rfl
  | rdsr idx => simp only [firstTask]; split <;> rfl
  | irq => rfl
  | tdefer => rfl
  | twdog => rfl

/-- Words leave the CMD port and a command begins: nothing else of the invariant is touched. -/
theorem inv_begin {s : State} (hs : s.Inv) (ws : List Word) {task : Option CmdTask}
    (h : taskOk { s with cmdTask := task } = true) : ({ s with cmdPort := ws, cmdTask := task } : State).Inv :=
  Preserves.inv { Preserves.refl s with } hs (fun _ => id) hs.phase h

theorem inv_takeCommand {s : State} (hs : s.Inv) : (takeCommand s).Inv := by
  unfold takeCommand
  split
  · exact hs
  · split
    · exact hs
    · next rest _ => exact inv_begin hs rest rfl
    · next i rest _ => exact inv_begin hs rest (taskOk_firstTask s i)

theorem inv_serveCommand {s t : State} (hs : s.Inv) (h : serveCommand s = .next t) : t.Inv := by
  unfold serveCommand at h
  split at h
  · cases h; exact hs
  next hidle =>
    split at h
    · cases h; exact hs
    · next rest _ =>
      cases h
      exact (confined_emit (.rsp .errIllegal 0) { s with cmdPort := rest }).inv hs (fun _ => id) hs.task
    · next rest _ => exact inv_execCommand (s := { s with cmdPort := rest }) hs (by simpa using hidle) h

/-- An event served whole keeps what its sections keep. -/
theorem eventKeeps_serveEvent {line : BitVec 3} {i : Instr} {s t : State}
    (hi : ∀ u v, exec i u = .next v → EventKeeps u v) (h : serveEvent line i s = .next t) : EventKeeps s t := by
  unfold serveEvent at h
  split at h
  · cases h; exact .of_ch (.refl s) rfl
  · have hk := hi _ _ h
    exact { hk with }

theorem inv_takeIrq {s : State} (hs : s.Inv) : (takeIrq s).Inv := by
  unfold takeIrq
  split
  · exact hs
  · exact Preserves.inv { Preserves.refl s with } hs (fun _ => id) rfl hs.task

theorem eventKeeps_takeWdog (s : State) : EventKeeps s (takeWdog s) := by
  unfold takeWdog
  split
  · exact .of_ch (.refl s) rfl
  · split
    · exact .of_ch { confined_wdogRearm s with } rfl
    · exact .of_ch { Confined.refl s with } rfl

theorem inv_serve {p : Port} {s t : State} (hs : s.Inv) (h : serve p s = .next t) : t.Inv := by
  cases p with
  | cmd => exact inv_serveCommand hs h
  | irq => exact (eventKeeps_serveEvent (i := .irq) (fun _ _ => eventKeeps_execIrq) h).inv hs
  | tdefer => exact (eventKeeps_serveEvent (i := .tdefer) (fun _ _ => eventKeeps_execTdefer) h).inv hs
  | twdog =>
    simp only [serve] at h
    split at h
    · cases h; exact hs
    · exact (eventKeeps_serveEvent (i := .twdog) (fun _ _ => eventKeeps_execTwdog) h).inv hs

theorem inv_takeUp {p : Port} {s t : State} (hs : s.Inv) (h : takeUp p s = .next t) : t.Inv := by
  cases p with
  | cmd => cases h; exact inv_takeCommand hs
  | irq => cases h; exact inv_takeIrq hs
  | tdefer => exact inv_serve (p := .tdefer) hs h
  | twdog => cases h; exact (eventKeeps_takeWdog s).inv hs

theorem inv_advance {a : Agent} {s t : State} (hs : s.Inv) (h : advance a s = .next t) : t.Inv := by
  cases a with
  | executor => cases h; exact inv_advanceExecutor hs
  | dispatcher pick => exact inv_advanceDispatcher hs h
  | watchdog => cases h; exact (eventKeeps_advanceWatchdog s).inv hs

/-! ### The environment -/

/-- Another master's write keeps memory canonical: bytes past the end of the space are dropped (log 19). -/
theorem wf_outsideWrite (addr : Nat) (bytes : List Byte) (s : State) (h : Memory.wf s.mem = true) :
    Memory.wf (outsideWrite addr bytes s).mem = true := by
  by_cases ha : addr ≤ Memory.size
  · refine Memory.wf_writeBytes _ _ h ?_
    rw [List.length_take]
    omega
  · simpa [outsideWrite, Nat.sub_eq_zero_of_le (Nat.le_of_not_le ha), Memory.writeBytes] using h

theorem confined_outsideWrite (addr : Nat) (bytes : List Byte) (s : State) : Confined s (outsideWrite addr bytes s) :=
  ⟨⟨rfl, List.prefix_rfl, id, id, wf_outsideWrite addr bytes s, id, id⟩, rfl, rfl, rfl, rfl⟩

theorem confined_driveStatus (r : StatusReg) (v : Word) (s : State) : Confined s (driveStatus r v s) := by
  cases r <;> exact { Confined.refl s with }

theorem driveStatus_ch (r : StatusReg) (v : Word) (s : State) : (driveStatus r v s).ch = s.ch := by cases r <;> rfl

/-- The clock only moves away from the last fault, and towards the deadlines. -/
theorem preserves_tick (n : Nat) (s : State) : Preserves s { s with now := s.now + n } := by
  refine { Preserves.refl s with timers := fun h => ?_ }
  simp only [timersOk, Bool.and_eq_true, Bool.or_eq_true, decide_eq_true_eq] at h ⊢
  obtain ⟨⟨hsnap, hfault⟩, hwdog⟩ := h
  exact ⟨⟨hsnap, hfault.imp_right fun h => Nat.le_add_right_of_le h⟩, by omega⟩

/-- The hardware reset keeps nothing of the block's state, and what it sets meets the invariant (R290). -/
theorem inv_hwReset {s : State} (hs : s.Inv) : (hwReset s).Inv := by
  obtain ⟨hcfg, -, hmem, -⟩ := hs
  refine ⟨hcfg, fun k => ?_, hmem, fun _ => rfl, ?_, rfl, rfl⟩
  · have hk : (hwReset s).chan k = Ctx.reset := Bank.get_fill _ k
    rw [hk]
    exact ctxOk_reset _
  · simp [timersOk, hwReset, State.reset]

/-- Every move keeps the invariant. -/
theorem inv_makeMove {m : Move} {s t : State} (hs : s.Inv) (h : makeMove m s = .next t) : t.Inv := by
  cases m with
  | offer ws => cases h; exact hs
  | raise lines => cases h; exact hs
  | tick n => cases h; exact (preserves_tick n s).inv hs (fun _ => id) hs.phase hs.task
  | drive r v =>
    cases h; exact (EventKeeps.of_ch (confined_driveStatus r v s) (driveStatus_ch r v s)).inv hs
  | fill k f slot bytes => cases h; exact (EventKeeps.of_ch (confined_outsideWrite _ _ s) rfl).inv hs
  | lateFills items => cases h; exact hs
  | glitches items => cases h; exact hs
  | consumer addr bytes => cases h; exact (EventKeeps.of_ch (confined_outsideWrite _ _ s) rfl).inv hs
  | hwReset => cases h; exact inv_hwReset hs
  | serve p => exact inv_serve hs h
  | take p => exact inv_takeUp hs h
  | advance a => exact inv_advance hs h

/-- Settles O49: the invariant does not speak of the schedule, and every move keeps it. -/
theorem stepKeepsTheInvariant : Obligations.StepKeepsTheInvariant := by
  intro s t hs h
  unfold step at h
  split at h
  · cases h; exact hs
  · next rest _ => exact inv_makeMove (s := { s with sched := rest }) hs h

/-- Settles O48: every context is the reset context, which is well formed under any parameters. -/
theorem resetMeetsTheInvariant : Obligations.ResetMeetsTheInvariant := by
  refine ⟨rfl, fun k => ?_, rfl, fun _ => rfl, rfl, rfl, rfl⟩
  have hk : State.reset.chan k = Ctx.reset := Bank.get_fill _ k
  rw [hk]
  exact ctxOk_reset _

end Sys2Proof.Machine

/-! ## What every operation and every step keeps -/

namespace Sys2Proof.Machine

/-! ### Steps -/

theorem preserves_serveEvent {line : BitVec 3} {i : Instr} {s t : State} (h : serveEvent line i s = .next t) :
    Preserves s t := by
  unfold serveEvent at h
  split at h
  · cases h; exact .refl s
  · have hk := (confined_exec h).toPreserves
    exact { hk with }

theorem preserves_serve {p : Port} {s t : State} (h : serve p s = .next t) : Preserves s t := by
  cases p with
  | cmd =>
    simp only [serve, serveCommand] at h
    split at h
    · cases h; exact .refl s
    split at h
    · cases h; exact .refl s
    · cases h; exact { (confined_emit (.rsp .errIllegal 0) s).toPreserves with }
    · have hk := (confined_exec h).toPreserves
      exact { hk with }
  | irq => exact preserves_serveEvent h
  | tdefer => exact preserves_serveEvent h
  | twdog =>
    simp only [serve] at h
    split at h
    · cases h; exact .refl s
    · exact preserves_serveEvent h

theorem preserves_takeUp {p : Port} {s t : State} (h : takeUp p s = .next t) : Preserves s t := by
  cases p with
  | cmd =>
    cases h
    unfold takeCommand
    split
    · exact .refl s
    · split <;> exact { Preserves.refl s with }
  | irq =>
    cases h
    unfold takeIrq
    split <;> exact { Preserves.refl s with }
  | tdefer => exact preserves_serve (p := .tdefer) h
  | twdog => cases h; exact (eventKeeps_takeWdog s).toPreserves

theorem preserves_advance {a : Agent} {s t : State} (h : advance a s = .next t) : Preserves s t := by
  cases a with
  | executor =>
    cases h
    unfold advanceExecutor
    split
    · exact .refl s
    · next task _ => exact { (confined_taskEffect task s).toPreserves with }
  | dispatcher pick =>
    obtain rfl | rfl | ⟨-, u, f, hu, -, rfl⟩ := eventKeeps_closed.advance h
    · exact .refl t
    · exact { Preserves.refl s with }
    · exact { hu.toPreserves with }
  | watchdog => cases h; exact (eventKeeps_advanceWatchdog s).toPreserves

/-- Every move but the hardware reset. -/
theorem preserves_makeMove {m : Move} {s t : State} (hm : m ≠ .hwReset) (h : makeMove m s = .next t) :
    Preserves s t := by
  cases m with
  | offer ws => cases h; exact { Preserves.refl s with }
  | raise lines => cases h; exact { Preserves.refl s with }
  | tick n => cases h; exact preserves_tick n s
  | drive r v => cases h; exact (confined_driveStatus r v s).toPreserves
  | fill k f slot bytes => cases h; exact (confined_outsideWrite _ _ s).toPreserves
  | lateFills items => cases h; exact { Preserves.refl s with }
  | glitches items => cases h; exact { Preserves.refl s with }
  | consumer addr bytes => cases h; exact (confined_outsideWrite _ _ s).toPreserves
  | hwReset => exact absurd rfl hm
  | serve p => exact preserves_serve h
  | take p => exact preserves_takeUp h
  | advance a => exact preserves_advance h

/-- Settles O51: the hardware reset keeps the parameters too. -/
theorem parametersNeverChange : Obligations.ParametersNeverChange := by
  intro s t h
  unfold step at h
  split at h
  · cases h; rfl
  · next m rest _ =>
    by_cases hm : m = .hwReset
    · subst hm; cases h; rfl
    · exact (preserves_makeMove (s := { s with sched := rest }) hm h).cfg

/-! ### Operations -/

/-- Settles O55: every section only appends. -/
theorem historyOnlyGrows : Obligations.HistoryOnlyGrows := by
  intro i s t h
  obtain ⟨obs, hobs⟩ := (confined_exec h).hist
  exact ⟨obs, hobs.symm⟩

theorem SameCounts.refl (c : Ctx) : SameCounts c c := ⟨rfl, rfl, rfl⟩

/-- Giving up an in-flight frame counts nothing (40_dma_channel_control.md R126). -/
theorem sameCounts_discardInFlight (k : Chan) (s : State) : EachChan SameCounts s (discardInFlight k s) := by
  unfold discardInFlight
  split
  · exact eachChan_modChan .refl rfl ⟨rfl, rfl, rfl⟩
  · exact eachChan_of_ch .refl rfl

theorem sameCounts_discardAll (m : Mask) (s : State) : EachChan SameCounts s (discardAll m s) :=
  List.foldlRecOn _ _ (fun _ => .refl _) fun t h k _ => by
    split
    · exact fun j => (h j).trans (sameCounts_discardInFlight k t j)
    · exact h

theorem sameCounts_resetPhase (s : State) : EachChan SameCounts s (resetPhase s) := by
  unfold resetPhase
  split
  · exact fun _ => .refl _
  · exact fun j => (sameCounts_discardAll _ s j).trans (eachChan_of_ch .refl (resetSection_ch _ _) j)

@[simp] theorem chan_irqLeave (s : State) (j : Chan) : (irqLeave s).chan j = s.chan j := rfl

@[simp] theorem readInt_ch (s : State) : (readInt s).ch = s.ch := rfl

@[simp] theorem readFifo_ch (s : State) : (readFifo s).ch = s.ch := rfl

@[simp] theorem readMasks_ch (s : State) : (readMasks s).ch = s.ch := rfl

/-- The reads of an invocation touch no context. -/
@[simp] theorem classified_ch (s : State) : (classified s).ch = s.ch := by simp [classified]

theorem chan_classified (s : State) (j : Chan) : (classified s).chan j = s.chan j :=
  congrArg (·.get j) (classified_ch s)

theorem chan_readMasks_classified (s : State) (j : Chan) : (readMasks (classified s)).chan j = s.chan j :=
  congrArg (·.get j) ((readMasks_ch _).trans (classified_ch s))

theorem mem_allChans (k : Chan) : k ∈ allChans := by fin_cases k <;> decide

/-- One invocation counts each fault of a channel at most once: the timeout for all channels, or one service of each
ready channel (60_exceptions.md R238, R241; 42_pingpong_weaver.md R207). -/
theorem countsOnce_execIrq {s t : State} (h : execIrq s = .next t) : EachChan CountsOnce s t := by
  unfold execIrq at h
  split at h
  · cases h; exact fun _ => (SameCounts.refl _).countsOnce
  intro j
  obtain rfl | rfl | ⟨u, hu, rfl⟩ := dispatch_cases h <;> rw [chan_irqLeave]
  · rw [chan_classified]
    exact (SameCounts.refl _).countsOnce
  · have htimeout : CountsOnce (s.chan j) ((raiseTimeout (classified s)).chan j) := by
      rw [chan_raiseTimeout, chan_classified]
      exact ⟨.inr rfl, .inl rfl, .inl rfl⟩
    exact htimeout.trans_same (sameCounts_resetPhase _ j)
  · obtain ⟨hserved, -⟩ := forChans_served allChans _ u (by decide) hu j
    have hwork : CountsOnce (s.chan j) (u.chan j) := by
      rw [← chan_readMasks_classified]
      exact (hserved (mem_allChans j)).countsOnce
    exact (hwork.trans_same (eachChan_of_ch .refl (audioHandOff_ch u) j)).trans_same (sameCounts_resetPhase _ j)

/-- Settles O56: IRQ counts at most once and leaves `alloc` and `configured` alone; every other operation counts nothing
and clears neither. -/
theorem stickyFlagsAndCounters : Obligations.StickyFlagsAndCounters := by
  intro i s t h
  refine ⟨(confined_exec h).verifyErr, (confined_exec h).faultValid, fun k => ?_⟩
  by_cases hi : i = .irq
  · subst hi
    have hk := (eventKeeps_execIrq h).chans k
    exact ⟨hk.alloc.trans, hk.configured.trans, countsOnce_execIrq h k⟩
  · have hk := manages_exec hi h k
    exact ⟨hk.alloc, hk.configured, hk.counts.countsOnce⟩

/-! ### Bits of DMA_EN on faithful registers -/

/-- On faithful registers bit `n` of DMA_EN is as before, and the registers are faithful still. -/
def KeepsEnableBit (n : Nat) (s t : State) : Prop :=
  s.dev.glitch = [] → t.dev.glitch = [] ∧ t.dev.dmaEn.getLsbD n = s.dev.dmaEn.getLsbD n

theorem KeepsEnableBit.trans {n : Nat} {s t u : State} (h : KeepsEnableBit n s t) (g : KeepsEnableBit n t u) :
    KeepsEnableBit n s u := fun hs => by
  obtain ⟨ht, hbit⟩ := h hs
  obtain ⟨hu, hbit'⟩ := g ht
  exact ⟨hu, hbit'.trans hbit⟩

/-- A section that leaves DMA_EN and the script of corruptions alone. -/
theorem keepsEnableBit_of_dev {n : Nat} {s t : State} (hen : t.dev.dmaEn = s.dev.dmaEn)
    (hgl : t.dev.glitch = s.dev.glitch) : KeepsEnableBit n s t := fun hs => ⟨hgl.trans hs, by rw [hen]⟩

theorem keepsEnableBit_setEnable {n : Nat} {e : Word} {s : State} (h : e.getLsbD n = s.dev.dmaEn.getLsbD n) :
    KeepsEnableBit n s (setEnable e s) := fun hs => by
  rw [setEnable_faithful e s hs]
  exact ⟨hs, h⟩

theorem keepsEnableBit_writeCmd (n : Nat) (c : Word) (s : State) : KeepsEnableBit n s (writeVerify .dmaCmd c s) :=
  fun hs => by
    rw [writeCmd_faithful c s hs]
    exact ⟨hs, rfl⟩

theorem keepsEnableBit_haltIfEmpty (n : Nat) (e : Word) (s : State) : KeepsEnableBit n s (haltIfEmpty e s) := by
  unfold haltIfEmpty
  split
  · exact keepsEnableBit_writeCmd n 0 s
  · exact keepsEnableBit_of_dev rfl rfl

/-- Merging bits without bit `n` into a register word. -/
theorem getLsbD_or_of_clear {a b : Word} {n : Nat} (h : b.getLsbD n = false) : (a ||| b).getLsbD n = a.getLsbD n := by
  simp [h]

/-- Removing bits without bit `n` from a register word. -/
theorem getLsbD_and_not_of_clear {a b : Word} {n : Nat} (h : b.getLsbD n = false) :
    (a &&& ~~~b).getLsbD n = a.getLsbD n := by
  rw [BitVec.getLsbD_and, BitVec.getLsbD_not, h]
  by_cases hn : n < 32
  · simp [hn]
  · simp [BitVec.getLsbD_of_ge a n (by omega)]

theorem keepsEnableBit_enableBits {n : Nat} {bits : Word} {s : State} (h : bits.getLsbD n = false) :
    KeepsEnableBit n s (enableBits bits s) :=
  (keepsEnableBit_setEnable (s := regRead .dmaEn s) (getLsbD_or_of_clear h)).trans (keepsEnableBit_writeCmd n _ _)

theorem keepsEnableBit_disableBits {n : Nat} {bits : Word} {s : State} (h : bits.getLsbD n = false) :
    KeepsEnableBit n s (disableBits bits s) :=
  (keepsEnableBit_setEnable (s := regRead .dmaEn s) (getLsbD_and_not_of_clear h)).trans
    (keepsEnableBit_haltIfEmpty n _ _)

/-- The response record is written to no register. -/
theorem KeepsEnableBit.respond {n : Nat} {s t : State} (h : KeepsEnableBit n s t) (status : Status) (data : Word) :
    KeepsEnableBit n s (respond status data t) := h

theorem getLsbD_wordBit_ne {k n : Nat} (h : k ≠ n) : (wordBit k).getLsbD n = false := by
  rw [wordBit, ← BitVec.twoPow_eq, BitVec.getLsbD_twoPow]
  simp [h]

/-- The video bits of a register word are bits 7:0 (10_state.md R31). -/
theorem getLsbD_setWidth_mask {m : Mask} {n : Nat} (h : 8 ≤ n) : (m.setWidth 32).getLsbD n = false := by
  simp [BitVec.getLsbD_of_ge m n h]

/-- The sections of an interrupt write DMA_EN in the reset operation only, and there the video bits only. -/
theorem keepsEnableBit_closed {n : Nat} (hn : 8 ≤ n) : InterruptClosed (KeepsEnableBit n) where
  refl _ := keepsEnableBit_of_dev rfl rfl
  trans := KeepsEnableBit.trans
  readInt _ := keepsEnableBit_of_dev rfl rfl
  readFifo _ := keepsEnableBit_of_dev rfl rfl
  timeout _ := keepsEnableBit_of_dev rfl rfl
  masks _ := keepsEnableBit_of_dev rfl rfl
  work h := keepsEnableBit_of_dev (by rw [h.dev]) (by rw [h.dev])
  audio s := by unfold audioHandOff; split <;> exact keepsEnableBit_of_dev rfl rfl
  discard k s := by unfold discardInFlight; split <;> exact keepsEnableBit_of_dev rfl rfl
  resetRegs m s := by
    rw [resetSection_eq]
    have hset := keepsEnableBit_setEnable (n := n) (s := regRead .dmaCmd (regRead .dmaEn s))
      (getLsbD_and_not_of_clear (a := s.dev.dmaEn) (getLsbD_setWidth_mask (m := m) hn))
    exact hset.trans (keepsEnableBit_haltIfEmpty n _ _)

theorem keepsEnableBit_execIrq {n : Nat} (hn : 8 ≤ n) {s t : State} (h : execIrq s = .next t) :
    KeepsEnableBit n s t := by
  unfold execIrq at h
  split at h
  · cases h; exact keepsEnableBit_of_dev rfl rfl
  · obtain ⟨u, hu, rfl⟩ := (keepsEnableBit_closed hn).dispatch h
    exact hu

theorem keepsEnableBit_execTwdog {n : Nat} (hn : 8 ≤ n) {s t : State} (h : execTwdog s = .next t) :
    KeepsEnableBit n s t := by
  unfold execTwdog at h
  split at h <;> cases h
  · unfold wdogSection
    split
    · exact keepsEnableBit_of_dev rfl rfl
    · split
      · exact keepsEnableBit_of_dev rfl rfl
      · exact keepsEnableBit_enableBits (s := wdogRearm s) (getLsbD_setWidth_mask hn)
  · exact keepsEnableBit_of_dev rfl rfl

/-- ProgramBuffers writes CH_ADDR and CH_GEOM only. -/
theorem keepsEnableBit_programBuffers (n : Nat) (k : Chan) (s : State) : KeepsEnableBit n s (programBuffers k s) :=
  List.foldlRecOn _ _ (keepsEnableBit_of_dev rfl rfl) fun t h j _ => h.trans <| by
    unfold programStep
    split
    · exact keepsEnableBit_of_dev rfl rfl
    · split <;> exact keepsEnableBit_of_dev rfl rfl

theorem keepsEnableBit_startEnableSection {n : Nat} (hn : 8 ≤ n) (k : Chan) (s : State) :
    KeepsEnableBit n s (startEnableSection k s) :=
  keepsEnableBit_enableBits (s := { s with videoCap := s.videoCap ||| maskBit k }) (getLsbD_wordBit_ne (by omega))

theorem keepsEnableBit_stopDisableSection {n : Nat} (hn : 8 ≤ n) (k : Chan) (s : State) :
    KeepsEnableBit n s (stopDisableSection k s) :=
  keepsEnableBit_disableBits (s := { s with videoCap := s.videoCap &&& ~~~maskBit k }) (getLsbD_wordBit_ne (by omega))

theorem keepsEnableBit_enqueueSection (n : Nat) (k : Chan) (addr cap : Word) (s : State) :
    KeepsEnableBit n s (enqueueSection k addr cap s) := by
  unfold enqueueSection
  split <;> exact keepsEnableBit_of_dev rfl rfl

theorem keepsEnableBit_setFormatSection (n : Nat) (k : Chan) (width height : BitVec 16) (bpp : BitVec 3)
    (mode : FieldMode) (s : State) : KeepsEnableBit n s (setFormatSection k width height bpp mode s) := by
  unfold setFormatSection
  split
  · dsimp only
    split <;> exact keepsEnableBit_of_dev rfl rfl
  · exact keepsEnableBit_of_dev rfl rfl

/-- A command writes DMA_EN through one of the two register sequences, with its own channel's bit. -/
theorem CommandBody.keepsEnableBit {i : Instr} {s u : State} {n : Nat} (hn : 8 ≤ n)
    (hid : ∀ id : BitVec 4, id.toNat = n → i ≠ .enable id ∧ i ≠ .disable id) (h : CommandBody i s u) :
    KeepsEnableBit n s u := by
  have hqueue (k : Chan) (v : State) : KeepsEnableBit n v (startQueueSection k v) := keepsEnableBit_of_dev rfl rfl
  have hflush (k : Chan) (v : State) : KeepsEnableBit n v (stopFlushSection k v) := keepsEnableBit_of_dev rfl rfl
  cases h with
  | unchanged => exact keepsEnableBit_of_dev rfl rfl
  | enable id => exact keepsEnableBit_enableBits (getLsbD_wordBit_ne fun he => (hid id he).1 rfl)
  | disable id => exact keepsEnableBit_disableBits (getLsbD_wordBit_ne fun he => (hid id he).2 rfl)
  | firstStart ch k =>
    exact ((keepsEnableBit_programBuffers n k s).trans (hqueue k _)).trans (keepsEnableBit_startEnableSection hn k _)
  | start ch k => exact (hqueue k s).trans (keepsEnableBit_startEnableSection hn k _)
  | stop ch k => exact (keepsEnableBit_stopDisableSection hn k s).trans (hflush k _)
  | enq ch k addr cap => exact keepsEnableBit_enqueueSection n k addr cap s
  | setfmt ch k width height bpp mode => exact keepsEnableBit_setFormatSection n k width height bpp mode s

/-- Settles O54: a command writes its own bit of DMA_EN, an interrupt and the watchdog write video bits. -/
theorem audioAndReservedEnableBitsArePreserved : Obligations.AudioAndReservedEnableBitsArePreserved := by
  intro i s t n hg h hi hn hid
  suffices hk : KeepsEnableBit n s t from (hk hg).2
  obtain ⟨u, status, data, hu, rfl⟩ | ⟨rfl, h⟩ | ⟨rfl, -⟩ | ⟨rfl, h⟩ := exec_cases h
  · exact (hu.keepsEnableBit hn hid).respond status data
  · exact keepsEnableBit_execIrq hn h
  · exact absurd rfl hi
  · exact keepsEnableBit_execTwdog hn h

/-! ### Reset -/

/-- Settles O1: `State.reset` is written with these values. -/
theorem resetGivesTheListedValues : Obligations.ResetGivesTheListedValues :=
  ⟨Bank.get_fill Ctx.reset, rfl, rfl, rfl, rfl, rfl, rfl, rfl, rfl, rfl, rfl, rfl, rfl, rfl, rfl, rfl, rfl⟩

end Sys2Proof.Machine

/-! ## The status-register space (10_state.md R37, 41_host_stream_queue.md R172) -/

namespace Sys2Proof.Machine

/-! ### Register words as numbers -/

/-- Fields side by side are a number in mixed radix. -/
theorem toNat_append_add {n m : Nat} (x : BitVec n) (y : BitVec m) : (x ++ y).toNat = x.toNat * 2 ^ m + y.toNat := by
  rw [BitVec.toNat_append, ← Nat.shiftLeft_add_eq_or_of_lt y.isLt, Nat.shiftLeft_eq]

@[simp] theorem toNat_flag (b : Bool) : (flag b).toNat = b.toNat := by cases b <;> rfl

@[simp] theorem toNat_slotCode (s : Slot) : s.code.toNat = s.num := by cases s <;> rfl

@[simp] theorem toNat_fieldCode (f : FieldNo) : f.code.toNat = f.num := by cases f <;> rfl

/-- CH_STATUS (R37 sel 0). -/
theorem toNat_chStatusWord (c : Ctx) :
    (chStatusWord c).toNat = c.fsm.code.toNat + 4 * c.curPB.num + 8 * c.curField.num + 16 * c.noSignal.toNat
      + 32 * c.alloc.toNat + 64 * c.configured.toNat + 256 * c.fieldMode.code.toNat + 4096 * c.bpp.toNat := by
  simp only [chStatusWord, toNat_append_add, toNat_flag, toNat_slotCode, toNat_fieldCode, BitVec.toNat_ofNat]
  omega

/-- CH_FORMAT (R37 sel 1). -/
theorem toNat_chFormatWord (c : Ctx) : (chFormatWord c).toNat = c.width.toNat + 65536 * c.height.toNat := by
  rw [chFormatWord, toNat_append_add]
  omega

/-- QSTAT (R37 sel 6). -/
theorem toNat_qstatWord (q : List Entry) :
    (qstatWord q).toNat = q.length % 256 + 256 * (headPartial q).toNat := by
  simp only [qstatWord, toNat_append_add, toNat_flag, BitVec.toNat_ofNat]
  omega

/-- CTRL_STATUS (R37 index 0x84). -/
theorem toNat_ctrlStatusWord (s : State) :
    (ctrlStatusWord s).toNat = s.pendValid.toNat + 2 * s.deferArmed.toNat + 4 * s.lastFaultValid.toNat
      + 8 * s.verifyErr.toNat + 16 * s.irqActive.toNat := by
  simp only [ctrlStatusWord, toNat_append_add, toNat_flag, BitVec.toNat_ofNat]
  omega

/-- A channel mask in bits 7:0 of a register. -/
theorem toNat_maskWord (m : Mask) : (0#24 ++ m).toNat = m.toNat := by
  rw [toNat_append_add]
  simp

/-! ### Reading an index -/

/-- RDSR of an assigned index appends its response and does nothing else. -/
theorem execRdsr_assigned {idx : BitVec 16} {s : State} (h : srAssigned idx = true) :
    exec (.rdsr idx) s = .next { s with hist := s.hist ++ [.rsp .ok (srValue s idx)] } := by
  simp only [exec, execRdsr, h, if_true]
  rfl

/-- The per-channel indices are `8 * k + sel`. -/
theorem srValue_channel (s : State) (k : Chan) {sel : Nat} (h : sel < 8) :
    srValue s (BitVec.ofNat 16 (8 * k.val + sel)) = srChannel (s.chan k) sel := by
  have hidx : (BitVec.ofNat 16 (8 * k.val + sel)).toNat = 8 * k.val + sel := by
    rw [BitVec.toNat_ofNat]
    omega
  have hk : (8 * k.val + sel) / 8 = k.val := by omega
  have hsel : (8 * k.val + sel) % 8 = sel := by omega
  simp [srValue, hidx, hk, hsel]

/-- The global indices are `0x80 + g`. -/
theorem srValue_global (s : State) {g : Nat} (h : g < 10) :
    srValue s (BitVec.ofNat 16 (0x80 + g)) = srGlobal s g := by
  have hidx : (BitVec.ofNat 16 (0x80 + g)).toNat = 0x80 + g := by
    rw [BitVec.toNat_ofNat]
    omega
  rw [srValue, hidx, dif_neg (by omega), Nat.add_sub_cancel_left]

theorem srAssigned_channel (k : Chan) {sel : Nat} (h : sel < 8) :
    srAssigned (BitVec.ofNat 16 (8 * k.val + sel)) = true := by
  simp only [srAssigned, BitVec.toNat_ofNat, Bool.or_eq_true, decide_eq_true_eq]
  omega

theorem srAssigned_global {g : Nat} (h : g < 10) : srAssigned (BitVec.ofNat 16 (0x80 + g)) = true := by
  simp only [srAssigned, BitVec.toNat_ofNat, Bool.or_eq_true, Bool.and_eq_true, decide_eq_true_eq]
  omega

/-- Settles O22: each word as a number in mixed radix. -/
theorem rdsrReadsTheChannelRegisters : Obligations.RdsrReadsTheChannelRegisters := by
  intro k s sel hsel
  refine ⟨srChannel (s.chan k) sel, ?_, ?_, ?_, ?_, ?_, ?_, ?_, ?_, ?_⟩
  · rw [execRdsr_assigned (srAssigned_channel k hsel), srValue_channel s k hsel]
  · rintro rfl; exact toNat_chStatusWord _
  · rintro rfl; exact toNat_chFormatWord _
  · rintro rfl; rfl
  · rintro rfl; rfl
  · rintro rfl; rfl
  · rintro rfl; rfl
  · rintro rfl
    refine (toNat_qstatWord _).trans ?_
    cases (s.chan k).queue with
    | nil => rfl
    | cons e q => cases h : e.bstate <;> simp [headPartial, h]
  · rintro rfl; rfl

/-- Settles O23: the masks and the control flags as numbers, the times by their low 32 bits. -/
theorem rdsrReadsTheGlobalRegisters : Obligations.RdsrReadsTheGlobalRegisters := by
  intro s g hg
  refine ⟨srGlobal s g, ?_, ?_, ?_, ?_, ?_, ?_, ?_, ?_, ?_, ?_, ?_⟩
  · rw [execRdsr_assigned (srAssigned_global hg), srValue_global s hg]
  · rintro rfl; exact toNat_maskWord _
  · rintro rfl; exact toNat_maskWord _
  · rintro rfl; rfl
  · rintro rfl; rfl
  · rintro rfl; exact toNat_ctrlStatusWord s
  · rintro rfl; exact toNat_maskWord _
  · rintro rfl; exact BitVec.toNat_ofNat _ _
  · rintro rfl; exact BitVec.toNat_ofNat _ _
  · rintro rfl; exact BitVec.toNat_ofNat _ _
  · rintro rfl; exact BitVec.toNat_ofNat _ _

end Sys2Proof.Machine

/-! ## Packets and their encodings (30_encoding.md R90 to R97)

A word `W0` is its four fields (R91), so that a row of the opcode map (R96) is a condition on the fields:
`Opc.Matches`. Decoder and encoder are compared through it. -/

namespace Sys2Proof

/-! ### The fields of W0 (R91) -/

theorem fields_append (w : Word) : w0Opc w ++ w0Rsv w ++ w0Ch w ++ w0Imm w = w :=
  calc w0Opc w ++ w0Rsv w ++ w0Ch w ++ w0Imm w
    _ = w.extractLsb' 20 12 ++ w0Ch w ++ w0Imm w :=
      congrArg (· ++ w0Ch w ++ w0Imm w) (BitVec.extractLsb'_append_extractLsb'_eq_extractLsb' rfl)
    _ = w.extractLsb' 16 16 ++ w0Imm w :=
      congrArg (· ++ w0Imm w) (BitVec.extractLsb'_append_extractLsb'_eq_extractLsb' rfl)
    _ = w.extractLsb' 0 32 := BitVec.extractLsb'_append_extractLsb'_eq_extractLsb' rfl
    _ = w := BitVec.extractLsb'_eq_self

/-- Two words with the same fields are equal. -/
theorem eq_iff_fields {v w : Word} :
    v = w ↔ w0Opc v = w0Opc w ∧ w0Rsv v = w0Rsv w ∧ w0Ch v = w0Ch w ∧ w0Imm v = w0Imm w := by
  refine ⟨fun h => h ▸ ⟨rfl, rfl, rfl, rfl⟩, fun ⟨hopc, hrsv, hch, himm⟩ => ?_⟩
  rw [← fields_append v, ← fields_append w, hopc, hrsv, hch, himm]

@[simp] theorem w0Opc_and (v w : Word) : w0Opc (v &&& w) = w0Opc v &&& w0Opc w := BitVec.extractLsb'_and

@[simp] theorem w0Rsv_and (v w : Word) : w0Rsv (v &&& w) = w0Rsv v &&& w0Rsv w := BitVec.extractLsb'_and

@[simp] theorem w0Ch_and (v w : Word) : w0Ch (v &&& w) = w0Ch v &&& w0Ch w := BitVec.extractLsb'_and

@[simp] theorem w0Imm_and (v w : Word) : w0Imm (v &&& w) = w0Imm v &&& w0Imm w := BitVec.extractLsb'_and

@[simp] theorem w0Rsv_encodeW0 (opc : BitVec 8) (ch : BitVec 4) (imm : BitVec 16) :
    w0Rsv (encodeW0 opc ch imm) = 0 := by
  apply BitVec.eq_of_getLsbD_eq
  intro i hi
  simp only [w0Rsv, encodeW0, BitVec.getLsbD_extractLsb', BitVec.getLsbD_append, hi]
  simp [show ¬ 20 + i < 16 by omega, show ¬ 20 + i - 16 < 4 by omega, show 20 + i - 16 - 4 < 4 by omega]

/-- A field of IMM is a field of the word. -/
theorem extractLsb'_w0Imm (w : Word) {start len : Nat} (h : start + len ≤ 16) :
    (w0Imm w).extractLsb' start len = w.extractLsb' start len := by
  simp [w0Imm, BitVec.extractLsb'_extractLsb'_of_le h]

/-- The operation code is what is left of the word shifted right by 24. -/
theorem ushiftRight_eq_iff_w0Opc (w : Word) (c : BitVec 8) : w >>> 24 = c.setWidth 32 ↔ w0Opc w = c := by
  simp only [← BitVec.toNat_inj, BitVec.toNat_ushiftRight, BitVec.toNat_setWidth, w0Opc, BitVec.extractLsb'_toNat,
    Nat.shiftRight_eq_div_pow]
  omega

/-! ### The rows of the opcode map (R96) -/

/-- The OPC field of the packets of an operation. -/
def Opc.code : Opc → BitVec 8
  | .enable => 0x01
  | .disable => 0x02
  | .start => 0x10
  | .stop => 0x11
  | .enq => 0x20
  | .setfmt => 0x21
  | .rdsr => 0x30

/-- The CH bits that are zero in every packet of an operation: all of them in format R. -/
def Opc.chZeros : Opc → BitVec 4
  | .rdsr => BitVec.allOnes 4
  | _ => 0

/-- The IMM bits that are zero in every packet of an operation: all but BPP and MODE in format F, none in format R. -/
def Opc.immZeros : Opc → BitVec 16
  | .setfmt => 0xFFC8
  | .rdsr => 0
  | _ => BitVec.allOnes 16

/-- The number of words of a packet of an operation (R90). -/
def Opc.words : Opc → Nat
  | .enq => 3
  | .setfmt => 2
  | _ => 1

/-- The row of an operation, made of its fields. -/
def Opc.row (op : Opc) : OpcodeRow where
  op := op
  pattern := encodeW0 op.code 0 0
  mask := BitVec.allOnes 8 ++ BitVec.allOnes 4 ++ op.chZeros ++ op.immZeros

theorem mem_opcodeTable_iff {r : OpcodeRow} : r ∈ opcodeTable ↔ ∃ op : Opc, op.row = r := by
  have htable : opcodeTable = [Opc.enable, .disable, .start, .stop, .enq, .setfmt, .rdsr].map Opc.row := by decide
  rw [htable, List.mem_map]
  exact exists_congr fun op => and_iff_right (by cases op <;> decide)

/-- An operation is what its code selects. -/
theorem Opc.code_injective : Function.Injective Opc.code := by
  intro a b h
  have hselect : ∀ op : Opc, selectOpc (encodeW0 op.code 0 0) = some op := by
    intro op
    cases op <;> decide
  exact Option.some.inj <|
    calc some a
      _ = selectOpc (encodeW0 a.code 0 0) := (hselect a).symm
      _ = selectOpc (encodeW0 b.code 0 0) := by rw [h]
      _ = some b := hselect b

/-- The fields of `w` are those of a packet of the operation. -/
structure Opc.Matches (op : Opc) (w : Word) : Prop where
  opc : w0Opc w = op.code
  rsv : w0Rsv w = 0
  ch : w0Ch w &&& op.chZeros = 0
  imm : w0Imm w &&& op.immZeros = 0

/-- A row's mask keeps OPC, RSV and the bits that must be zero. -/
theorem and_row_mask_eq_iff (op : Opc) (w : Word) : w &&& op.row.mask = op.row.pattern ↔ op.Matches w := by
  have hopc : w0Opc op.row.mask = BitVec.allOnes 8 := by cases op <;> rfl
  have hrsv : w0Rsv op.row.mask = BitVec.allOnes 4 := by cases op <;> rfl
  have hch : w0Ch op.row.mask = op.chZeros := by cases op <;> rfl
  have himm : w0Imm op.row.mask = op.immZeros := by cases op <;> rfl
  have hpattern : op.row.pattern = encodeW0 op.code 0 0 := rfl
  rw [eq_iff_fields, hpattern, w0Opc_and, w0Rsv_and, w0Ch_and, w0Imm_and, hopc, hrsv, hch, himm, BitVec.and_allOnes,
    BitVec.and_allOnes, w0Opc_encodeW0, w0Rsv_encodeW0, w0Ch_encodeW0, w0Imm_encodeW0]
  exact ⟨fun ⟨opc, rsv, ch, imm⟩ => ⟨opc, rsv, ch, imm⟩, fun ⟨opc, rsv, ch, imm⟩ => ⟨opc, rsv, ch, imm⟩⟩

theorem Opc.Matches.unique {op op' : Opc} {w : Word} (h : op.Matches w) (g : op'.Matches w) : op = op' :=
  Opc.code_injective (h.opc.symm.trans g.opc)

/-- Settles O6: a row fixes OPC, and no two rows have one operation code. -/
theorem opcodeRowsAreDisjoint : Obligations.OpcodeRowsAreDisjoint := by
  intro w r q hr hq hwr hwq
  obtain ⟨op, rfl⟩ := mem_opcodeTable_iff.1 hr
  obtain ⟨op', rfl⟩ := mem_opcodeTable_iff.1 hq
  rw [((and_row_mask_eq_iff op w).1 hwr).unique ((and_row_mask_eq_iff op' w).1 hwq)]

theorem selectOpc_eq_none_iff {w : Word} : selectOpc w = none ↔ ∀ r ∈ opcodeTable, w &&& r.mask ≠ r.pattern := by
  simp [selectOpc, OpcodeRow.selects]

/-- A word selects the one operation whose fields it has. -/
theorem selectOpc_eq_some_iff {w : Word} {op : Opc} : selectOpc w = some op ↔ op.Matches w := by
  have hsound : ∀ op', selectOpc w = some op' → op'.Matches w := by
    intro op' h
    obtain ⟨r, hr, rfl⟩ := Option.map_eq_some_iff.1 h
    obtain ⟨op, rfl⟩ := mem_opcodeTable_iff.1 (List.mem_of_find?_eq_some hr)
    exact (and_row_mask_eq_iff op w).1 (by simpa [OpcodeRow.selects] using List.find?_some hr)
  refine ⟨hsound op, fun h => ?_⟩
  cases hsel : selectOpc w with
  | none =>
    exact absurd ((and_row_mask_eq_iff op w).2 h) (selectOpc_eq_none_iff.1 hsel _ (mem_opcodeTable_iff.2 ⟨op, rfl⟩))
  | some op' => rw [(hsound op' hsel).unique h]

theorem Opc.Matches.packetLength_eq {op : Opc} {w : Word} (h : op.Matches w) : packetLength w = op.words := by
  rw [packetLength, h.opc]
  cases op <;> rfl

theorem packetLength_pos (w : Word) : 0 < packetLength w := by
  unfold packetLength
  split
  · omega
  · split <;> omega

/-! ### The decoder -/

/-- A packet that is there whole and matches no row. -/
theorem decodePacket_unmatched {w0 : Word} {ws : List Word} (hsel : selectOpc w0 = none)
    (hlen : packetLength w0 ≤ ws.length + 1) :
    decodePacket (w0 :: ws) = .illegal (illegalReason w0) ((w0 :: ws).drop (packetLength w0)) := by
  simp [decodePacket, hsel, Nat.not_lt.2 hlen, List.drop_cons (packetLength_pos w0)]

/-- When the decoder answers an operation, and which. -/
theorem decodePacket_eq_op_iff {w0 : Word} {ws : List Word} {i : Instr} {rest : List Word} :
    decodePacket (w0 :: ws) = .op i rest ↔
      ∃ op : Opc, op.Matches w0 ∧ op.words ≤ ws.length + 1 ∧ decodeOperands op w0 (ws.getD 0 0) (ws.getD 1 0) = i
        ∧ (w0 :: ws).drop op.words = rest := by
  have hdrop : ∀ op : Opc, (w0 :: ws).drop op.words = ws.drop (op.words - 1) := by intro op; cases op <;> rfl
  constructor
  · intro h
    simp only [decodePacket] at h
    split at h
    · cases h
    · next hlen =>
      split at h
      · cases h
      · next op hsel =>
        have hop := selectOpc_eq_some_iff.1 hsel
        rw [hop.packetLength_eq] at h hlen
        cases h
        exact ⟨op, hop, Nat.not_lt.1 hlen, rfl, hdrop op⟩
  · rintro ⟨op, hop, hlen, rfl, rfl⟩
    simp [decodePacket, selectOpc_eq_some_iff.2 hop, hop.packetLength_eq, Nat.not_lt.2 hlen, hdrop]

/-! ### The encoder -/

theorem matches_encodeW0 {op : Opc} {ch : BitVec 4} {imm : BitVec 16} (hch : ch &&& op.chZeros = 0)
    (himm : imm &&& op.immZeros = 0) : op.Matches (encodeW0 op.code ch imm) :=
  ⟨w0Opc_encodeW0 _ _ _, w0Rsv_encodeW0 _ _ _, by simpa using hch, by simpa using himm⟩

theorem Opc.Matches.encodeW0_eq {op : Opc} {w : Word} (h : op.Matches w) :
    encodeW0 op.code (w0Ch w) (w0Imm w) = w :=
  eq_iff_fields.2 ⟨by simp [h.opc], by simp [h.rsv], by simp, by simp⟩

/-- IMM of SETFMT: MODE in bits 5:4, BPP in bits 2:0, zeros (R95). -/
def formatImm (mode : BitVec 2) (bpp : BitVec 3) : BitVec 16 := 0#10 ++ mode ++ 0#1 ++ bpp

theorem formatImm_and_zeros (mode : BitVec 2) (bpp : BitVec 3) : formatImm mode bpp &&& Opc.setfmt.immZeros = 0 := by
  revert mode bpp
  decide

theorem formatImm_bpp (mode : BitVec 2) (bpp : BitVec 3) : (formatImm mode bpp).extractLsb' 0 3 = bpp :=
  BitVec.extractLsb'_append_eq_right

theorem formatImm_mode (mode : BitVec 2) (bpp : BitVec 3) : (formatImm mode bpp).extractLsb' 4 2 = mode := by
  revert mode bpp
  decide

/-- A field that a mask selects whole is zero when the masked word is. -/
theorem extractLsb'_eq_zero_of_and {n start len : Nat} {x m : BitVec n} (h : x &&& m = 0)
    (hm : m.extractLsb' start len = BitVec.allOnes len) : x.extractLsb' start len = 0 := by
  rw [← BitVec.and_allOnes (x := x.extractLsb' start len), ← hm, ← BitVec.extractLsb'_and, h]
  exact BitVec.extractLsb'_zero

/-- An IMM whose unused bits are zero is made of its two fields. -/
theorem formatImm_of_and_zeros {imm : BitVec 16} (h : imm &&& Opc.setfmt.immZeros = 0) :
    formatImm (imm.extractLsb' 4 2) (imm.extractLsb' 0 3) = imm := by
  have hhigh : imm.extractLsb' 6 10 = 0#10 := extractLsb'_eq_zero_of_and h rfl
  have hmid : imm.extractLsb' 3 1 = 0#1 := extractLsb'_eq_zero_of_and h rfl
  calc formatImm (imm.extractLsb' 4 2) (imm.extractLsb' 0 3)
    _ = imm.extractLsb' 6 10 ++ imm.extractLsb' 4 2 ++ imm.extractLsb' 3 1 ++ imm.extractLsb' 0 3 := by
      rw [hhigh, hmid]; rfl
    _ = imm.extractLsb' 4 12 ++ imm.extractLsb' 3 1 ++ imm.extractLsb' 0 3 :=
      congrArg (· ++ imm.extractLsb' 3 1 ++ imm.extractLsb' 0 3)
        (BitVec.extractLsb'_append_extractLsb'_eq_extractLsb' rfl)
    _ = imm.extractLsb' 3 13 ++ imm.extractLsb' 0 3 :=
      congrArg (· ++ imm.extractLsb' 0 3) (BitVec.extractLsb'_append_extractLsb'_eq_extractLsb' rfl)
    _ = imm.extractLsb' 0 16 := BitVec.extractLsb'_append_extractLsb'_eq_extractLsb' rfl
    _ = imm := BitVec.extractLsb'_eq_self

/-- Every mode code comes back from its mode (R23). -/
@[simp] theorem code_ofCode (c : BitVec 2) : (FieldMode.ofCode c).code = c := by
  revert c
  decide

/-- The second word of SETFMT: HEIGHT above WIDTH (R95). -/
theorem height_append_width (w1 : Word) : w1.extractLsb' 16 16 ++ w1.extractLsb' 0 16 = w1 :=
  (BitVec.extractLsb'_append_extractLsb'_eq_extractLsb' rfl).trans BitVec.extractLsb'_eq_self

/-! ### Decoding and encoding undo each other -/

/-- Encoding the operands of a matched packet gives its words. -/
theorem encode_decodeOperands {op : Opc} {w0 : Word} (h : op.Matches w0) (w1 w2 : Word) :
    encode (decodeOperands op w0 w1 w2) = .packet ([w0, w1, w2].take op.words) := by
  have hw0 := h.encodeW0_eq
  have himm := h.imm
  cases op with
  | setfmt =>
    rw [decodeOperands, ← extractLsb'_w0Imm w0 (by omega), ← extractLsb'_w0Imm w0 (by omega), encode, code_ofCode,
      height_append_width]
    rw [← formatImm_of_and_zeros himm] at hw0
    exact congrArg (fun w => Encoded.packet [w, w1]) hw0
  | rdsr =>
    have hch : w0Ch w0 = 0 := (BitVec.and_allOnes ..).symm.trans h.ch
    rw [hch] at hw0
    exact congrArg (fun w => Encoded.packet [w]) hw0
  | enable | disable | start | stop =>
    rw [(BitVec.and_allOnes ..).symm.trans himm] at hw0
    exact congrArg (fun w => Encoded.packet [w]) hw0
  | enq =>
    rw [(BitVec.and_allOnes ..).symm.trans himm] at hw0
    exact congrArg (fun w => Encoded.packet [w, w1, w2]) hw0

theorem Opc.words_le (op : Opc) : op.words ≤ 3 := by cases op <;> decide

/-- A packet's words, read one by one from the stream, are the stream's first words. -/
theorem take_head_getD {w0 : Word} {ws : List Word} {n : Nat} (hn : n ≤ 3) (hlen : n ≤ ws.length + 1) :
    [w0, ws.getD 0 0, ws.getD 1 0].take n = (w0 :: ws).take n := by
  match n, ws with
  | 0, _ => rfl
  | 1, _ => rfl
  | 2, _ :: _ => rfl
  | 3, _ :: _ :: _ => rfl

/-- Settles O5: a packet that decodes has the fields of its row, of which the encoder makes the same words. -/
theorem encodeOfDecodeIsThePacket : Obligations.EncodeOfDecodeIsThePacket := by
  constructor
  · intro ws i rest h
    cases ws with
    | nil => cases h
    | cons w0 ws =>
      obtain ⟨op, hop, hlen, rfl, rfl⟩ := decodePacket_eq_op_iff.1 h
      refine ⟨(w0 :: ws).take op.words, ?_, (List.take_append_drop _ _).symm⟩
      rw [encode_decodeOperands hop, take_head_getD op.words_le hlen]
  · intro lines i h
    unfold decodeEvent at h
    split at h
    · next hlines => cases h; exact congrArg Encoded.event hlines.symm
    · split at h
      · next hlines => cases h; exact congrArg Encoded.event hlines.symm
      · split at h
        · next hlines => cases h; exact congrArg Encoded.event hlines.symm
        · cases h

/-- Decoding an encoded `W0` whose unused bits are zero, followed by the other words of its packet. -/
theorem decodePacket_encodeW0 (op : Opc) {ch : BitVec 4} {imm : BitVec 16} {args rest : List Word} {i : Instr}
    (hch : ch &&& op.chZeros = 0) (himm : imm &&& op.immZeros = 0) (hlen : args.length + 1 = op.words)
    (hi : decodeOperands op (encodeW0 op.code ch imm) ((args ++ rest).getD 0 0) ((args ++ rest).getD 1 0) = i) :
    decodePacket (encodeW0 op.code ch imm :: (args ++ rest)) = .op i rest := by
  refine decodePacket_eq_op_iff.2 ⟨op, matches_encodeW0 hch himm, ?_, hi, ?_⟩
  · rw [← hlen, List.length_append]
    omega
  · rw [← hlen, List.drop_succ_cons, List.drop_left]

/-- The operands of an encoded SETFMT. -/
theorem decodeOperands_setfmt (ch : BitVec 4) (width height : BitVec 16) (bpp : BitVec 3) (mode : FieldMode)
    (w2 : Word) :
    decodeOperands .setfmt (encodeW0 Opc.setfmt.code ch (formatImm mode.code bpp)) (height ++ width) w2 =
      .setfmt ch width height bpp mode := by
  have hwidth : (height ++ width : Word).extractLsb' 0 16 = width := BitVec.extractLsb'_append_eq_right
  have hheight : (height ++ width : Word).extractLsb' 16 16 = height := BitVec.extractLsb'_append_eq_left
  rw [decodeOperands, hwidth, hheight, ← extractLsb'_w0Imm _ (by omega), ← extractLsb'_w0Imm _ (by omega),
    w0Ch_encodeW0, w0Imm_encodeW0, formatImm_bpp, formatImm_mode, ofCode_code]

/-- Settles O4: the first word has the fields of its row, and each operand comes back from its field. -/
theorem decodeOfEncodeIsTheInstruction : Obligations.DecodeOfEncodeIsTheInstruction := by
  intro i
  constructor
  · intro ws rest h
    cases i with
    | enable id =>
      cases h
      exact decodePacket_encodeW0 .enable (args := []) BitVec.and_zero BitVec.zero_and rfl
        (congrArg Instr.enable (w0Ch_encodeW0 _ _ _))
    | disable id =>
      cases h
      exact decodePacket_encodeW0 .disable (args := []) BitVec.and_zero BitVec.zero_and rfl
        (congrArg Instr.disable (w0Ch_encodeW0 _ _ _))
    | start ch =>
      cases h
      exact decodePacket_encodeW0 .start (args := []) BitVec.and_zero BitVec.zero_and rfl
        (congrArg Instr.start (w0Ch_encodeW0 _ _ _))
    | stop ch =>
      cases h
      exact decodePacket_encodeW0 .stop (args := []) BitVec.and_zero BitVec.zero_and rfl
        (congrArg Instr.stop (w0Ch_encodeW0 _ _ _))
    | enq ch addr cap =>
      cases h
      exact decodePacket_encodeW0 .enq (args := [addr, cap]) BitVec.and_zero BitVec.zero_and rfl
        (congrArg (Instr.enq · addr cap) (w0Ch_encodeW0 _ _ _))
    | setfmt ch width height bpp mode =>
      cases h
      exact decodePacket_encodeW0 .setfmt (args := [height ++ width]) BitVec.and_zero (formatImm_and_zeros _ _) rfl
        (decodeOperands_setfmt ch width height bpp mode _)
    | rdsr idx =>
      cases h
      exact decodePacket_encodeW0 .rdsr (args := []) BitVec.zero_and BitVec.and_zero rfl
        (congrArg Instr.rdsr (w0Imm_encodeW0 _ _ _))
    | irq | tdefer | twdog => cases h
  · intro lines h
    cases i with
    | irq | tdefer | twdog => cases h; rfl
    | _ => cases h

end Sys2Proof

/-! ## Serving a port (30_encoding.md R90, R97, R101) -/

namespace Sys2Proof.Machine

/-- The step makes the head move on the state without it. -/
theorem step_cons {s : State} {m : Move} {moves : List Move} (h : s.sched = m :: moves) :
    step s = makeMove m { s with sched := moves } := by
  simp [step, h]

/-! ### The command port -/

theorem serveCommand_waiting {s : State} (h : s.cmdTask ≠ none ∨ decodePacket s.cmdPort = .short) :
    serveCommand s = .next s := by
  by_cases htask : s.cmdTask = none
  · simp [serveCommand, htask, h.resolve_left (not_not_intro htask)]
  · simp [serveCommand, Option.isSome_iff_ne_none.2 htask]

theorem serveCommand_illegal {s : State} {why : DecodeError} {rest : List Word} (htask : s.cmdTask = none)
    (h : decodePacket s.cmdPort = .illegal why rest) :
    serveCommand s = .next { s with cmdPort := rest, hist := s.hist ++ [.rsp .errIllegal 0] } := by
  simp [serveCommand, htask, h, respond, State.emit]

theorem serveCommand_op {s : State} {i : Instr} {rest : List Word} (htask : s.cmdTask = none)
    (h : decodePacket s.cmdPort = .op i rest) : serveCommand s = exec i { s with cmdPort := rest } := by
  simp [serveCommand, htask, h]

/-- The length of a packet, by its first word shifted down to OPC (R90). -/
theorem packetLength_eq_shift (w0 : Word) :
    packetLength w0 = if w0 >>> 24 = 0x20#32 then 3 else if w0 >>> 24 = 0x21#32 then 2 else 1 := by
  have henq : w0 >>> 24 = 0x20#32 ↔ w0Opc w0 = 0x20 := ushiftRight_eq_iff_w0Opc w0 0x20
  have hfmt : w0 >>> 24 = 0x21#32 ↔ w0Opc w0 = 0x21 := ushiftRight_eq_iff_w0Opc w0 0x21
  simp only [packetLength, henq, hfmt]

/-- Settles O7: the packet decodes as illegal, and serving it is the response. -/
theorem illegalPacketIsAnsweredAndConsumed : Obligations.IllegalPacketIsAnsweredAndConsumed := by
  intro s moves w0 ws hsched htask hport hrows hlen
  rw [← packetLength_eq_shift] at hlen ⊢
  have hdecode : decodePacket s.cmdPort = .illegal (illegalReason w0) ((w0 :: ws).drop (packetLength w0)) := by
    rw [hport, decodePacket_unmatched (selectOpc_eq_none_iff.2 hrows) hlen]
  rw [step_cons hsched]
  exact serveCommand_illegal (s := { s with sched := moves }) htask hdecode

/-- Settles O8: the two outcomes of serving the port, after the move is used up. -/
theorem stepRunsTheDecodedCommand : Obligations.StepRunsTheDecodedCommand := by
  constructor
  · intro s moves i rest hsched htask hdecode
    rw [step_cons hsched]
    exact serveCommand_op (s := { s with sched := moves }) htask hdecode
  · intro s moves hsched hwait
    rw [step_cons hsched]
    exact serveCommand_waiting (s := { s with sched := moves }) hwait

/-! ### Event lines -/

/-- Two lines that are both asserted at one place meet. -/
theorem and_ne_zero_of_getLsbD {w n : Nat} {x y : BitVec w} (hx : x.getLsbD n = true) (hy : y.getLsbD n = true) :
    x &&& y ≠ 0 := by
  intro h
  have hbit := congrArg (·.getLsbD n) h
  simp [hx, hy] at hbit

/-- The timers assert their own lines, never the interrupt line. -/
theorem timerLines_getLsbD (s : State) :
    (timerLines s).getLsbD 0 = false ∧ (timerLines s).getLsbD 1 = deferEnabled s
      ∧ (timerLines s).getLsbD 2 = wdogEnabled s := by
  unfold timerLines
  cases wdogEnabled s <;> cases deferEnabled s <;> decide

theorem evLines_getLsbD (s : State) (n : Nat) :
    (evLines s).getLsbD n = (s.evHeld.getLsbD n || (timerLines s).getLsbD n) := BitVec.getLsbD_or

theorem irq_asserted_iff (s : State) : (evLines s).getLsbD 0 = true ↔ s.evHeld.getLsbD 0 = true := by
  obtain ⟨hirq, -, -⟩ := timerLines_getLsbD s
  rw [evLines_getLsbD, hirq, Bool.or_false]

theorem tdefer_asserted_iff (s : State) :
    (evLines s).getLsbD 1 = true ↔ s.evHeld.getLsbD 1 = true ∨ (s.deferArmed = true ∧ s.deferDeadline ≤ s.now) := by
  obtain ⟨-, hdefer, -⟩ := timerLines_getLsbD s
  rw [evLines_getLsbD, hdefer, Bool.or_eq_true, deferEnabled, Bool.and_eq_true, decide_eq_true_iff]

theorem twdog_asserted_iff (s : State) :
    (evLines s).getLsbD 2 = true ↔ s.evHeld.getLsbD 2 = true ∨ s.wdogDeadline ≤ s.now := by
  obtain ⟨-, -, hwdog⟩ := timerLines_getLsbD s
  rw [evLines_getLsbD, hwdog, Bool.or_eq_true, wdogEnabled, decide_eq_true_iff]

/-- An asserted line runs its event, the line no longer held. -/
theorem serveEvent_asserted {s : State} {line : BitVec 3} {n : Nat} (i : Instr) (hs : (evLines s).getLsbD n = true)
    (hline : line.getLsbD n = true) :
    serveEvent line i s = exec i { s with evHeld := s.evHeld &&& ~~~line } := by
  rw [serveEvent, if_neg (and_ne_zero_of_getLsbD hs hline)]
  rfl

/-- Settles O9: each clause's hypothesis says that the event's line is asserted. -/
theorem stepRunsTheRequestedEvent : Obligations.StepRunsTheRequestedEvent := by
  refine ⟨?_, ?_, ?_⟩
  · intro s moves hsched hline
    rw [step_cons hsched]
    exact serveEvent_asserted .irq ((irq_asserted_iff { s with sched := moves }).2 hline) rfl
  · intro s moves hsched hline
    rw [step_cons hsched]
    exact serveEvent_asserted .tdefer ((tdefer_asserted_iff { s with sched := moves }).2 hline) rfl
  · intro s moves hsched hpending hline
    rw [step_cons hsched, makeMove, serve, if_neg (by simp [hpending])]
    exact serveEvent_asserted .twdog ((twdog_asserted_iff { s with sched := moves }).2 hline) rfl

end Sys2Proof.Machine

/-! ## The answers to commands (30_encoding.md R98, R99)

The two static checks answer ERR_CHANNEL and ERR_RANGE; a command that passes them is answered OK, BUSY or ERR_STATE
after its body. -/

namespace Sys2Proof.Machine

/-! ### Operands out of range -/

theorem bufInRange_eq_false_iff (addr cap : Word) :
    bufInRange addr cap = false ↔ cap = 0 ∨ 2 ^ 32 < addr.toNat + cap.toNat := by
  simp [bufInRange, ← BitVec.toNat_inj, or_iff_not_imp_left]

theorem fmtInRange_eq_false_iff (p : Params) (w h : BitVec 16) (b : BitVec 3) (m : FieldMode) :
    fmtInRange p w h b m = false ↔ w = 0 ∨ h = 0 ∨ b = 0 ∨ 4 < b.toNat
      ∨ p.maxFieldBytes < (if m = .interlaced then (h.toNat + 1) / 2 else h.toNat) * w.toNat * b.toNat := by
  change _ ↔ _ ∨ _ ∨ _ ∨ _ ∨ p.maxFieldBytes < fieldLinesOf m h.toNat * w.toNat * b.toNat
  simp [fmtInRange, ← BitVec.toNat_inj, or_iff_not_imp_left]

theorem srAssigned_eq_false_iff (idx : BitVec 16) :
    srAssigned idx = false ↔ (0x40 ≤ idx.toNat ∧ idx.toNat < 0x80) ∨ 0x89 < idx.toNat := by
  simp only [srAssigned, Bool.or_eq_false_iff, Bool.and_eq_false_iff, decide_eq_false_iff_not]
  omega

theorem isSome_chanOf {ch : BitVec 4} (h : ch.toNat < 8) : (chanOf ch).isSome = true := by
  rw [chanOf, dif_pos h]
  rfl

/-! ### What the static checks answer -/

/-- Check 2: the four commands with a channel operand. -/
theorem exec_errChannel {i : Instr} {s : State} (h : i.channelLegal = false) :
    exec i s = .next (respond .errChannel 0 s) := by
  cases i with
  | start ch =>
    have hch : chanOf ch = none := by simpa [Instr.channelLegal] using h
    simp only [exec, execStart, hch]
  | stop ch =>
    have hch : chanOf ch = none := by simpa [Instr.channelLegal] using h
    simp only [exec, execStop, hch]
  | enq ch addr cap =>
    have hch : chanOf ch = none := by simpa [Instr.channelLegal] using h
    simp only [exec, execEnq, hch]
  | setfmt ch width height bpp mode =>
    have hch : chanOf ch = none := by simpa [Instr.channelLegal] using h
    simp only [exec, execSetfmt, hch]
  | enable | disable | rdsr | irq | tdefer | twdog => cases h

/-- Check 3: the three commands with a range, on a legal channel. -/
theorem exec_errRange {i : Instr} {s : State} (hch : i.channelLegal = true) (h : i.rangeLegal s.cfg = false) :
    exec i s = .next (respond .errRange 0 s) := by
  cases i with
  | enq ch addr cap =>
    obtain ⟨k, hk⟩ := Option.isSome_iff_exists.1 hch
    have hrange : bufInRange addr cap = false := h
    simp only [exec, execEnq, hk, hrange]
    rfl
  | setfmt ch width height bpp mode =>
    obtain ⟨k, hk⟩ := Option.isSome_iff_exists.1 hch
    have hrange : fmtInRange s.cfg width height bpp mode = false := h
    simp only [exec, execSetfmt, hk, hrange]
    rfl
  | rdsr idx =>
    have hrange : srAssigned idx = false := h
    simp only [exec, execRdsr, hrange]
    rfl
  | enable | disable | start | stop | irq | tdefer | twdog => cases h

/-! ### What a command with legal operands answers -/

/-- The statuses left to a command that passes the static checks, and its data: 0 but for an OK of RDSR (R99). -/
def LegalAnswer (i : Instr) (status : Status) (data : Word) : Prop :=
  (status = .ok ∨ status = .busy ∨ status = .errState) ∧ (data ≠ 0 → status = .ok ∧ ∃ idx, i = .rdsr idx)

theorem legalAnswer_zero {i : Instr} {status : Status} (h : status = .ok ∨ status = .busy ∨ status = .errState) :
    LegalAnswer i status 0 := ⟨h, fun hd => absurd rfl hd⟩

theorem legalAnswer_enqueueStatus (i : Instr) (p : Params) (c : Ctx) : LegalAnswer i (enqueueStatus p c) 0 := by
  refine legalAnswer_zero ?_
  unfold enqueueStatus
  split
  · exact .inr (.inl rfl)
  · exact .inl rfl

theorem legalAnswer_setFormatStatus (i : Instr) (c : Ctx) : LegalAnswer i (setFormatStatus c) 0 := by
  refine legalAnswer_zero ?_
  unfold setFormatStatus
  split
  · exact .inl rfl
  · exact .inr (.inl rfl)

theorem startChannel_answers (ch : BitVec 4) (k : Chan) (s : State) :
    ∃ u status data, CommandBody (.start ch) s u ∧ LegalAnswer (.start ch) status data
      ∧ startChannel k s = respond status data u := by
  unfold startChannel
  by_cases hs : startable (s.chan k) = true
  · rw [if_pos hs]
    refine ⟨_, _, _, ?_, legalAnswer_zero (.inl rfl), rfl⟩
    by_cases ha : (s.chan k).alloc = true
    · simpa only [ha] using .start ch k s hs ha
    · simpa only [ha] using .firstStart ch k s hs
  · rw [if_neg hs]
    exact ⟨_, _, _, .unchanged _ s, legalAnswer_zero (.inr (.inr rfl)), rfl⟩

/-- A command that passes the static checks: its body, then its answer. -/
theorem exec_wellFormed {i : Instr} {s : State} (hcmd : i ∉ [Instr.irq, .tdefer, .twdog])
    (hwf : i.WellFormed s.cfg = true) :
    ∃ u status data, CommandBody i s u ∧ LegalAnswer i status data ∧ exec i s = .next (respond status data u) := by
  obtain ⟨hch, hrange⟩ := Bool.and_eq_true_iff.1 hwf
  cases i with
  | enable id => exact ⟨_, _, _, .enable id s, legalAnswer_zero (.inl rfl), rfl⟩
  | disable id => exact ⟨_, _, _, .disable id s, legalAnswer_zero (.inl rfl), rfl⟩
  | start ch =>
    obtain ⟨k, hk⟩ := Option.isSome_iff_exists.1 hch
    obtain ⟨u, status, data, hbody, hanswer, heq⟩ := startChannel_answers ch k s
    refine ⟨u, status, data, hbody, hanswer, ?_⟩
    simp only [exec, execStart, hk, heq]
  | stop ch =>
    obtain ⟨k, hk⟩ := Option.isSome_iff_exists.1 hch
    refine ⟨_, .ok, 0, .stop ch k s, legalAnswer_zero (.inl rfl), ?_⟩
    simp only [exec, execStop, hk]
  | enq ch addr cap =>
    obtain ⟨k, hk⟩ := Option.isSome_iff_exists.1 hch
    refine ⟨_, _, 0, .enq ch k addr cap s hrange, legalAnswer_enqueueStatus _ s.cfg (s.chan k), ?_⟩
    simp only [exec, execEnq, hk, if_pos (show bufInRange addr cap = true from hrange)]
  | setfmt ch width height bpp mode =>
    obtain ⟨k, hk⟩ := Option.isSome_iff_exists.1 hch
    refine ⟨_, _, 0, .setfmt ch k width height bpp mode s hrange, legalAnswer_setFormatStatus _ (s.chan k), ?_⟩
    simp only [exec, execSetfmt, hk, if_pos (show fmtInRange s.cfg width height bpp mode = true from hrange)]
  | rdsr idx =>
    exact ⟨s, .ok, srValue s idx, .unchanged _ s, ⟨.inl rfl, fun _ => ⟨rfl, idx, rfl⟩⟩, execRdsr_assigned hrange⟩
  | irq | tdefer | twdog => simp at hcmd

/-- Every command, with legal operands or not, is its body and one response. -/
theorem exec_answers {i : Instr} (s : State) (hcmd : i ∉ [Instr.irq, .tdefer, .twdog]) :
    ∃ u status data, CommandBody i s u ∧ (data ≠ 0 → status = .ok ∧ ∃ idx, i = .rdsr idx)
      ∧ exec i s = .next (respond status data u) := by
  cases hch : i.channelLegal with
  | false => exact ⟨s, .errChannel, 0, .unchanged i s, fun hd => absurd rfl hd, exec_errChannel hch⟩
  | true =>
    cases hrange : i.rangeLegal s.cfg with
    | false => exact ⟨s, .errRange, 0, .unchanged i s, fun hd => absurd rfl hd, exec_errRange hch hrange⟩
    | true =>
      obtain ⟨u, status, data, hbody, ⟨-, hdata⟩, heq⟩ := exec_wellFormed hcmd (Bool.and_eq_true_iff.2 ⟨hch, hrange⟩)
      exact ⟨u, status, data, hbody, hdata, heq⟩

/-- Settles O17: the response is the last record, with one of the statuses left. -/
theorem legalOperandsPassTheStaticChecks : Obligations.LegalOperandsPassTheStaticChecks := by
  intro i s t st d hwf hcmd h hlast
  obtain ⟨u, status, data, -, ⟨hstatus, -⟩, heq⟩ := exec_wellFormed hcmd hwf
  cases heq.symm.trans h
  rw [respond, emit_hist, List.getLast?_concat] at hlast
  cases hlast
  exact hstatus

/-! ### Rejections -/

theorem execStart_errState {k : Chan} {s : State} (h : (s.chan k).configured = false ∨ (s.chan k).fsm ≠ .idle) :
    exec (.start (BitVec.ofNat 4 k.val)) s = .next (respond .errState 0 s) := by
  have hno : ¬ startable (s.chan k) = true := by
    rw [startable_iff]
    rintro ⟨hconf, hidle⟩
    rcases h with h | h
    · exact Bool.false_ne_true (h.symm.trans hconf)
    · exact h hidle
  simp only [exec, execStart, chanOf_ofNat, startChannel, if_neg hno]

theorem execEnq_busy {k : Chan} {addr cap : Word} {s : State} (hrange : bufInRange addr cap = true)
    (hfull : (s.chan k).queue.length = s.cfg.qdepth) :
    exec (.enq (BitVec.ofNat 4 k.val) addr cap) s = .next (respond .busy 0 s) := by
  simp only [exec, execEnq, chanOf_ofNat, if_pos hrange, enqueueStatus, enqueueSection, if_pos hfull]

theorem execSetfmt_busy {k : Chan} {w h : BitVec 16} {b : BitVec 3} {m : FieldMode} {s : State}
    (hrange : fmtInRange s.cfg w h b m = true) (hrun : (s.chan k).fsm ≠ .idle) :
    exec (.setfmt (BitVec.ofNat 4 k.val) w h b m) s = .next (respond .busy 0 s) := by
  simp only [exec, execSetfmt, chanOf_ofNat, if_pos hrange, setFormatStatus, setFormatSection, if_neg hrun]

/-- Settles O15: the static checks, then the checks of the channel's state; `respond` appends its record only. -/
theorem rejectedCommandsChangeNothing : Obligations.RejectedCommandsChangeNothing := by
  refine ⟨?_, ?_, ?_, ?_, ?_, ?_, ?_⟩
  · intro s ch addr cap w h b m hch i hi
    refine exec_errChannel ?_
    have hnone := chanOf_eq_none hch
    simp only [List.mem_cons, List.not_mem_nil, or_false] at hi
    rcases hi with rfl | rfl | rfl | rfl <;> simp only [Instr.channelLegal, hnone, Option.isSome_none]
  · intro s ch addr cap hch hrange
    exact exec_errRange (isSome_chanOf hch) ((bufInRange_eq_false_iff addr cap).2 hrange)
  · intro s ch w h b m hch hrange
    exact exec_errRange (isSome_chanOf hch) ((fmtInRange_eq_false_iff s.cfg w h b m).2 hrange)
  · intro s idx hrange
    exact exec_errRange rfl ((srAssigned_eq_false_iff idx).2 hrange)
  · intro s k h
    exact execStart_errState h
  · intro s k addr cap hcap hsum hfull
    have hrange : bufInRange addr cap = true := by
      rw [← Bool.not_eq_false, bufInRange_eq_false_iff]
      exact not_or.2 ⟨hcap, Nat.not_lt.2 hsum⟩
    exact execEnq_busy hrange hfull
  · intro s k w h b m hrange hrun
    exact execSetfmt_busy hrange hrun

/-! ### Records that are no responses -/

/-- `t` continues the history of `s` by records of which none is a response. -/
def NoResponse (s t : State) : Prop :=
  ∃ obs, t.hist = s.hist ++ obs ∧ ∀ o ∈ obs, ∀ status data, o ≠ .rsp status data

theorem NoResponse.of_hist {s t : State} (h : t.hist = s.hist) : NoResponse s t :=
  ⟨[], by simpa using h, by simp⟩

theorem NoResponse.trans {s t u : State} (h : NoResponse s t) (g : NoResponse t u) : NoResponse s u := by
  obtain ⟨obs, hobs, hno⟩ := h
  obtain ⟨obs', hobs', hno'⟩ := g
  refine ⟨obs ++ obs', by rw [hobs', hobs, List.append_assoc], fun o ho => ?_⟩
  exact (List.mem_append.1 ho).elim (hno o) (hno' o)

theorem noResponse_regRead (n : RegName) (s : State) : NoResponse s (regRead n s) := ⟨_, rfl, by simp⟩

theorem noResponse_regWrite (n : RegName) (v : Word) (s : State) : NoResponse s (regWrite n v s) := ⟨_, rfl, by simp⟩

theorem noResponse_writeVerify (n : RegName) (v : Word) (s : State) : NoResponse s (writeVerify n v s) :=
  ((noResponse_regWrite n v s).trans (noResponse_regRead n _)).trans (.of_hist rfl)

theorem noResponse_setEnable (e : Word) (s : State) : NoResponse s (setEnable e s) :=
  (noResponse_writeVerify .dmaEn e s).trans (.of_hist rfl)

theorem noResponse_haltIfEmpty (e : Word) (s : State) : NoResponse s (haltIfEmpty e s) := by
  unfold haltIfEmpty
  split
  · exact noResponse_writeVerify .dmaCmd 0 s
  · exact .of_hist rfl

theorem noResponse_enableBits (bits : Word) (s : State) : NoResponse s (enableBits bits s) :=
  ((noResponse_regRead .dmaEn s).trans (noResponse_setEnable _ _)).trans (noResponse_writeVerify _ _ _)

theorem noResponse_disableBits (bits : Word) (s : State) : NoResponse s (disableBits bits s) :=
  ((noResponse_regRead .dmaEn s).trans (noResponse_setEnable _ _)).trans (noResponse_haltIfEmpty _ _)

theorem noResponse_programStep (k : Chan) (s : State) (j : Nat) : NoResponse s (programStep k s j) := by
  unfold programStep
  split
  · exact noResponse_regWrite _ _ s
  · split
    · exact noResponse_regWrite _ _ s
    · exact .of_hist rfl

theorem noResponse_programBuffers (k : Chan) (s : State) : NoResponse s (programBuffers k s) :=
  List.foldlRecOn _ _ (.of_hist rfl) fun t h j _ => h.trans (noResponse_programStep k t j)

theorem noResponse_startSections (k : Chan) (s : State) :
    NoResponse s (startEnableSection k (startQueueSection k s)) :=
  (NoResponse.of_hist rfl).trans (noResponse_enableBits _ _)

/-- The records of flushed buffers are completion records (41_host_stream_queue.md R163). -/
theorem noResponse_stopFlushSection (k : Chan) (s : State) : NoResponse s (stopFlushSection k s) := by
  refine ⟨(s.chan k).queue.map (flushRecord k (s.chan k) s.now), rfl, fun o ho => ?_⟩
  obtain ⟨e, -, rfl⟩ := List.mem_map.1 ho
  simp [flushRecord]

theorem noResponse_enqueueSection (k : Chan) (addr cap : Word) (s : State) :
    NoResponse s (enqueueSection k addr cap s) := by
  unfold enqueueSection
  split <;> exact .of_hist rfl

theorem noResponse_setFormatSection (k : Chan) (width height : BitVec 16) (bpp : BitVec 3) (mode : FieldMode)
    (s : State) : NoResponse s (setFormatSection k width height bpp mode s) := by
  unfold setFormatSection
  split
  · dsimp only
    split
    · exact (NoResponse.of_hist rfl).trans (noResponse_regWrite _ _ _)
    · exact .of_hist rfl
  · exact .of_hist rfl

/-- The response of a command is not part of its body. -/
theorem CommandBody.noResponse {i : Instr} {s u : State} (h : CommandBody i s u) : NoResponse s u := by
  cases h with
  | unchanged => exact .of_hist rfl
  | enable id => exact noResponse_enableBits _ s
  | disable id => exact noResponse_disableBits _ s
  | firstStart ch k => exact (noResponse_programBuffers k s).trans (noResponse_startSections k _)
  | start ch k => exact noResponse_startSections k s
  | stop ch k =>
    have hdisable : NoResponse s (stopDisableSection k s) := (NoResponse.of_hist rfl).trans (noResponse_disableBits _ _)
    exact hdisable.trans (noResponse_stopFlushSection k _)
  | enq ch k addr cap => exact noResponse_enqueueSection k addr cap s
  | setfmt ch k width height bpp mode => exact noResponse_setFormatSection k width height bpp mode s

/-- Settles O16: the body emits no response, and one follows it. -/
theorem everyCommandIsAnsweredOnce : Obligations.EveryCommandIsAnsweredOnce := by
  intro i s hcmd
  obtain ⟨u, status, data, hbody, hdata, heq⟩ := exec_answers s hcmd
  obtain ⟨obs, hobs, hno⟩ := hbody.noResponse
  exact ⟨_, obs, status, data, heq, by rw [respond, emit_hist, hobs], hno, hdata⟩

end Sys2Proof.Machine

/-! ## Words of packets and records, written out (30_encoding.md R91 to R105) -/

namespace Sys2Proof.Machine

/-- Settles O3: each fixed word runs through the decoder. -/
theorem writtenOutWordsDecode : Obligations.WrittenOutWordsDecode := by
  unfold Obligations.WrittenOutWordsDecode
  decide

/-- The first word of a completion record (R102) as a number in mixed radix. -/
theorem toNat_cplWord (ch : Chan) (tag : FieldMode) (error : Bool) :
    (0#15 ++ flag error ++ 0#6 ++ tag.code ++ 0#5 ++ BitVec.ofNat 3 ch.val : Word).toNat =
      ch.val + 256 * tag.code.toNat + 65536 * error.toNat := by
  have hch : ch.val % 8 = ch.val := Nat.mod_eq_of_lt ch.isLt
  simp only [toNat_append_add, toNat_flag, BitVec.toNat_ofNat]
  omega

/-- The word of an audio record (R105). -/
theorem toNat_audWord (ready pb : Mask) : (audWord ready pb).toNat = ready.toNat + 256 * pb.toNat := by
  simp only [audWord, toNat_append_add, BitVec.toNat_ofNat]
  omega

/-- Settles O60: the first word and the audio word as numbers, the time by its two halves. -/
theorem outputRecordWords : Obligations.OutputRecordWords := by
  refine ⟨fun c => ⟨_, ?_, toNat_cplWord c.ch c.tag c.error⟩, toNat_audWord⟩
  have hlow : BitVec.ofNat 32 (c.ts % 2 ^ 32) = BitVec.ofNat 32 c.ts := by
    rw [← BitVec.toNat_inj]
    simp
  rw [hlow]
  rfl

end Sys2Proof.Machine

/-! ## ENABLE, DISABLE and WriteVerify (40_dma_channel_control.md R120 to R133) -/

namespace Sys2Proof.Machine

/-- Settles O10: what the register stores is the model's `storedWord`. -/
theorem writeVerifyRecordsADifference : Obligations.WriteVerifyRecordsADifference := by
  intro v s r
  have hstored : storedWord s.dev v = r := rfl
  have hdiffers : (r != v) = decide (r ≠ v) := by
    rw [Bool.eq_iff_iff, bne_iff_ne, decide_eq_true_iff]
  constructor <;> rw [writeVerify_eq] <;> simp only [regStore, regValue, regOffset, hstored, hdiffers]

/-! ### The two commands as their register sequences -/

theorem exec_enable (id : BitVec 4) (s : State) :
    exec (.enable id) s = .next (respond .ok 0 (enableBits (wordBit id.toNat) s)) := rfl

theorem exec_disable (id : BitVec 4) (s : State) :
    exec (.disable id) s = .next (respond .ok 0 (disableBits (wordBit id.toNat) s)) := rfl

/-- Settles O11: the word is the encoder's, the effect is the enable sequence on faithful registers. -/
theorem enableMergesTheBitAndRestarts : Obligations.EnableMergesTheBitAndRestarts := by
  constructor
  · intro id rest
    exact (decodeOfEncodeIsTheInstruction (.enable id)).1 [encodeW0 0x01 id 0] rest rfl
  · intro id s hfaithful e c
    rw [exec_enable, enableBits_faithful _ _ hfaithful]
    rfl

/-- Settles O12: the word is the encoder's, the effect is the disable sequence on faithful registers. -/
theorem disableClearsTheBitAndHaltsWhenEmpty : Obligations.DisableClearsTheBitAndHaltsWhenEmpty := by
  constructor
  · intro id rest
    exact (decodeOfEncodeIsTheInstruction (.disable id)).1 [encodeW0 0x02 id 0] rest rfl
  · intro id s hfaithful e
    rw [exec_disable, disableBits_faithful _ _ hfaithful]
    rfl

/-! ### Idempotence and the mask (R129) -/

theorem exec_enable_dev {id : BitVec 4} {s t : State} (hfaithful : s.dev.glitch = [])
    (h : exec (.enable id) s = .next t) :
    t.dev = { s.dev with
      dmaEn := s.dev.dmaEn ||| wordBit id.toNat
      dmaCmd := cmdWord s.cfg (s.dev.dmaEn ||| wordBit id.toNat) } := by
  rw [exec_enable, enableBits_faithful _ _ hfaithful] at h
  cases h
  rfl

theorem exec_disable_dev {id : BitVec 4} {s t : State} (hfaithful : s.dev.glitch = [])
    (h : exec (.disable id) s = .next t) :
    t.dev = { s.dev with
      dmaEn := s.dev.dmaEn &&& ~~~wordBit id.toNat
      dmaCmd := haltedCmd (s.dev.dmaEn &&& ~~~wordBit id.toNat) s.dev.dmaCmd } := by
  rw [exec_disable, disableBits_faithful _ _ hfaithful] at h
  cases h
  rfl

/-- Merging bits and then removing them is removing them. -/
theorem or_and_not_self {w : Nat} (x y : BitVec w) : (x ||| y) &&& ~~~y = x &&& ~~~y := by
  rw [BitVec.and_or_distrib_right, BitVec.and_not_self]
  exact BitVec.or_zero

/-- Removing a bit changes a word exactly when the bit was set. -/
theorem and_not_wordBit_eq_self_iff (e : Word) (n : Nat) : e &&& ~~~wordBit n = e ↔ e.getLsbD n = false := by
  constructor
  · intro h
    by_cases hn : n < 32
    · rw [← h, wordBit, ← BitVec.twoPow_eq]
      simp [hn]
    · exact BitVec.getLsbD_of_ge e n (by omega)
  · intro h
    apply BitVec.eq_of_getLsbD_eq
    intro i _
    by_cases hi : n = i
    · subst hi; simp [h]
    · exact getLsbD_and_not_of_clear (getLsbD_wordBit_ne hi)

/-- Settles O13: DISABLE removes its bit from the mask, whether ENABLE has merged it or not; DMA_CMD stays unless the
channel bits that remain are all clear. -/
theorem enableDisableProperties : Obligations.EnableDisableProperties := by
  intro id s t u hfaithful
  constructor
  · intro ht hu
    have htdev := exec_disable_dev hfaithful ht
    have hudev := exec_disable_dev (by rw [htdev]; exact hfaithful) hu
    rw [hudev, htdev]
    simp only [BitVec.and_assoc, BitVec.and_self]
  · intro ht hu
    have htdev := exec_enable_dev hfaithful ht
    have hudev := exec_disable_dev (by rw [htdev]; exact hfaithful) hu
    simp only [htdev, or_and_not_self] at hudev
    rw [hudev]
    refine ⟨rfl, and_not_wordBit_eq_self_iff _ _, fun hother => if_neg ?_⟩
    rwa [BitVec.and_assoc, BitVec.and_comm (~~~_), ← BitVec.and_assoc]

/-! ### The frame (R133) -/

theorem OnlyDmaRegs.respond {s t : State} (h : OnlyDmaRegs s t) (status : Status) (data : Word) :
    OnlyDmaRegs s (respond status data t) := onlyDmaRegs_trans h rfl

theorem OnlyDmaRegs.onlyCommandState {s t : State} (h : OnlyDmaRegs s t) : OnlyCommandState s t := by
  rw [h]; rfl

theorem exec_enable_onlyDma {id : BitVec 4} {s t : State} (h : exec (.enable id) s = .next t) : OnlyDmaRegs s t := by
  cases h
  exact (enableBits_onlyDma _ s).respond _ _

theorem exec_disable_onlyDma {id : BitVec 4} {s t : State} (h : exec (.disable id) s = .next t) : OnlyDmaRegs s t := by
  cases h
  exact (disableBits_onlyDma _ s).respond _ _

/-- Settles O14: both commands are register sequences over DMA_EN and DMA_CMD. -/
theorem enableDisableFrame : Obligations.EnableDisableFrame := by
  intro id s t h
  have hdma : OnlyDmaRegs s t := h.elim exec_enable_onlyDma exec_disable_onlyDma
  refine ⟨hdma.onlyCommandState, ?_, ?_, ?_, ?_, fun a => ?_⟩ <;> rw [hdma]

end Sys2Proof.Machine

/-! ## The reset operation (40_dma_channel_control.md R125 to R128) -/

namespace Sys2Proof.Machine

/-! ### Section A: the in-flight frames -/

/-- What DiscardInFlight does to its channel's context (R126). -/
def discarded (c : Ctx) : Ctx := if c.fsm = .f0Captured then dropFrame c else c

theorem discardInFlight_eq (k : Chan) (s : State) : discardInFlight k s = s.modChan k discarded := by
  unfold discardInFlight
  split
  · next h =>
    have hctx : discarded (s.ch.get k) = dropFrame (s.ch.get k) := if_pos h
    rw [State.modChan, State.modChan, hctx]
  · next h =>
    have hctx : discarded (s.ch.get k) = s.ch.get k := if_neg h
    rw [State.modChan, hctx, Bank.set_get]

/-- Section A touches each masked channel of the list once. -/
theorem chan_foldl_discard (m : Mask) (j : Chan) :
    ∀ (ks : List Chan) (s : State), ks.Nodup →
      (ks.foldl (fun t k => if m.getLsbD k.val then discardInFlight k t else t) s).chan j =
        if j ∈ ks ∧ m.getLsbD j.val then discarded (s.chan j) else s.chan j := by
  intro ks
  induction ks with
  | nil => intro s _; simp
  | cons k ks ih =>
    intro s hnodup
    obtain ⟨hk, hks⟩ := List.nodup_cons.1 hnodup
    rw [List.foldl_cons, ih _ hks]
    by_cases hj : j = k
    · subst hj
      simp only [hk, false_and, if_false, List.mem_cons_self, true_and]
      split
      · rw [discardInFlight_eq, chan_modChan_same]
      · rfl
    · have hrest : (if m.getLsbD k.val then discardInFlight k s else s).chan j = s.chan j := by
        split
        · rw [discardInFlight_eq, chan_modChan_ne _ _ hj]
        · rfl
      rw [hrest]
      simp [hj]

theorem chan_discardAll (m : Mask) (s : State) (j : Chan) :
    (discardAll m s).chan j = if m.getLsbD j.val then discarded (s.chan j) else s.chan j := by
  rw [discardAll, chan_foldl_discard m j allChans s (by decide)]
  simp [mem_allChans]

/-- `t` is `s` but for the contexts. -/
def OnlyContexts (s t : State) : Prop := ∃ contexts, t = { s with ch := contexts }

theorem discardAll_onlyContexts (m : Mask) (s : State) : OnlyContexts s (discardAll m s) :=
  List.foldlRecOn _ _ ⟨s.ch, rfl⟩ fun t ⟨contexts, ht⟩ k _ => by
    split
    · exact ⟨_, by rw [discardInFlight_eq, State.modChan, ht]⟩
    · exact ⟨contexts, ht⟩

/-! ### Section B: the registers -/

/-- Writing a mask and halting if it is empty, on faithful registers (R124, R131). -/
theorem haltIfEmpty_setEnable_faithful (e : Word) (s : State) (h : s.dev.glitch = []) :
    haltIfEmpty e (setEnable e s) =
      { s with
        videoDMA := videoBits e
        dev := { s.dev with dmaEn := e, dmaCmd := haltedCmd e s.dev.dmaCmd }
        hist := s.hist ++
          [.regWrite s.cfg.regMap.dmaEn e, .regRead s.cfg.regMap.dmaEn e] ++ haltTransfers s.cfg.regMap e } := by
  rw [setEnable_faithful e s h, haltIfEmpty_faithful e _ (by simpa using h)]
  simp only [noChannels, channelBits, haltedCmd, haltTransfers, beq_iff_eq]
  split <;> simp

theorem resetSection_faithful (m : Mask) (s : State) (h : s.dev.glitch = []) :
    resetSection m s =
      let e := s.dev.dmaEn &&& ~~~(m.setWidth 32)
      recordFault m s.dev.dmaEn s.dev.dmaCmd { s with
        videoDMA := videoBits e
        dev := { s.dev with dmaEn := e, dmaCmd := haltedCmd e s.dev.dmaCmd }
        hist := s.hist ++
          [.regRead s.cfg.regMap.dmaEn s.dev.dmaEn, .regRead s.cfg.regMap.dmaCmd s.dev.dmaCmd,
            .regWrite s.cfg.regMap.dmaEn e, .regRead s.cfg.regMap.dmaEn e] ++ haltTransfers s.cfg.regMap e } := by
  rw [resetSection_eq, haltIfEmpty_setEnable_faithful _ _ (by simpa using h)]
  simp [regRead, State.emit, regOffset, regValue]

/-- Settles O41: section A on the contexts, then section B on the registers. -/
theorem resetOperationRemovesTheChannels : Obligations.ResetOperationRemovesTheChannels := by
  intro m s hfaithful e
  constructor
  · intro k
    have hk : (resetChannels m s).chan k = (discardAll m s).chan k := congrArg (·.get k) (resetSection_ch m _)
    rw [hk, chan_discardAll]
    exact (ite_and _ _ _ _).symm
  · obtain ⟨contexts, hdiscard⟩ := discardAll_onlyContexts m s
    rw [resetChannels, hdiscard, resetSection_ch, resetSection_faithful m { s with ch := contexts } hfaithful]
    rfl

end Sys2Proof.Machine

/-! ## The requested set (40_dma_channel_control.md R133) -/

namespace Sys2Proof.Machine

/-! ### Commands -/

theorem OnlyDmaRegs.videoCap {s t : State} (h : OnlyDmaRegs s t) : t.videoCap = s.videoCap := by rw [h]

theorem programBuffers_videoCap (k : Chan) (s : State) : (programBuffers k s).videoCap = s.videoCap :=
  List.foldlRecOn (motive := fun t : State => t.videoCap = s.videoCap) _ _ rfl fun t h j _ => by
    unfold programStep
    split
    · exact h
    · split <;> exact h

/-- START requests its channel, if it is not rejected (41_host_stream_queue.md R158). -/
theorem startChannel_videoCap (k : Chan) (s : State) :
    (startChannel k s).videoCap = if startable (s.chan k) then s.videoCap ||| maskBit k else s.videoCap := by
  have hsections (u : State) :
      (startEnableSection k (startQueueSection k u)).videoCap = u.videoCap ||| maskBit k :=
    (enableBits_onlyDma _ _).videoCap
  unfold startChannel
  split
  · rw [respond, emit_videoCap, hsections]
    split
    · rfl
    · rw [programBuffers_videoCap]
  · rfl

/-- STOP withdraws the request (R162). -/
theorem stopSections_videoCap (k : Chan) (s : State) :
    (stopFlushSection k (stopDisableSection k s)).videoCap = s.videoCap &&& ~~~maskBit k :=
  (disableBits_onlyDma _ { s with videoCap := s.videoCap &&& ~~~maskBit k }).videoCap

theorem getLsbD_maskBit_ne {j k : Chan} (h : j ≠ k) : (maskBit k).getLsbD j.val = false := by
  rw [maskBit, ← BitVec.twoPow_eq, BitVec.getLsbD_twoPow]
  simp [Fin.val_ne_of_ne h.symm]

theorem chanOf_eq_some {ch : BitVec 4} {k : Chan} (h : chanOf ch = some k) : ch = BitVec.ofNat 4 k.val := by
  unfold chanOf at h
  split at h
  · cases h; simp
  · cases h

theorem execStart_videoCap {ch : BitVec 4} {j : Chan} {s t : State} (hj : chanOf ch ≠ some j)
    (h : execStart ch s = .next t) : t.videoCap.getLsbD j.val = s.videoCap.getLsbD j.val := by
  unfold execStart at h
  split at h <;> cases h
  · rfl
  · next k hk =>
    have hne : j ≠ k := fun e => hj (e ▸ hk)
    rw [startChannel_videoCap]
    split
    · rw [BitVec.getLsbD_or, getLsbD_maskBit_ne hne, Bool.or_false]
    · rfl

theorem execStop_videoCap {ch : BitVec 4} {j : Chan} {s t : State} (hj : chanOf ch ≠ some j)
    (h : execStop ch s = .next t) : t.videoCap.getLsbD j.val = s.videoCap.getLsbD j.val := by
  unfold execStop at h
  split at h <;> cases h
  · rfl
  · next k hk =>
    have hne : j ≠ k := fun e => hj (e ▸ hk)
    rw [respond, emit_videoCap, stopSections_videoCap, BitVec.getLsbD_and, BitVec.getLsbD_not,
      getLsbD_maskBit_ne hne]
    simp

/-- The other commands leave the whole set alone. -/
theorem CommandBody.videoCap {i : Instr} {s u : State} (h : CommandBody i s u)
    (hi : ∀ ch, i ≠ .start ch ∧ i ≠ .stop ch) : u.videoCap = s.videoCap := by
  cases h with
  | unchanged => rfl
  | enable id => exact (enableBits_onlyDma _ s).videoCap
  | disable id => exact (disableBits_onlyDma _ s).videoCap
  | firstStart ch | start ch => exact absurd rfl (hi ch).1
  | stop ch => exact absurd rfl (hi ch).2
  | enq ch k addr cap =>
    unfold enqueueSection
    split <;> rfl
  | setfmt ch k width height bpp mode =>
    unfold setFormatSection
    split
    · dsimp only
      split <;> rfl
    · rfl

/-! ### The frame of an interrupt invocation -/

theorem onlyInterrupt_trans {s t u : State} (h : OnlyInterruptState s t) (g : OnlyInterruptState t u) :
    OnlyInterruptState s u := by
  unfold OnlyInterruptState at *
  rw [g, h]

theorem OnlyDmaRegs.onlyInterruptState {s t : State} (h : OnlyDmaRegs s t) : OnlyInterruptState s t := by
  rw [h]; rfl

theorem OnlyCopied.onlyInterruptState {s t : State} (h : OnlyCopied s t) : OnlyInterruptState s t := by
  rw [h]; rfl

/-- A copy, and then what is done with its result. -/
theorem onlyInterrupt_copy {k : Chan} {f : FieldNo} {slot : Slot} {single : Bool} {buf : Entry} {s t : State}
    {g : State → State} (h : (andThen (copyField k f slot single buf s) fun u => .next (g u)) = .next t)
    (hg : ∀ u, OnlyInterruptState u (g u)) : OnlyInterruptState s t := by
  obtain ⟨u, hu, ht⟩ := andThen_eq_next.1 h
  cases ht
  exact onlyInterrupt_trans (copyField_onlyCopied hu).onlyInterruptState (hg u)

theorem onlyInterrupt_fieldEvent {k : Chan} {field : FieldNo} {slot : Slot} {buf : Entry} {s t : State}
    (h : fieldEvent k field slot buf s = .next t) : OnlyInterruptState s t := by
  unfold fieldEvent at h
  dsimp only at h
  split at h
  · split at h
    · split at h
      · exact onlyInterrupt_copy h fun _ => rfl
      · cases h; rfl
    · split at h
      · exact onlyInterrupt_copy h fun _ => rfl
      · cases h; rfl
  · split at h
    · exact onlyInterrupt_copy h fun _ => rfl
    · cases h; rfl
  · split at h
    · exact onlyInterrupt_copy h fun _ => rfl
    · cases h; rfl
  · exact onlyInterrupt_copy h fun _ => rfl

theorem onlyInterrupt_channelWork {k : Chan} {s t : State} (h : channelWork k s = .next t) :
    OnlyInterruptState s t := by
  unfold channelWork at h
  dsimp only at h
  split at h
  · cases h; rfl
  split at h
  · cases h; rfl
  split at h
  · cases h; rfl
  split at h
  · cases h; rfl
  split at h
  · cases h; rfl
  · exact onlyInterrupt_fieldEvent h

theorem onlyInterrupt_resetSection (m : Mask) (s : State) : OnlyInterruptState s (resetSection m s) := by
  rw [resetSection_eq]
  have hregs := onlyDmaRegs_trans
    (setEnable_onlyDma (s.dev.dmaEn &&& ~~~(m.setWidth 32)) (regRead .dmaCmd (regRead .dmaEn s)))
    (haltIfEmpty_onlyDma (s.dev.dmaEn &&& ~~~(m.setWidth 32)) _)
  exact onlyInterrupt_trans hregs.onlyInterruptState rfl

theorem onlyInterrupt_resetPhase (s : State) : OnlyInterruptState s (resetPhase s) := by
  unfold resetPhase
  split
  · rfl
  · refine onlyInterrupt_trans ?_ (onlyInterrupt_resetSection _ _)
    obtain ⟨contexts, hdiscard⟩ := discardAll_onlyContexts s.lat.rst s
    rw [hdiscard]; rfl

theorem onlyInterrupt_classified (s : State) : OnlyInterruptState (irqEnter s) (classified s) := rfl

theorem onlyInterrupt_raiseTimeout (s : State) : OnlyInterruptState s (raiseTimeout s) := rfl

theorem onlyInterrupt_readMasks (s : State) : OnlyInterruptState s (readMasks s) := rfl

theorem onlyInterrupt_audioHandOff (s : State) : OnlyInterruptState s (audioHandOff s) := by
  unfold audioHandOff
  split <;> rfl

/-- An invocation changes what its sections change; `irq_active` is set at its entry and cleared at its end (R233). -/
theorem onlyInterrupt_dispatch {s t : State} (h : dispatch s = .next t) :
    ∃ u, OnlyInterruptState (irqEnter s) u ∧ t = irqLeave u := by
  have hclass := onlyInterrupt_classified s
  obtain rfl | rfl | ⟨u, hu, rfl⟩ := dispatch_cases h
  · exact ⟨classified s, hclass, rfl⟩
  · have htimeout := onlyInterrupt_trans hclass (onlyInterrupt_raiseTimeout _)
    exact ⟨_, onlyInterrupt_trans htimeout (onlyInterrupt_resetPhase _), rfl⟩
  · have hmasks := onlyInterrupt_trans hclass (onlyInterrupt_readMasks _)
    have hloop := forChans_keeps (P := OnlyInterruptState (irqEnter s))
      (fun _ _ _ hkept hwork => onlyInterrupt_trans hkept (onlyInterrupt_channelWork hwork)) _ _ _ hmasks hu
    have haudio := onlyInterrupt_trans hloop (onlyInterrupt_audioHandOff u)
    exact ⟨_, onlyInterrupt_trans haudio (onlyInterrupt_resetPhase _), rfl⟩

/-! ### Events -/

theorem execIrq_videoCap {s t : State} (h : execIrq s = .next t) : t.videoCap = s.videoCap := by
  unfold execIrq at h
  split at h
  · cases h; rfl
  · obtain ⟨u, hu, rfl⟩ := onlyInterrupt_dispatch h
    rw [irqLeave_videoCap, hu, irqEnter_videoCap]

theorem execTdefer_videoCap {s t : State} (h : execTdefer s = .next t) : t.videoCap = s.videoCap := by
  unfold execTdefer at h
  split at h <;> cases h
  · rw [deferSection_eq, disarm]
    split
    · exact (onlyDmaRegs_trans (setEnable_onlyDma s.pendEn s) (writeCmd_onlyDma s.pendCmd _)).videoCap
    · rfl
  · rfl

theorem execTwdog_videoCap {s t : State} (h : execTwdog s = .next t) : t.videoCap = s.videoCap := by
  unfold execTwdog at h
  split at h <;> cases h
  · unfold wdogSection
    split
    · rfl
    · split
      · rfl
      · exact (enableBits_onlyDma _ (wdogRearm s)).videoCap
  · rfl

/-- Settles O53: START and STOP write the bit of the channel their operand names, and no other operation writes the
set. -/
theorem requestedSetChangesOnlyByStartAndStop : Obligations.RequestedSetChangesOnlyByStartAndStop := by
  intro i s t h j hstart hstop
  cases i with
  | start ch => exact execStart_videoCap (fun hch => hstart (chanOf_eq_some hch ▸ rfl)) h
  | stop ch => exact execStop_videoCap (fun hch => hstop (chanOf_eq_some hch ▸ rfl)) h
  | _ =>
    suffices hset : t.videoCap = s.videoCap by rw [hset]
    obtain ⟨u, status, data, hu, rfl⟩ | ⟨-, hirq⟩ | ⟨-, hdefer⟩ | ⟨-, hwdog⟩ := exec_cases h
    · exact hu.videoCap fun _ => ⟨nofun, nofun⟩
    · exact execIrq_videoCap hirq
    · exact execTdefer_videoCap hdefer
    · exact execTwdog_videoCap hwdog

end Sys2Proof.Machine

/-! ## The host commands on a video channel (41_host_stream_queue.md R154 to R170) -/

namespace Sys2Proof.Machine

/-! ### The commands of a video channel, by their sections -/

theorem exec_start_chan (k : Chan) (s : State) :
    exec (.start (BitVec.ofNat 4 k.val)) s = .next (startChannel k s) := by
  simp only [exec, execStart, chanOf_ofNat]

theorem exec_stop_chan (k : Chan) (s : State) :
    exec (.stop (BitVec.ofNat 4 k.val)) s = .next (respond .ok 0 (stopFlushSection k (stopDisableSection k s))) := by
  simp only [exec, execStop, chanOf_ofNat]

theorem exec_enq_chan (k : Chan) (addr cap : Word) (s : State) :
    exec (.enq (BitVec.ofNat 4 k.val) addr cap) s =
      .next (if bufInRange addr cap
        then respond (enqueueStatus s.cfg (s.chan k)) 0 (enqueueSection k addr cap s)
        else respond .errRange 0 s) := by
  simp only [exec, execEnq, chanOf_ofNat]
  split <;> rfl

theorem exec_setfmt_chan (k : Chan) (w h : BitVec 16) (b : BitVec 3) (m : FieldMode) (s : State) :
    exec (.setfmt (BitVec.ofNat 4 k.val) w h b m) s =
      .next (if fmtInRange s.cfg w h b m
        then respond (setFormatStatus (s.chan k)) 0 (setFormatSection k w h b m s)
        else respond .errRange 0 s) := by
  simp only [exec, execSetfmt, chanOf_ofNat]
  split <;> rfl

/-! ### START (R156, R158) -/

/-- The four field buffer addresses ProgramBuffers writes (20_memory.md R69, R156). -/
def bufferAddrs (p : Params) (k : Chan) : BySlot Word :=
  let a := fun j : Nat => BitVec.ofNat 32 (p.fieldBase + (4 * k.val + j) * p.maxFieldBytes)
  ⟨a 0, a 1, a 2, a 3⟩

/-- The five plain writes of ProgramBuffers, in its order (R156). -/
def programTransfers (k : Chan) (s : State) : List Obs :=
  [.regWrite (s.cfg.regMap.chAddr.get k).f0p (bufferAddrs s.cfg k).f0p,
    .regWrite (s.cfg.regMap.chAddr.get k).f0b (bufferAddrs s.cfg k).f0b,
    .regWrite (s.cfg.regMap.chAddr.get k).f1p (bufferAddrs s.cfg k).f1p,
    .regWrite (s.cfg.regMap.chAddr.get k).f1b (bufferAddrs s.cfg k).f1b,
    .regWrite (s.cfg.regMap.chGeom.get k) (geomWord (s.chan k))]

/-- ProgramBuffers as one update: its six steps run one after another (R156). -/
theorem programBuffers_eq (k : Chan) (s : State) :
    programBuffers k s =
      { s with
        ch := s.ch.set k { s.chan k with alloc := true }
        dev := { s.dev with
          chAddr := s.dev.chAddr.set k (bufferAddrs s.cfg k)
          chGeom := s.dev.chGeom.set k (geomWord (s.chan k)) }
        hist := s.hist ++ programTransfers k s } := by
  simp [programBuffers, programStep, fieldSlot, regWrite, regStore, regOffset, State.emit, State.modChan, State.chan,
    BySlot.set, BySlot.get, fbAddr, FieldNo.num, Slot.num, bufferAddrs, programTransfers]

/-- START sections 2 and 3 on faithful registers. -/
theorem startSections_faithful (k : Chan) (s : State) (h : s.dev.glitch = []) :
    startEnableSection k (startQueueSection k s) =
      let e := s.dev.dmaEn ||| wordBit k.val
      let w := cmdWord s.cfg e
      { s with
        ch := s.ch.set k { s.chan k with seq := 0, curPB := .p, curField := .f0, fsm := .awaitF0 }
        videoCap := s.videoCap ||| maskBit k
        videoDMA := videoBits e
        dev := { s.dev with dmaEn := e, dmaCmd := w }
        hist := s.hist ++ enableTransfers s.cfg.regMap s.dev.dmaEn e w } := by
  rw [startEnableSection, enableBits_faithful]
  · rfl
  · exact h

theorem startChannel_later {k : Chan} {s : State} (hs : startable (s.chan k) = true) (ha : (s.chan k).alloc = true) :
    startChannel k s = respond .ok 0 (startEnableSection k (startQueueSection k s)) := by
  simp only [startChannel, if_pos hs, if_pos ha]

theorem startChannel_first {k : Chan} {s : State} (hs : startable (s.chan k) = true) (ha : (s.chan k).alloc = false) :
    startChannel k s = respond .ok 0 (startEnableSection k (startQueueSection k (programBuffers k s))) := by
  simp only [startChannel, if_pos hs, ha, Bool.false_eq_true, if_false]

/-- Settles O18: a later start is sections 2 and 3; the first one programs the buffers before them. -/
theorem startProgramsRequestsAndEnables : Obligations.StartProgramsRequestsAndEnables := by
  intro k s hfaithful hconf hidle c a g e w
  have hs : startable (s.chan k) = true := (startable_iff _).2 ⟨hconf, hidle⟩
  rw [exec_start_chan]
  cases halloc : (s.chan k).alloc with
  | true =>
    rw [startChannel_later hs halloc, startSections_faithful k s hfaithful]
    simp only [halloc, if_true, List.append_nil]
    rfl
  | false =>
    rw [startChannel_first hs halloc, programBuffers_eq, startSections_faithful]
    · simp only [Bool.false_eq_true, if_false, State.chan, Bank.get_set_same, Bank.set_set]
      rfl
    · exact hfaithful

/-! ### STOP (R162, R163) -/

/-- STOP section 1 on faithful registers. -/
theorem stopDisableSection_faithful (k : Chan) (s : State) (h : s.dev.glitch = []) :
    stopDisableSection k s =
      let e := s.dev.dmaEn &&& ~~~wordBit k.val
      { s with
        videoCap := s.videoCap &&& ~~~maskBit k
        videoDMA := videoBits e
        dev := { s.dev with dmaEn := e, dmaCmd := haltedCmd e s.dev.dmaCmd }
        hist := s.hist ++ disableTransfers s.cfg.regMap s.dev.dmaEn e } := by
  rw [stopDisableSection, disableBits_faithful]
  exact h

/-- STOP section 2: a record for each queued buffer, head to tail, before the queue is emptied. -/
theorem stopFlushSection_eq (k : Chan) (s : State) :
    stopFlushSection k s =
      { s with
        ch := s.ch.set k { s.chan k with queue := [], fsm := .idle }
        hist := s.hist ++ (s.chan k).queue.map (flushRecord k (s.chan k) s.now) } := by
  simp [stopFlushSection, flushAll, State.modChan, State.chan]

/-- Settles O19: section 1 leaves the context alone, so section 2 flushes the queue STOP found. -/
theorem stopDisablesThenFlushes : Obligations.StopDisablesThenFlushes := by
  intro k s hfaithful c e
  rw [exec_stop_chan, stopDisableSection_faithful k s hfaithful, stopFlushSection_eq]
  rfl

/-! ### ENQ (R166) -/

theorem bufInRange_iff (addr cap : Word) :
    bufInRange addr cap = true ↔ cap ≠ 0 ∧ addr.toNat + cap.toNat ≤ 2 ^ 32 := by
  rw [← Bool.not_eq_false, bufInRange_eq_false_iff, not_or, Nat.not_lt]

/-- Settles O20: the range check passes and there is room. -/
theorem enqAppendsAtTheTail : Obligations.EnqAppendsAtTheTail := by
  intro k s addr cap hcap hsum hroom
  rw [exec_enq_chan, if_pos ((bufInRange_iff addr cap).2 ⟨hcap, hsum⟩), enqueueStatus, if_neg hroom, enqueueSection,
    if_neg hroom]
  rfl

/-! ### SETFMT (R154) -/

/-- SETFMT's section on an idle channel: the format, and the geometry word of the new format once the buffers are
programmed. -/
theorem setFormatSection_idle {k : Chan} {s : State} (w h : BitVec 16) (b : BitVec 3) (m : FieldMode)
    (hidle : (s.chan k).fsm = .idle) :
    setFormatSection k w h b m s =
      let c := withFormat w h b m (s.chan k)
      { s with
        ch := s.ch.set k c
        dev := { s.dev with chGeom := if c.alloc then s.dev.chGeom.set k (geomWord c) else s.dev.chGeom }
        hist := s.hist ++ if c.alloc then [.regWrite (s.cfg.regMap.chGeom.get k) (geomWord c)] else [] } := by
  rw [setFormatSection, if_pos hidle]
  dsimp only
  rw [chan_modChan_same]
  split
  · rfl
  · rw [List.append_nil]
    rfl

theorem fmtInRange_iff (p : Params) (w h : BitVec 16) (b : BitVec 3) (m : FieldMode) :
    fmtInRange p w h b m = true ↔ w ≠ 0 ∧ h ≠ 0 ∧ b ≠ 0 ∧ b.toNat ≤ 4
      ∧ (if m = .interlaced then (h.toNat + 1) / 2 else h.toNat) * w.toNat * b.toNat ≤ p.maxFieldBytes := by
  rw [← Bool.not_eq_false, fmtInRange_eq_false_iff]
  simp only [not_or, Nat.not_lt, ne_eq]

/-- Settles O21: the range check passes, the channel is idle, and `alloc` decides on the write of CH_GEOM. -/
theorem setfmtStoresTheFormat : Obligations.SetfmtStoresTheFormat := by
  intro k s w h b m hw hh hb hb4 hfits hidle g
  rw [exec_setfmt_chan, if_pos ((fmtInRange_iff s.cfg w h b m).2 ⟨hw, hh, hb, hb4, hfits⟩), setFormatStatus,
    if_pos hidle, setFormatSection_idle w h b m hidle]
  rfl

/-! ### One command at a time (R170) -/

/-- Settles O59: serving and taking both look at the command in progress first. -/
theorem oneCommandAtATime : Obligations.OneCommandAtATime := by
  intro s htask
  refine ⟨serveCommand_waiting (.inl htask), ?_⟩
  rw [takeUp, takeCommand, if_pos (Option.isSome_iff_ne_none.2 htask)]

/-! ### What a host command leaves alone (R154, R158, R162, R166, R172) -/

/-- The context of channel `j` and its programmed registers are as before. -/
structure SameChan (j : Chan) (s t : State) : Prop where
  ctx : t.chan j = s.chan j
  geom : t.dev.chGeom.get j = s.dev.chGeom.get j
  addrs : t.dev.chAddr.get j = s.dev.chAddr.get j

/-- From `s` to `t` only the state of host commands changed, and of the channels only number `n`. -/
structure OnlyOnChan (n : Nat) (s t : State) : Prop where
  command : OnlyCommandState s t
  others : ∀ j : Chan, j.val ≠ n → SameChan j s t

theorem onlyCommandState_trans {s t u : State} (h : OnlyCommandState s t) (g : OnlyCommandState t u) :
    OnlyCommandState s u := by
  unfold OnlyCommandState at *
  rw [g, h]

theorem OnlyCommandState.sameMemory {s t : State} (h : OnlyCommandState s t) : SameMemory s t := by
  intro a
  rw [h]

theorem SameChan.trans {j : Chan} {s t u : State} (h : SameChan j s t) (g : SameChan j t u) : SameChan j s u where
  ctx := g.ctx.trans h.ctx
  geom := g.geom.trans h.geom
  addrs := g.addrs.trans h.addrs

theorem OnlyOnChan.refl (n : Nat) (s : State) : OnlyOnChan n s s := ⟨rfl, fun _ _ => ⟨rfl, rfl, rfl⟩⟩

theorem OnlyOnChan.trans {n : Nat} {s t u : State} (h : OnlyOnChan n s t) (g : OnlyOnChan n t u) :
    OnlyOnChan n s u where
  command := onlyCommandState_trans h.command g.command
  others j hj := (h.others j hj).trans (g.others j hj)

theorem OnlyOnChan.respond {n : Nat} {s t : State} (h : OnlyOnChan n s t) (status : Status) (data : Word) :
    OnlyOnChan n s (respond status data t) := h.trans ⟨rfl, fun _ _ => ⟨rfl, rfl, rfl⟩⟩

theorem chan_respond (status : Status) (data : Word) (s : State) (j : Chan) :
    (respond status data s).chan j = s.chan j := rfl

/-- The requested set and the registers of DMA_EN and DMA_CMD are no channel's own. -/
theorem OnlyDmaRegs.onlyOnChan {n : Nat} {m : Mask} {s t : State} (h : OnlyDmaRegs { s with videoCap := m } t) :
    OnlyOnChan n s t := by
  rw [h]
  exact ⟨rfl, fun _ _ => ⟨rfl, rfl, rfl⟩⟩

theorem onlyOnChan_modChan (k : Chan) (f : Ctx → Ctx) (s : State) : OnlyOnChan k.val s (s.modChan k f) :=
  ⟨rfl, fun _ hj => ⟨chan_modChan_ne s f (Fin.ne_of_val_ne hj), rfl, rfl⟩⟩

theorem onlyOnChan_writeGeom (k : Chan) (v : Word) (s : State) : OnlyOnChan k.val s (regWrite (.chGeom k) v s) :=
  ⟨rfl, fun _ hj => ⟨rfl, Bank.get_set_ne _ _ (Fin.ne_of_val_ne hj), rfl⟩⟩

theorem onlyOnChan_writeAddr (k : Chan) (f : FieldNo) (slot : Slot) (v : Word) (s : State) :
    OnlyOnChan k.val s (regWrite (.chAddr k f slot) v s) :=
  ⟨rfl, fun _ hj => ⟨rfl, rfl, Bank.get_set_ne _ _ (Fin.ne_of_val_ne hj)⟩⟩

/-! #### START -/

theorem onlyOnChan_programStep (k : Chan) (s : State) (j : Nat) : OnlyOnChan k.val s (programStep k s j) := by
  unfold programStep
  split
  · exact onlyOnChan_writeAddr k _ _ _ s
  · split
    · exact onlyOnChan_writeGeom k _ s
    · exact onlyOnChan_modChan k _ s

theorem onlyOnChan_programBuffers (k : Chan) (s : State) : OnlyOnChan k.val s (programBuffers k s) :=
  List.foldlRecOn _ _ (.refl _ s) fun t h j _ => h.trans (onlyOnChan_programStep k t j)

theorem onlyOnChan_startSections (k : Chan) (s : State) :
    OnlyOnChan k.val s (startEnableSection k (startQueueSection k s)) :=
  (onlyOnChan_modChan k _ s).trans (enableBits_onlyDma _ _).onlyOnChan

/-- The context START leaves on a channel it does not reject. -/
def started (c : Ctx) : Ctx := { c with alloc := true, seq := 0, curPB := .p, curField := .f0, fsm := .awaitF0 }

theorem chan_startSections {k : Chan} {s : State} (ha : (s.chan k).alloc = true) :
    (startEnableSection k (startQueueSection k s)).chan k = started (s.chan k) := by
  have hqueue : (startEnableSection k (startQueueSection k s)).chan k = (startQueueSection k s).chan k :=
    congrArg (·.get k) (startEnableSection_ch k _)
  rw [hqueue, startQueueSection, chan_modChan_same, started, ← ha]

theorem chan_programBuffers (k : Chan) (s : State) :
    (programBuffers k s).chan k = { s.chan k with alloc := true } :=
  (congrArg (·.get k) (programBuffers_ch k s)).trans (chan_modChan_same s k _)

theorem startChannel_rejected {k : Chan} {s : State} (hs : ¬ startable (s.chan k) = true) :
    startChannel k s = respond .errState 0 s := if_neg hs

theorem onlyOnChan_startChannel (k : Chan) (s : State) : OnlyOnChan k.val s (startChannel k s) := by
  by_cases hs : startable (s.chan k) = true
  · cases ha : (s.chan k).alloc with
    | true =>
      rw [startChannel_later hs ha]
      exact (onlyOnChan_startSections k s).respond _ _
    | false =>
      rw [startChannel_first hs ha]
      exact ((onlyOnChan_programBuffers k s).trans (onlyOnChan_startSections k _)).respond _ _
  · rw [startChannel_rejected hs]
    exact (OnlyOnChan.refl _ s).respond _ _

theorem chan_startChannel (k : Chan) (s : State) :
    (startChannel k s).chan k = s.chan k ∨ (startChannel k s).chan k = started (s.chan k) := by
  by_cases hs : startable (s.chan k) = true
  · right
    cases ha : (s.chan k).alloc with
    | true => rw [startChannel_later hs ha, chan_respond, chan_startSections ha]
    | false =>
      have hprog := chan_programBuffers k s
      rw [startChannel_first hs ha, chan_respond, chan_startSections (by rw [hprog]), hprog]
      rfl
  · left
    rw [startChannel_rejected hs, chan_respond]

/-! #### STOP -/

theorem stopDisableSection_onlyDma (k : Chan) (s : State) :
    OnlyDmaRegs { s with videoCap := s.videoCap &&& ~~~maskBit k } (stopDisableSection k s) :=
  disableBits_onlyDma _ _

theorem chan_stopDisableSection (k j : Chan) (s : State) : (stopDisableSection k s).chan j = s.chan j :=
  congrArg (·.get j) (stopDisableSection_ch k s)

theorem onlyOnChan_stopFlushSection (k : Chan) (s : State) : OnlyOnChan k.val s (stopFlushSection k s) := by
  rw [stopFlushSection_eq]
  exact ⟨rfl, fun _ hj => ⟨Bank.get_set_ne _ _ (Fin.ne_of_val_ne hj), rfl, rfl⟩⟩

theorem onlyOnChan_stopSections (k : Chan) (s : State) :
    OnlyOnChan k.val s (stopFlushSection k (stopDisableSection k s)) :=
  (stopDisableSection_onlyDma k s).onlyOnChan.trans (onlyOnChan_stopFlushSection k _)

/-- STOP empties its channel's queue and programs nothing. -/
theorem stopSections_frame (k : Chan) (s : State) :
    (stopFlushSection k (stopDisableSection k s)).chan k = { s.chan k with queue := [], fsm := .idle }
      ∧ (stopFlushSection k (stopDisableSection k s)).dev.chGeom = s.dev.chGeom
      ∧ (stopFlushSection k (stopDisableSection k s)).dev.chAddr = s.dev.chAddr := by
  rw [stopFlushSection_eq, chan_stopDisableSection, stopDisableSection_onlyDma k s]
  exact ⟨Bank.get_set_same _ _ _, rfl, rfl⟩

/-! #### ENQ, SETFMT and RDSR -/

/-- What ENQ can do: append, or answer and nothing else. -/
theorem exec_enq_frame {k : Chan} {addr cap : Word} {s t : State}
    (h : exec (.enq (BitVec.ofNat 4 k.val) addr cap) s = .next t) :
    ∃ status u, t = respond status 0 u
      ∧ (u = s ∨ u = s.modChan k fun c => { c with queue := c.queue ++ [⟨addr, cap, .queued⟩] }) := by
  rw [exec_enq_chan] at h
  split at h <;> cases h
  · refine ⟨_, _, rfl, ?_⟩
    unfold enqueueSection
    split
    · exact .inl rfl
    · exact .inr rfl
  · exact ⟨_, _, rfl, .inl rfl⟩

/-- What SETFMT can do: its section on an idle channel, or answer and nothing else. -/
theorem exec_setfmt_frame {k : Chan} {w h : BitVec 16} {b : BitVec 3} {m : FieldMode} {s t : State}
    (hexec : exec (.setfmt (BitVec.ofNat 4 k.val) w h b m) s = .next t) :
    ∃ status u, t = respond status 0 u ∧ (u = s ∨ ((s.chan k).fsm = .idle ∧ u = setFormatSection k w h b m s)) := by
  rw [exec_setfmt_chan] at hexec
  split at hexec <;> cases hexec
  · refine ⟨_, _, rfl, ?_⟩
    by_cases hidle : (s.chan k).fsm = .idle
    · exact .inr ⟨hidle, rfl⟩
    · exact .inl (if_neg hidle)
  · exact ⟨_, _, rfl, .inl rfl⟩

theorem onlyOnChan_setFormatSection (k : Chan) (w h : BitVec 16) (b : BitVec 3) (m : FieldMode) (s : State) :
    OnlyOnChan k.val s (setFormatSection k w h b m s) := by
  unfold setFormatSection
  split
  · dsimp only
    split
    · exact (onlyOnChan_modChan k _ s).trans (onlyOnChan_writeGeom k _ _)
    · exact onlyOnChan_modChan k _ s
  · exact .refl _ s

theorem chan_setFormatSection_idle {k : Chan} {s : State} (w h : BitVec 16) (b : BitVec 3) (m : FieldMode)
    (hidle : (s.chan k).fsm = .idle) : (setFormatSection k w h b m s).chan k = withFormat w h b m (s.chan k) := by
  rw [setFormatSection_idle w h b m hidle]
  exact Bank.get_set_same _ _ _

/-- RDSR answers and does nothing else. -/
theorem exec_rdsr_frame {idx : BitVec 16} {s t : State} (h : exec (.rdsr idx) s = .next t) :
    ∃ status data, t = respond status data s := by
  simp only [exec, execRdsr] at h
  split at h <;> cases h <;> exact ⟨_, _, rfl⟩

/-! #### The five commands -/

/-- A channel operand from 8 on is rejected; what is shown of the channels it can name holds of it. -/
theorem onlyOnChan_of_operand {i : Instr} {ch : BitVec 4} {s t : State} (hlegal : i.channelLegal = (chanOf ch).isSome)
    (h : exec i s = .next t) (hchan : ∀ k : Chan, ch = BitVec.ofNat 4 k.val → OnlyOnChan k.val s t) :
    OnlyOnChan ch.toNat s t := by
  cases hch : chanOf ch with
  | none =>
    rw [exec_errChannel (by rw [hlegal, hch]; rfl)] at h
    cases h
    exact (OnlyOnChan.refl _ s).respond _ _
  | some k =>
    have hk := chanOf_eq_some hch
    have hval : ch.toNat = k.val := by
      rw [hk, BitVec.toNat_ofNat]
      omega
    rw [hval]
    exact hchan k hk

theorem onlyOnChan_exec {s t : State} {ch : BitVec 4} {addr cap : Word} {w h : BitVec 16} {b : BitVec 3}
    {m : FieldMode} {idx : BitVec 16} {i : Instr}
    (hi : i ∈ [Instr.start ch, .stop ch, .enq ch addr cap, .setfmt ch w h b m, .rdsr idx])
    (hexec : exec i s = .next t) : OnlyOnChan ch.toNat s t := by
  simp only [List.mem_cons, List.not_mem_nil, or_false] at hi
  obtain rfl | rfl | rfl | rfl | rfl := hi
  · refine onlyOnChan_of_operand rfl hexec ?_
    rintro k rfl
    cases (exec_start_chan k s).symm.trans hexec
    exact onlyOnChan_startChannel k s
  · refine onlyOnChan_of_operand rfl hexec ?_
    rintro k rfl
    cases (exec_stop_chan k s).symm.trans hexec
    exact (onlyOnChan_stopSections k s).respond _ _
  · refine onlyOnChan_of_operand rfl hexec ?_
    rintro k rfl
    obtain ⟨status, u, rfl, rfl | rfl⟩ := exec_enq_frame hexec
    · exact (OnlyOnChan.refl _ u).respond _ _
    · exact (onlyOnChan_modChan k _ s).respond _ _
  · refine onlyOnChan_of_operand rfl hexec ?_
    rintro k rfl
    obtain ⟨status, u, rfl, rfl | ⟨-, rfl⟩⟩ := exec_setfmt_frame hexec
    · exact (OnlyOnChan.refl _ u).respond _ _
    · exact (onlyOnChan_setFormatSection k w h b m s).respond _ _
  · obtain ⟨status, data, rfl⟩ := exec_rdsr_frame hexec
    exact (OnlyOnChan.refl _ s).respond _ _

/-- Settles O24: the frame all five share, and then each command's own channel. -/
theorem hostCommandFrame : Obligations.HostCommandFrame := by
  refine ⟨?_, ?_, ?_, ?_, ?_⟩
  · intro s t ch addr cap w h b m idx i hi hexec
    obtain ⟨hcommand, hothers⟩ := onlyOnChan_exec hi hexec
    refine ⟨hcommand, hcommand.sameMemory, fun j hj => ?_⟩
    obtain ⟨hctx, hgeom, haddrs⟩ := hothers j hj
    exact ⟨hctx, hgeom, haddrs⟩
  · intro s t k hexec
    cases (exec_start_chan k s).symm.trans hexec
    obtain hsame | hstarted := chan_startChannel k s
    · rw [hsame]
    · rw [hstarted]
      rfl
  · intro s t k hexec
    cases (exec_stop_chan k s).symm.trans hexec
    exact stopSections_frame k s
  · intro s t k addr cap hexec
    obtain ⟨status, u, rfl, rfl | rfl⟩ := exec_enq_frame hexec
    · exact ⟨rfl, rfl, rfl, rfl, rfl⟩
    · rw [chan_respond, chan_modChan_same]
      exact ⟨rfl, rfl, rfl, rfl, rfl⟩
  · intro s t k w h b m hexec
    obtain ⟨status, u, rfl, rfl | ⟨hidle, rfl⟩⟩ := exec_setfmt_frame hexec
    · exact ⟨rfl, rfl, rfl, rfl, rfl⟩
    · rw [chan_respond, chan_setFormatSection_idle w h b m hidle, setFormatSection_idle w h b m hidle]
      exact ⟨rfl, rfl, rfl, rfl, rfl⟩

end Sys2Proof.Machine

/-! ## Field events (42_pingpong_weaver.md R204 to R210)

An accepted field is a copy, which always goes on under the invariant and leaves the contexts alone, and then one change
of the channel's context, with a completion record where the buffer is done. -/

namespace Sys2Proof.Machine

/-! ### The copy before the change -/

/-- Under the invariant the head buffer and every field buffer lie inside memory, so a copy goes on. -/
theorem copyField_completes {k : Chan} {b : Entry} {q : List Entry} {s : State} (hs : s.Inv)
    (hq : (s.chan k).queue = b :: q) (f : FieldNo) (slot : Slot) (single : Bool) :
    ∃ t, copyField k f slot single b s = .next t := by
  obtain ⟨hcfg, hctx, hmem, -⟩ := hs
  have hhead := ctxOk_head (hctx k) hq
  simp only [bufInRange, Bool.and_eq_true, decide_eq_true_eq] at hhead
  obtain ⟨t, ht, -⟩ := copyLines_completes hhead.2 _ 0 s (fbAddr_le hcfg k f slot) hmem
  exact ⟨t, ht⟩

theorem OnlyCopied.chan {s t : State} (h : OnlyCopied s t) (k : Chan) : t.chan k = s.chan k := by rw [h]; rfl

theorem OnlyCopied.cfg {s t : State} (h : OnlyCopied s t) : t.cfg = s.cfg := by rw [h]

theorem OnlyCopied.now {s t : State} (h : OnlyCopied s t) : t.now = s.now := by rw [h]

/-- A context's change after a copy starts from the context before the copy. -/
theorem OnlyCopied.modChan {s t : State} (h : OnlyCopied s t) (k : Chan) (g : Ctx → Ctx) :
    t.modChan k g = { t with ch := s.ch.set k (g (s.chan k)) } := by
  have hch : t.ch = s.ch := by rw [h]
  simp only [State.modChan, State.chan, hch]

/-- What the capture of field 0 does to its channel's context (R205). -/
def captured (slot : Slot) (c : Ctx) : Ctx :=
  { c with curPB := slot, curField := .f0, queue := markHead .partialFill c.queue, fsm := .f0Captured }

theorem captureField0_eq_next {k : Chan} {slot : Slot} {b : Entry} {s t : State} :
    captureField0 k slot b s = .next t ↔
      ∃ v, copyField k .f0 slot false b s = .next v ∧ t = v.modChan k (captured slot) :=
  andThen_eq_next.trans (exists_congr fun _ => and_congr_right fun _ => by
    rw [Host.Outcome.next.injEq, eq_comm]
    rfl)

theorem OnlyCopied.chan_capture {s t : State} (h : OnlyCopied s t) (k : Chan) (slot : Slot) :
    (t.modChan k (captured slot)).chan k = captured slot (s.chan k) := by rw [chan_modChan_same, h.chan]

/-- `Complete` (R208) after a copy and a change of the context that keeps the sequence number. -/
theorem OnlyCopied.complete {s t : State} (h : OnlyCopied s t) (k : Chan) (tag : FieldMode) (b : Entry) {g : Ctx → Ctx}
    (hseq : (g (s.chan k)).seq = (s.chan k).seq) :
    complete k tag b (t.modChan k g) = { t with
      ch := s.ch.set k { g (s.chan k) with
        queue := (g (s.chan k)).queue.tail
        seq := (s.chan k).seq + 1
        fsm := .awaitF0 }
      hist := t.hist ++ [.cpl
        { ch := k, tag := tag, error := false, seq := (s.chan k).seq, addr := b.addr, ts := s.now }] } := by
  simp only [Machine.complete, modChan_modChan, chan_modChan_same, modChan_now, h.chan, h.now, hseq]
  rw [h.modChan]
  simp only [Function.comp, hseq, State.emit, h.now]

/-! ### What a field event is -/

theorem fieldEvent_capture {k : Chan} {slot : Slot} {b : Entry} {s : State}
    (hmode : (s.chan k).fieldMode = .interlaced) (hfsm : (s.chan k).fsm ≠ .f0Captured) :
    fieldEvent k .f0 slot b s = captureField0 k slot b s := by
  simp only [fieldEvent, hmode, if_neg hfsm, if_true]

theorem fieldEvent_weave {k : Chan} {slot : Slot} {b : Entry} {s : State}
    (hmode : (s.chan k).fieldMode = .interlaced) (hfsm : (s.chan k).fsm = .f0Captured)
    (hslot : slot = (s.chan k).curPB) : fieldEvent k .f1 slot b s = weaveField1 k slot b s := by
  simp only [fieldEvent, hmode, hfsm, hslot, and_self, if_true]

theorem fieldEvent_mismatch {k : Chan} {field : FieldNo} {slot : Slot} {b : Entry} {s : State}
    (hmode : (s.chan k).fieldMode = .interlaced) (hfsm : (s.chan k).fsm = .f0Captured)
    (hbad : ¬ (field = .f1 ∧ slot = (s.chan k).curPB)) : fieldEvent k field slot b s = .next (mismatch k s) := by
  simp only [fieldEvent, hmode, if_pos hfsm, if_neg hbad]

/-- The fields a single-field mode takes (R210). -/
def SingleWanted (mode : FieldMode) (f : FieldNo) : Prop :=
  (mode = .top ∧ f = .f0) ∨ (mode = .bottom ∧ f = .f1) ∨ mode = .alternate

theorem fieldEvent_single {k : Chan} {f : FieldNo} {slot : Slot} {b : Entry} {s : State}
    (h : SingleWanted (s.chan k).fieldMode f) :
    fieldEvent k f slot b s = singleField k f slot b (if f = .f0 then .top else .bottom) s := by
  obtain ⟨hmode, rfl⟩ | ⟨hmode, rfl⟩ | hmode := h
  · simp only [fieldEvent, hmode, if_true]
  · simp only [fieldEvent, hmode, if_true, reduceCtorEq, if_false]
  · simp only [fieldEvent, hmode]

/-- What a field event can be: nothing, a discard, a capture, a weave under the guard of R206, or a completion by a single
field, whose tag is not INTERLACED. -/
theorem fieldEvent_cases {k : Chan} {field : FieldNo} {slot : Slot} {b : Entry} {s t : State}
    (h : fieldEvent k field slot b s = .next t) :
    t = s ∨ t = mismatch k s ∨ captureField0 k slot b s = .next t
      ∨ ((s.chan k).fsm = .f0Captured ∧ (s.chan k).fieldMode = .interlaced ∧ field = .f1 ∧ slot = (s.chan k).curPB
        ∧ weaveField1 k slot b s = .next t)
      ∨ ∃ f tag, tag ≠ .interlaced ∧ singleField k f slot b tag s = .next t := by
  unfold fieldEvent at h
  dsimp only at h
  split at h
  case h_1 hmode =>
    split at h
    · next hfsm =>
      split at h
      · next hguard => exact .inr (.inr (.inr (.inl ⟨hfsm, hmode, hguard.1, hguard.2, h⟩)))
      · cases h; exact .inr (.inl rfl)
    · split at h
      · exact .inr (.inr (.inl h))
      · cases h; exact .inl rfl
  case h_2 =>
    split at h
    · exact .inr (.inr (.inr (.inr ⟨_, .top, by simp, h⟩)))
    · cases h; exact .inl rfl
  case h_3 =>
    split at h
    · exact .inr (.inr (.inr (.inr ⟨_, .bottom, by simp, h⟩)))
    · cases h; exact .inl rfl
  case h_4 => exact .inr (.inr (.inr (.inr ⟨_, _, by split <;> simp, h⟩)))

/-- Settles O32: each clause runs into the branch that answers the state it was given. -/
theorem unwantedFieldIsIgnored : Obligations.UnwantedFieldIsIgnored := by
  intro k slot b s
  refine ⟨fun hmode hfsm => ?_, fun hmode => ?_, fun hmode => ?_⟩
  · simp only [fieldEvent, hmode, hfsm, reduceCtorEq, if_false]
  · simp only [fieldEvent, hmode, reduceCtorEq, if_false]
  · simp only [fieldEvent, hmode, reduceCtorEq, if_false]

/-- Settles O33: the copy goes on, and the capture is made of the context before it. -/
theorem fieldZeroIsCaptured : Obligations.FieldZeroIsCaptured := by
  intro k slot b q s hs hmode hfsm hq
  obtain ⟨t, ht⟩ := copyField_completes hs hq .f0 slot false
  refine ⟨t, ht, ?_⟩
  rw [fieldEvent_capture hmode (by simp [hfsm]), captureField0_eq_next.2 ⟨t, ht, rfl⟩,
    (copyField_onlyCopied ht).modChan, captured, hq]
  rfl

/-- Settles O34: the copy goes on, and the completion is made of the context before it. -/
theorem matchingFieldOneCompletes : Obligations.MatchingFieldOneCompletes := by
  intro k b q s hs hmode hfsm hq
  obtain ⟨t, ht⟩ := copyField_completes hs hq .f1 (s.chan k).curPB false
  refine ⟨t, ht, ?_⟩
  rw [fieldEvent_weave hmode hfsm rfl, weaveField1, ht, andThen_next,
    (copyField_onlyCopied ht).complete k .interlaced b rfl, hq]
  rfl

/-- Settles O35: both event shapes fail the guard of the weave. -/
theorem mismatchDiscardsTheFrame : Obligations.MismatchDiscardsTheFrame := by
  intro k field slot b q s hmode hfsm hq hbad
  have hguard : ¬ (field = .f1 ∧ slot = (s.chan k).curPB) := by
    rintro ⟨rfl, rfl⟩
    simp at hbad
  have hctx : dropFrame (s.ch.get k) = { s.chan k with fsm := .awaitF0, queue := { b with bstate := .queued } :: q } := by
    change dropFrame (s.chan k) = _
    rw [dropFrame, hq]
    rfl
  rw [fieldEvent_mismatch hmode hfsm hguard, mismatch, raiseFault, modChan_modChan, State.modChan, Function.comp, hctx]
  rfl

/-- Settles O36: the copy goes on, and the completion is made of the context before it. -/
theorem singleFieldCompletes : Obligations.SingleFieldCompletes := by
  intro k f slot b q s hs hq hwanted
  obtain ⟨t, ht⟩ := copyField_completes hs hq f slot true
  refine ⟨t, ht, ?_⟩
  rw [fieldEvent_single hwanted, singleField, ht, andThen_next, (copyField_onlyCopied ht).complete k _ b rfl, hq]
  rfl

end Sys2Proof.Machine

/-! ## The copy sequencer (42_pingpong_weaver.md R200 to R202)

What a copy moves, stated over a plan: where its lines start in the field buffer and in the frame buffer, and the bounds
that end it. -/

namespace Sys2Proof.Machine

/-! ### Memory read as bytes -/

theorem Memory.readBytes_congr {m m' : Mem} {a n : Nat}
    (h : ∀ x < n, Memory.read m (a + x) = Memory.read m' (a + x)) :
    Memory.readBytes m a n = Memory.readBytes m' a n :=
  List.ext_getElem (by simp) fun x hx _ => by
    rw [Memory.getElem_readBytes, Memory.getElem_readBytes]
    exact h x (by simpa using hx)

/-- A canonical memory that bytes of another have been moved into reads them back. -/
theorem Memory.read_writeBytes_readBytes {m m' : Mem} {src dst n : Nat} (hm : Memory.wf m)
    (hdst : dst + n ≤ Memory.size) {x : Nat} (hx : x < n) :
    Memory.read (Memory.writeBytes m dst (Memory.readBytes m' src n)) (dst + x) = Memory.read m' (src + x) := by
  rw [Memory.read_writeBytes_in dst _ hm (by simpa using hdst) x (by simpa using hx), Memory.getElem_readBytes]

/-! ### The plan of a copy -/

/-- The geometry of a copy (R202): field buffer and its size, frame buffer and its capacity, pitch, first offset and
step in the frame buffer. -/
structure CopyPlan where
  src : Nat
  size : Nat
  dst : Nat
  cap : Nat
  p : Nat
  off0 : Nat
  step : Nat

/-- Where line `i` starts in the field buffer. -/
def CopyPlan.srcLine (c : CopyPlan) (i : Nat) : Nat := c.src + i * c.p

/-- Where line `i` starts in the frame buffer. -/
def CopyPlan.dstLine (c : CopyPlan) (i : Nat) : Nat := c.dst + (c.off0 + i * c.step)

/-- Line `i` passes neither bound. -/
def CopyPlan.Fits (c : CopyPlan) (i : Nat) : Prop := i * c.p + c.p ≤ c.size ∧ c.off0 + i * c.step + c.p ≤ c.cap

/-- `n` lines of the plan from line `i` on. -/
def CopyPlan.run (c : CopyPlan) (n i : Nat) (s : State) : Res := copyLines c.src c.dst c.cap c.p c.off0 c.step n i s

/-- The plan of CopyField. -/
def copyPlan (k : Chan) (f : FieldNo) (slot : Slot) (single : Bool) (b : Entry) (s : State) : CopyPlan where
  src := fbAddr s.cfg k f slot
  size := s.cfg.maxFieldBytes
  dst := b.addr.toNat
  cap := b.cap.toNat
  p := pitch (s.chan k)
  off0 := copyOffset (s.chan k) f single
  step := copyStep (s.chan k) single

theorem copyField_eq_run (k : Chan) (f : FieldNo) (slot : Slot) (single : Bool) (b : Entry) (s : State) :
    copyField k f slot single b s =
      (copyPlan k f slot single b s).run (copyCount (s.chan k) f single) 0 s := rfl

/-- The sequencer's loop: done, stopped at a line that does not fit, or one line and then the rest. -/
theorem CopyPlan.run_cases {c : CopyPlan} {n i : Nat} {s t : State} (hsize : s.cfg.maxFieldBytes = c.size)
    (h : c.run n i s = .next t) :
    (t = s ∧ (n = 0 ∨ ¬ c.Fits i))
      ∨ ∃ m u, n = m + 1 ∧ c.Fits i ∧ copyLine (c.srcLine i) (c.dstLine i) c.p s = .next u
        ∧ c.run m (i + 1) u = .next t := by
  cases n with
  | zero => cases h; exact .inl ⟨rfl, .inl rfl⟩
  | succ m =>
    simp only [run, copyLines, hsize] at h
    split at h
    · next hsrc => cases h; exact .inl ⟨rfl, .inr fun hf => absurd hf.1 (Nat.not_le.2 hsrc)⟩
    split at h
    · next hdst => cases h; exact .inl ⟨rfl, .inr fun hf => absurd hf.2 (Nat.not_le.2 hdst)⟩
    next hsrc hdst =>
      obtain ⟨u, hu, ht⟩ := andThen_eq_next.1 h
      exact .inr ⟨m, u, rfl, ⟨Nat.not_lt.1 hsrc, Nat.not_lt.1 hdst⟩, hu, ht⟩

/-! ### The frame -/

/-- No byte outside the two buffers changes, whatever overlaps and whatever the late fills write (log 10). -/
theorem CopyPlan.read_run_outside {c : CopyPlan} {a : Nat} (hdst : a < c.dst ∨ c.dst + c.cap ≤ a)
    (hsrc : a < c.src ∨ c.src + c.size ≤ a) {n i : Nat} {s t : State} (hsize : s.cfg.maxFieldBytes = c.size)
    (h : c.run n i s = .next t) : Memory.read t.mem a = Memory.read s.mem a := by
  induction n generalizing i s with
  | zero => cases h; rfl
  | succ n ih =>
    obtain ⟨rfl, -⟩ | ⟨m, u, hm, ⟨hfs, hfd⟩, hline, hrest⟩ := run_cases hsize h
    · rfl
    · cases hm
      rw [ih ((congrArg _ (copyLine_onlyCopied hline).cfg).trans hsize) hrest]
      exact copyLine_read_out hline (by unfold srcLine; omega) (by unfold dstLine; omega)

/-- Settles O38: the bounds of R202 keep each line inside its buffer. -/
theorem copyStaysInsideTheBuffers : Obligations.CopyStaysInsideTheBuffers := by
  intro k f slot single b s t a h hdst hsrc
  exact (copyPlan k f slot single b s).read_run_outside hdst hsrc rfl h

/-! ### What is moved while the field buffer is quiet (70_reset_and_hazards.md R300) -/

/-- A line's copy without a late fill is one write. -/
theorem copyLine_quiet {src dst n : Nat} {s t : State} (hquiet : s.dev.lateFill = [])
    (h : copyLine src dst n s = .next t) : t = memWrite dst (Memory.readBytes s.mem src n) s := by
  obtain ⟨-, -, rfl⟩ := copyLine_eq_next.1 h
  rw [landFill_quiet _ _ _ hquiet]

/-- The frame buffer is disjoint from the field buffer, and its lines from each other. -/
structure CopyPlan.Disjoint (c : CopyPlan) : Prop where
  buffers : c.dst + c.cap ≤ c.src ∨ c.src + c.size ≤ c.dst
  lines : c.p ≤ c.step

/-- `t` is `s` after `L` lines of the plan from line `i` on: in the history in order, each at its place, and nothing
else changed. -/
structure CopyPlan.Moved (c : CopyPlan) (i L : Nat) (s t : State) : Prop where
  hist : t.hist = s.hist ++
    (List.range' i L).map fun j => .memWrite (c.dstLine j) (Memory.readBytes s.mem (c.srcLine j) c.p)
  bytes : ∀ j, i ≤ j → j < i + L → ∀ x < c.p,
    Memory.read t.mem (c.dstLine j + x) = Memory.read s.mem (c.srcLine j + x)
  rest : ∀ a, (∀ j, i ≤ j → j < i + L → a < c.dstLine j ∨ c.dstLine j + c.p ≤ a) →
    Memory.read t.mem a = Memory.read s.mem a
  frame : t = { s with mem := t.mem, hist := t.hist }

theorem CopyPlan.Moved.none (c : CopyPlan) (i : Nat) (s : State) : c.Moved i 0 s s where
  hist := by simp
  bytes j hle hlt := absurd hlt (Nat.not_lt.2 hle)
  rest _ _ := rfl
  frame := rfl

/-- Later lines start beyond the end of an earlier one. -/
theorem CopyPlan.Disjoint.dstLine_add_le {c : CopyPlan} (hc : c.Disjoint) {i j : Nat} (h : i < j) :
    c.dstLine i + c.p ≤ c.dstLine j := by
  have hstep : (i + 1) * c.step ≤ j * c.step := Nat.mul_le_mul_right _ h
  have hline := hc.lines
  rw [Nat.succ_mul] at hstep
  unfold dstLine
  omega

/-- A write of a line that fits leaves every line of the field buffer that fits alone. -/
theorem CopyPlan.Disjoint.read_writeLine {c : CopyPlan} (hc : c.Disjoint) {i j x : Nat} (hi : c.Fits i) (hj : c.Fits j)
    (hx : x < c.p) (m m' : Mem) :
    Memory.read (Memory.writeBytes m (c.dstLine i) (Memory.readBytes m' (c.srcLine i) c.p)) (c.srcLine j + x) =
      Memory.read m (c.srcLine j + x) := by
  refine Memory.read_writeBytes_out _ _ _ ?_
  obtain ⟨-, hi⟩ := hi
  obtain ⟨hj, -⟩ := hj
  have hbuf := hc.buffers
  rw [Memory.length_readBytes]
  unfold dstLine srcLine
  omega

/-- One more line at the front. -/
theorem CopyPlan.Moved.cons {c : CopyPlan} (hc : c.Disjoint) {i L : Nat} {s t : State} (hm : Memory.wf s.mem)
    (hsize : c.dstLine i + c.p ≤ Memory.size) (hi : c.Fits i) (hfits : ∀ j, i + 1 ≤ j → j < i + 1 + L → c.Fits j)
    (h : c.Moved (i + 1) L (memWrite (c.dstLine i) (Memory.readBytes s.mem (c.srcLine i) c.p) s) t) :
    c.Moved i (L + 1) s t where
  hist := by
    have hlines : ∀ j ∈ List.range' (i + 1) L,
        Memory.readBytes (Memory.writeBytes s.mem (c.dstLine i) (Memory.readBytes s.mem (c.srcLine i) c.p)) (c.srcLine j)
          c.p = Memory.readBytes s.mem (c.srcLine j) c.p := fun j hj => by
      obtain ⟨hle, hlt⟩ := List.mem_range'_1.1 hj
      exact Memory.readBytes_congr fun x hx => hc.read_writeLine hi (hfits j hle hlt) hx _ _
    rw [h.hist, List.range'_succ, List.map_cons, List.append_cons]
    exact congrArg _ (List.map_congr_left fun j hj => congrArg _ (hlines j hj))
  bytes j hle hlt x hx := by
    by_cases hj : j = i
    · subst hj
      rw [h.rest _ fun j' hj' _ => .inl (by have := hc.dstLine_add_le (show j < j' from hj'); omega)]
      exact Memory.read_writeBytes_readBytes hm hsize hx
    · rw [h.bytes j (by omega) (by omega) x hx]
      exact hc.read_writeLine hi (hfits j (by omega) (by omega)) hx _ _
  rest a ha := by
    rw [h.rest a fun j hle hlt => ha j (by omega) (by omega)]
    exact Memory.read_writeBytes_out _ _ _ (by simpa using ha i le_rfl (by omega))
  frame := by
    have hframe := h.frame
    simpa only [memWrite, State.emit] using hframe

/-- How far a copy goes: to the first line that does not fit, or to the planned count. -/
structure CopyPlan.StopsAfter (c : CopyPlan) (n i L : Nat) : Prop where
  le : L ≤ n
  fits : ∀ j, i ≤ j → j < i + L → c.Fits j
  stop : L < n → ¬ c.Fits (i + L)

/-- The copy of a quiet field buffer: the lines up to where it stops are moved, and nothing else is done. -/
theorem CopyPlan.run_moved {c : CopyPlan} (hc : c.Disjoint) {n i : Nat} {s t : State}
    (hsize : s.cfg.maxFieldBytes = c.size) (hm : Memory.wf s.mem) (hquiet : s.dev.lateFill = [])
    (h : c.run n i s = .next t) : ∃ L, c.StopsAfter n i L ∧ c.Moved i L s t := by
  induction n generalizing i s with
  | zero => cases h; exact ⟨0, ⟨le_rfl, by omega, by omega⟩, .none c i t⟩
  | succ n ih =>
    obtain ⟨rfl, hstop⟩ | ⟨m, u, hn, hi, hline, hrest⟩ := run_cases hsize h
    · exact ⟨0, ⟨Nat.zero_le _, by omega, fun _ => hstop.resolve_left (by omega)⟩, .none c i t⟩
    · cases hn
      obtain ⟨-, hdst, -⟩ := copyLine_eq_next.1 hline
      have hwf := copyLine_wf hline hm
      obtain rfl := copyLine_quiet hquiet hline
      obtain ⟨L, hL, hmoved⟩ := ih (s := memWrite _ _ s) hsize hwf hquiet hrest
      have hfits : ∀ j, i ≤ j → j < i + (L + 1) → c.Fits j := fun j hle hlt => by
        obtain rfl | hlt' := Nat.eq_or_lt_of_le hle
        · exact hi
        · exact hL.fits j hlt' (by omega)
      refine ⟨L + 1, ⟨Nat.succ_le_succ hL.le, hfits, fun hlt => ?_⟩, hmoved.cons hc hm hdst hi hL.fits⟩
      rw [Nat.add_comm L, ← Nat.add_assoc]
      exact hL.stop (by omega)

/-- The lines of CopyField's plan do not overlap: the step is one pitch or two. -/
theorem copyPlan_disjoint {k : Chan} {f : FieldNo} {slot : Slot} {b : Entry} {s : State} (single : Bool)
    (h : b.addr.toNat + b.cap.toNat ≤ fbAddr s.cfg k f slot
      ∨ fbAddr s.cfg k f slot + s.cfg.maxFieldBytes ≤ b.addr.toNat) : (copyPlan k f slot single b s).Disjoint where
  buffers := h
  lines := by
    change pitch (s.chan k) ≤ copyStep (s.chan k) single
    unfold copyStep
    split <;> omega

/-- Settles O37: the lines moved from line 0 on, up to the first that does not fit. -/
theorem copyMovesWholeLinesWithinCapacity : Obligations.CopyMovesWholeLinesWithinCapacity := by
  intro k f slot single b s t hm hquiet h src hdisj c p off0 step n fits
  obtain ⟨L, hL, hmoved⟩ := CopyPlan.run_moved (copyPlan_disjoint single hdisj) rfl hm hquiet h
  have hstop := hL.stop
  have hhist := hmoved.hist
  rw [Nat.zero_add] at hstop
  rw [← List.range_eq_range'] at hhist
  exact ⟨L, hL.le, fun i hi => hL.fits i (Nat.zero_le i) (by omega), hstop, hhist,
    fun i hi => hmoved.bytes i (Nat.zero_le i) (by omega),
    fun a ha => hmoved.rest a fun i _ hi => ha i (by omega), hmoved.frame⟩

end Sys2Proof.Machine

/-! ## The woven frame (42_pingpong_weaver.md R215, round trip)

Each field's copy fills the frame lines of its parity and leaves the others, and both field buffers, alone. -/

namespace Sys2Proof.Machine

/-- All a field's copy into a frame needs for every planned line to arrive: canonical memory, a quiet field buffer, a
format accepted by SETFMT, and a buffer with room for the frame, apart from the two field buffers of the slot. -/
structure WeaveReady (k : Chan) (slot : Slot) (b : Entry) (s : State) : Prop where
  wf : Memory.wf s.mem = true
  quiet : s.dev.lateFill = []
  source : (((s.chan k).height.toNat + 1) / 2) * pitch (s.chan k) ≤ s.cfg.maxFieldBytes
  room : (s.chan k).height.toNat * pitch (s.chan k) ≤ b.cap.toNat
  apart : ∀ f : FieldNo, b.addr.toNat + b.cap.toNat ≤ fbAddr s.cfg k f slot
    ∨ fbAddr s.cfg k f slot + s.cfg.maxFieldBytes ≤ b.addr.toNat

theorem fmtInRange_fieldBytes {p : Params} {w h : BitVec 16} {bpp : BitVec 3} {mode : FieldMode}
    (hr : fmtInRange p w h bpp mode = true) :
    fieldLinesOf mode h.toNat * (w.toNat * bpp.toNat) ≤ p.maxFieldBytes := by
  simp only [fmtInRange, Bool.and_eq_true, decide_eq_true_eq] at hr
  rw [← Nat.mul_assoc]
  exact hr.2

/-- A streaming channel has a format that SETFMT accepted. -/
theorem ctxOk_fieldBytes {p : Params} {c : Ctx} (h : ctxOk p c = true) (hrun : c.fsm ≠ .idle) :
    fieldLines c * pitch c ≤ p.maxFieldBytes := by
  obtain ⟨-, -, -, hset, -, hfmt⟩ := (ctxOk_iff p c).1 h
  exact fmtInRange_fieldBytes (hfmt (hset.resolve_left hrun).1)

/-- Of memory, the completion of a frame changes what its copy does (R206). -/
theorem weaveField1_mem {k : Chan} {slot : Slot} {b : Entry} {s u : State} (h : weaveField1 k slot b s = .next u) :
    ∃ w, copyField k .f1 slot false b s = .next w ∧ u.mem = w.mem := by
  obtain ⟨w, hw, hu⟩ := andThen_eq_next.1 h
  cases hu
  exact ⟨w, hw, rfl⟩

theorem FieldNo.num_le_one (f : FieldNo) : f.num ≤ 1 := by cases f <;> decide

section
variable {k : Chan} {slot : Slot} {b : Entry} {s t : State} {f : FieldNo}

/-- Line `i` of field `f` is frame line `2 * i + f` (R200). -/
theorem dstLine_weave (k : Chan) (f : FieldNo) (slot : Slot) (b : Entry) (s : State) (i : Nat) :
    (copyPlan k f slot false b s).dstLine i = b.addr.toNat + (2 * i + f.num) * pitch (s.chan k) := by
  change b.addr.toNat + (f.num * pitch (s.chan k) + i * (2 * pitch (s.chan k))) = _
  ring

/-- The two bounds in whole lines. -/
theorem fits_weave_iff (k : Chan) (f : FieldNo) (slot : Slot) (b : Entry) (s : State) (i : Nat) :
    (copyPlan k f slot false b s).Fits i ↔
      (i + 1) * pitch (s.chan k) ≤ s.cfg.maxFieldBytes ∧ (2 * i + f.num + 1) * pitch (s.chan k) ≤ b.cap.toNat := by
  have hsrc : i * pitch (s.chan k) + pitch (s.chan k) = (i + 1) * pitch (s.chan k) := by ring
  have hdst : f.num * pitch (s.chan k) + i * (2 * pitch (s.chan k)) + pitch (s.chan k) =
      (2 * i + f.num + 1) * pitch (s.chan k) := by ring
  rw [← hsrc, ← hdst]
  rfl

/-- Every planned line of a woven field passes neither bound. -/
theorem WeaveReady.fits (h : WeaveReady k slot b s) {i : Nat} (hi : i < copyCount (s.chan k) f false) :
    (copyPlan k f slot false b s).Fits i := by
  have hf := f.num_le_one
  have hcount : i < ((s.chan k).height.toNat + 1 - f.num) / 2 := hi
  exact (fits_weave_iff k f slot b s i).2
    ⟨(Nat.mul_le_mul_right _ (by omega)).trans h.source, (Nat.mul_le_mul_right _ (by omega)).trans h.room⟩

/-- Every planned line of a woven field is moved. -/
theorem WeaveReady.moved (h : WeaveReady k slot b s) (hc : copyField k f slot false b s = .next t) :
    (copyPlan k f slot false b s).Moved 0 (copyCount (s.chan k) f false) s t := by
  obtain ⟨L, hL, hmoved⟩ := CopyPlan.run_moved (copyPlan_disjoint false (h.apart f)) rfl h.wf h.quiet hc
  obtain rfl | hlt := Nat.eq_or_lt_of_le hL.le
  · exact hmoved
  · exact absurd (h.fits (by omega)) (hL.stop hlt)

/-- The frame lines of the field's parity are its lines. -/
theorem WeaveReady.read_ownLine (h : WeaveReady k slot b s) (hc : copyField k f slot false b s = .next t) {y x : Nat}
    (hy : y < (s.chan k).height.toNat) (hpar : y % 2 = f.num) (hx : x < pitch (s.chan k)) :
    Memory.read t.mem (b.addr.toNat + y * pitch (s.chan k) + x) =
      Memory.read s.mem (fbAddr s.cfg k f slot + (y / 2) * pitch (s.chan k) + x) := by
  have hcount : y / 2 < copyCount (s.chan k) f false := by
    change _ < ((s.chan k).height.toNat + 1 - f.num) / 2
    omega
  have hread := (h.moved hc).bytes (y / 2) (Nat.zero_le _) (by omega) x hx
  rwa [dstLine_weave, show 2 * (y / 2) + f.num = y by omega] at hread

/-- The frame lines of the other parity stay. -/
theorem WeaveReady.read_otherLine (h : WeaveReady k slot b s) (hc : copyField k f slot false b s = .next t) {y x : Nat}
    (hpar : y % 2 ≠ f.num) (hx : x < pitch (s.chan k)) :
    Memory.read t.mem (b.addr.toNat + y * pitch (s.chan k) + x) =
      Memory.read s.mem (b.addr.toNat + y * pitch (s.chan k) + x) := by
  refine (h.moved hc).rest _ fun j _ _ => ?_
  have hf := f.num_le_one
  rw [dstLine_weave]
  change _ ∨ _ + pitch (s.chan k) ≤ _
  obtain hlt | hlt : y + 1 ≤ 2 * j + f.num ∨ 2 * j + f.num + 1 ≤ y := by omega
  all_goals
    have hlines := Nat.mul_le_mul_right (pitch (s.chan k)) hlt
    rw [Nat.succ_mul] at hlines
    omega

/-- Outside the frame buffer nothing changes. -/
theorem WeaveReady.read_outside (h : WeaveReady k slot b s) (hc : copyField k f slot false b s = .next t) {a : Nat}
    (ha : a < b.addr.toNat ∨ b.addr.toNat + b.cap.toNat ≤ a) : Memory.read t.mem a = Memory.read s.mem a := by
  refine (h.moved hc).rest a fun j _ hj => ?_
  obtain ⟨-, hfit⟩ := (fits_weave_iff k f slot b s j).1 (h.fits (by omega))
  rw [Nat.succ_mul] at hfit
  rw [dstLine_weave]
  change _ ∨ _ + pitch (s.chan k) ≤ _
  omega

/-- The lines of a field lie in its field buffer, so outside the frame buffer. -/
theorem WeaveReady.source_outside (h : WeaveReady k slot b s) (f : FieldNo) {y x : Nat}
    (hy : y < (s.chan k).height.toNat) (hx : x < pitch (s.chan k)) :
    fbAddr s.cfg k f slot + y / 2 * pitch (s.chan k) + x < b.addr.toNat
      ∨ b.addr.toNat + b.cap.toNat ≤ fbAddr s.cfg k f slot + y / 2 * pitch (s.chan k) + x := by
  have hline : (y / 2 + 1) * pitch (s.chan k) ≤ s.cfg.maxFieldBytes :=
    (Nat.mul_le_mul_right _ (by omega)).trans h.source
  have hapart := h.apart f
  rw [Nat.succ_mul] at hline
  omega

/-- After the capture of field 0, field 1 is ready too. -/
theorem WeaveReady.of_capture (h : WeaveReady k slot b s) (hc : copyField k .f0 slot false b s = .next t)
    (bs : BufState) : WeaveReady k slot { b with bstate := bs } (t.modChan k (captured slot)) := by
  have hcfg := (copyField_onlyCopied hc).cfg
  have hchan := (copyField_onlyCopied hc).chan_capture k slot
  constructor
  case wf => exact (confined_copyField hc).mem h.wf
  case quiet => rw [modChan_dev, (h.moved hc).frame]; exact h.quiet
  case source => rw [hchan, modChan_cfg, hcfg]; exact h.source
  case room => rw [hchan]; exact h.room
  case apart => rw [modChan_cfg, hcfg]; exact h.apart

end

/-- Settles O39: frame lines of even number come from the first copy and stay in the second, those of odd number come
from the second, whose field buffer the first has left alone. -/
theorem wovenFrameInterleavesTheFields : Obligations.WovenFrameInterleavesTheFields := by
  intro k slot b q s t u hs hquiet hmode hfsm hq hroom hapart ht hu y hy x hx
  obtain ⟨-, hctx, hwf, -⟩ := hs
  have hready : WeaveReady k slot b s := by
    refine ⟨hwf, hquiet, ?_, hroom, hapart⟩
    have hbytes := ctxOk_fieldBytes (hctx k) (by simp [hfsm])
    rwa [fieldLines, fieldLinesOf, if_pos hmode] at hbytes
  rw [fieldEvent_capture hmode (by simp [hfsm])] at ht
  obtain ⟨v, hv, rfl⟩ := captureField0_eq_next.1 ht
  have hchan := (copyField_onlyCopied hv).chan_capture k slot
  have hcfg := (copyField_onlyCopied hv).cfg
  rw [fieldEvent_weave (by rw [hchan]; exact hmode) (by rw [hchan]; rfl) (by rw [hchan]; rfl)] at hu
  obtain ⟨w, hw, hmem⟩ := weaveField1_mem hu
  have hready' := hready.of_capture hv .partialFill
  rw [hmem]
  by_cases hpar : y % 2 = 0
  · rw [if_pos hpar, ← hready.read_ownLine hv hy hpar hx]
    have hstays := hready'.read_otherLine hw (y := y) (by rw [hpar]; decide) (by rw [hchan]; exact hx)
    rwa [hchan] at hstays
  · have hodd : y % 2 = FieldNo.f1.num := by change _ = 1; omega
    have hown := hready'.read_ownLine hw (by rw [hchan]; exact hy) hodd (by rw [hchan]; exact hx)
    rw [hchan, modChan_cfg, hcfg, modChan_mem] at hown
    rw [if_neg hpar]
    exact hown.trans (hready.read_outside hv (hready.source_outside .f1 hy hx))

end Sys2Proof.Machine

/-! ## The completion records of an invocation (42_pingpong_weaver.md R215, mismatch safety; 30_encoding.md R104)

The register sequences, the copies and the hand-off emit none; a field event emits at most one, made by `Complete`. -/

namespace Sys2Proof.Machine

/-! ### What is recorded -/

/-- `t` continues the history of `s`, and adds completion records only of the kind `P`. -/
def AddsOnly (P : Cpl → Prop) (s t : State) : Prop :=
  ∃ obs, t.hist = s.hist ++ obs ∧ ∀ r, .cpl r ∈ obs → P r

section
variable {P : Cpl → Prop} {s t u : State}

theorem AddsOnly.of_hist (h : t.hist = s.hist) : AddsOnly P s t := ⟨[], by simpa using h, by simp⟩

theorem AddsOnly.trans (h : AddsOnly P s t) (g : AddsOnly P t u) : AddsOnly P s u := by
  obtain ⟨obs, hobs, hP⟩ := h
  obtain ⟨obs', hobs', hP'⟩ := g
  refine ⟨obs ++ obs', by rw [hobs', hobs, List.append_assoc], fun r hr => ?_⟩
  exact (List.mem_append.1 hr).elim (hP r) (hP' r)

theorem AddsOnly.mono {Q : Cpl → Prop} (h : AddsOnly P s t) (hPQ : ∀ r, P r → Q r) : AddsOnly Q s t := by
  obtain ⟨obs, hobs, hP⟩ := h
  exact ⟨obs, hobs, fun r hr => hPQ r (hP r hr)⟩

theorem AddsOnly.of_mem_drop (h : AddsOnly P s t) {r : Cpl} (hr : .cpl r ∈ t.hist.drop s.hist.length) : P r := by
  obtain ⟨obs, hobs, hP⟩ := h
  rw [hobs, List.drop_left] at hr
  exact hP r hr

theorem addsOnly_emit {o : Obs} (s : State) (h : ∀ r, o = .cpl r → P r) : AddsOnly P s (s.emit o) :=
  ⟨[o], rfl, fun r hr => h r (List.mem_singleton.1 hr).symm⟩

/-! ### Sections that record no completion -/

theorem addsOnly_regRead (n : RegName) (s : State) : AddsOnly P s (regRead n s) := addsOnly_emit s nofun

theorem addsOnly_writeVerify (n : RegName) (v : Word) (s : State) : AddsOnly P s (writeVerify n v s) := by
  rw [writeVerify_eq]
  exact ⟨_, rfl, by simp⟩

theorem addsOnly_setEnable (e : Word) (s : State) : AddsOnly P s (setEnable e s) := by
  rw [setEnable_eq]
  exact ⟨_, rfl, by simp⟩

theorem addsOnly_haltIfEmpty (e : Word) (s : State) : AddsOnly P s (haltIfEmpty e s) := by
  unfold haltIfEmpty
  split
  · exact addsOnly_writeVerify .dmaCmd 0 s
  · exact .of_hist rfl

theorem addsOnly_resetSection (m : Mask) (s : State) : AddsOnly P s (resetSection m s) := by
  rw [resetSection_eq]
  have hreads : AddsOnly P s (regRead .dmaCmd (regRead .dmaEn s)) :=
    (addsOnly_regRead _ s).trans (addsOnly_regRead _ _)
  exact ((hreads.trans (addsOnly_setEnable _ _)).trans (addsOnly_haltIfEmpty _ _)).trans (.of_hist rfl)

theorem addsOnly_resetPhase (s : State) : AddsOnly P s (resetPhase s) := by
  unfold resetPhase
  split
  · exact .of_hist rfl
  · obtain ⟨contexts, hdiscard⟩ := discardAll_onlyContexts s.lat.rst s
    rw [resetChannels, hdiscard]
    exact (AddsOnly.of_hist rfl).trans (addsOnly_resetSection _ _)

/-- The reads of P1, from the entry on. -/
theorem addsOnly_classified (s : State) : AddsOnly P s (classified s) :=
  (addsOnly_regRead .intStatus (irqEnter s)).trans (addsOnly_regRead .fifoStatus (readInt (irqEnter s)))

theorem addsOnly_readMasks (s : State) : AddsOnly P s (readMasks s) :=
  (addsOnly_regRead .dmaEn s).trans (addsOnly_regRead .pbStatus _)

theorem addsOnly_audioHandOff (s : State) : AddsOnly P s (audioHandOff s) := by
  unfold audioHandOff
  split
  · exact .of_hist rfl
  · exact addsOnly_emit s nofun

theorem addsOnly_raiseTimeout (s : State) : AddsOnly P s (raiseTimeout s) := .of_hist rfl

theorem addsOnly_irqLeave (s : State) : AddsOnly P s (irqLeave s) := .of_hist rfl

theorem addsOnly_copyLine {src dst n : Nat} (h : copyLine src dst n s = .next t) : AddsOnly P s t := by
  obtain ⟨-, -, rfl⟩ := copyLine_eq_next.1 h
  rw [landFill_frame]
  exact ⟨_, rfl, by simp⟩

theorem addsOnly_copyField {k : Chan} {f : FieldNo} {slot : Slot} {single : Bool} {b : Entry}
    (h : copyField k f slot single b s = .next t) : AddsOnly P s t :=
  copyLines_keeps (P := AddsOnly P s) (fun _ _ _ _ _ hp hl => hp.trans (addsOnly_copyLine hl)) _ _ _ _ (.of_hist rfl) h

end

/-! ### The work of a channel -/

/-- VideoChannelWork (R241 to R245) is a field event with what PB_STATUS shows, or records nothing and leaves that latch
alone. -/
theorem channelWork_cases {k : Chan} {s t : State} (h : channelWork k s = .next t) :
    (t.hist = s.hist ∧ t.lat.pb = s.lat.pb)
      ∨ ∃ b, fieldEvent k (fieldSelect s.lat.pb k) (slotSelect s.lat.pb k) b s = .next t := by
  unfold channelWork at h
  dsimp only at h
  split at h
  · cases h; exact .inl ⟨rfl, rfl⟩
  split at h
  · cases h; exact .inl ⟨rfl, rfl⟩
  split at h
  · cases h; exact .inl ⟨rfl, rfl⟩
  split at h
  · cases h; exact .inl ⟨rfl, rfl⟩
  split at h
  · cases h; exact .inl ⟨rfl, rfl⟩
  · exact .inr ⟨_, h⟩

theorem OnlyCopied.lat {s t : State} (h : OnlyCopied s t) : t.lat = s.lat := by rw [h]

theorem channelWork_pb {k : Chan} {s t : State} (h : channelWork k s = .next t) : t.lat.pb = s.lat.pb := by
  obtain ⟨-, hpb⟩ | ⟨b, h⟩ := channelWork_cases h
  · exact hpb
  obtain rfl | rfl | h | ⟨-, -, -, -, h⟩ | ⟨f, tag, -, h⟩ := fieldEvent_cases h
  · rfl
  · rfl
  all_goals
    obtain ⟨u, hu, ht⟩ := andThen_eq_next.1 h
    cases ht
    exact congrArg Latches.pb (copyField_onlyCopied hu).lat

/-- A completion R104 and R206 allow: DONE, and INTERLACED only for a channel with field 0 captured of which PB_STATUS,
here `pb`, reports field 1 in the recorded slot. -/
def Deserved (pb : Word) (c : Ctx) (r : Cpl) : Prop :=
  r.error = false
    ∧ (r.tag = .interlaced →
        c.fsm = .f0Captured ∧ c.fieldMode = .interlaced ∧ fieldSelect pb r.ch = .f1 ∧ slotSelect pb r.ch = c.curPB)

/-- `Complete` records one DONE completion. -/
theorem addsOnly_complete {P : Cpl → Prop} (k : Chan) (tag : FieldMode) (b : Entry) (s : State)
    (h : ∀ r : Cpl, r.ch = k → r.tag = tag → r.error = false → P r) : AddsOnly P s (complete k tag b s) :=
  ⟨_, rfl, fun r hr => by
    cases List.mem_singleton.1 hr
    exact h _ rfl rfl rfl⟩

/-- A channel's work records completions of that channel only, each deserved. -/
theorem addsOnly_channelWork {k : Chan} {s t : State} (h : channelWork k s = .next t) :
    AddsOnly (fun r => r.ch = k ∧ Deserved s.lat.pb (s.chan k) r) s t := by
  obtain ⟨hhist, -⟩ | ⟨b, h⟩ := channelWork_cases h
  · exact .of_hist hhist
  obtain rfl | rfl | h | ⟨hfsm, hmode, hfield, hslot, h⟩ | ⟨f, tag, htag, h⟩ := fieldEvent_cases h
  · exact .of_hist rfl
  · exact .of_hist rfl
  all_goals
    obtain ⟨u, hu, ht⟩ := andThen_eq_next.1 h
    cases ht
    refine (addsOnly_copyField hu).trans ?_
  · exact .of_hist rfl
  · refine (AddsOnly.of_hist rfl).trans (addsOnly_complete k .interlaced b _ ?_)
    rintro r rfl - herr
    exact ⟨rfl, herr, fun _ => ⟨hfsm, hmode, hfield, hslot⟩⟩
  · refine (AddsOnly.of_hist rfl).trans (addsOnly_complete k tag b _ ?_)
    rintro r rfl rfl herr
    exact ⟨rfl, herr, fun h => absurd h htag⟩

/-- A loop over distinct channels: each finds its context as it was before the loop. -/
theorem addsOnly_forChans {m : Mask} :
    ∀ (ks : List Chan) (s t : State), ks.Nodup → forChans m channelWork ks s = .next t →
      AddsOnly (fun r => r.ch ∈ ks ∧ Deserved s.lat.pb (s.chan r.ch) r) s t := by
  intro ks
  induction ks with
  | nil => intro s t _ h; cases h; exact .of_hist rfl
  | cons k ks ih =>
    intro s t hnodup h
    obtain ⟨hk, hks⟩ := List.nodup_cons.1 hnodup
    simp only [forChans] at h
    split at h
    · obtain ⟨u, hu, ht⟩ := andThen_eq_next.1 h
      refine ((addsOnly_channelWork hu).mono ?_).trans ((ih u t hks ht).mono ?_)
      · rintro r ⟨rfl, hr⟩
        exact ⟨List.mem_cons_self, hr⟩
      · rintro r ⟨hmem, hr⟩
        rw [channelWork_pb hu, (works_channelWork hu).others r.ch fun heq => hk (heq ▸ hmem)] at hr
        exact ⟨List.mem_cons_of_mem k hmem, hr⟩
    · exact (ih s t hks h).mono fun r hr => ⟨List.mem_cons_of_mem k hr.1, hr.2⟩

/-- P3 latches PB_STATUS as the device drives it (R239). -/
theorem latchedPb_masks (s : State) : (readMasks (classified s)).lat.pb = s.dev.pbStatus := rfl

/-- The records of a whole invocation: its loop begins with the contexts of its entry. -/
theorem addsOnly_dispatch {s t : State} (h : dispatch s = .next t) :
    AddsOnly (fun r => Deserved s.dev.pbStatus (s.chan r.ch) r) s t := by
  have hentry : AddsOnly (fun r => Deserved s.dev.pbStatus (s.chan r.ch) r) s (classified s) :=
    (AddsOnly.of_hist rfl).trans (addsOnly_classified s)
  obtain rfl | rfl | ⟨u, hu, rfl⟩ := dispatch_cases h
  · exact hentry.trans (addsOnly_irqLeave _)
  · exact ((hentry.trans (addsOnly_raiseTimeout _)).trans (addsOnly_resetPhase _)).trans (addsOnly_irqLeave _)
  · have hloop : AddsOnly (fun r => Deserved s.dev.pbStatus (s.chan r.ch) r) (readMasks (classified s)) u := by
      refine (addsOnly_forChans allChans _ u (by decide) hu).mono fun r hr => ?_
      rw [latchedPb_masks, chan_readMasks_classified] at hr
      exact hr.2
    exact (((hentry.trans (addsOnly_readMasks _)).trans hloop).trans
      ((addsOnly_audioHandOff u).trans (addsOnly_resetPhase _))).trans (addsOnly_irqLeave _)

/-- Settles O40: an invocation in progress records nothing; a new one records deserved completions only. -/
theorem wovenRecordsComeFromMatchingSlots : Obligations.WovenRecordsComeFromMatchingSlots := by
  intro s t r h hr
  have hrecords : AddsOnly (fun r => Deserved s.dev.pbStatus (s.chan r.ch) r) s t := by
    change execIrq s = .next t at h
    unfold execIrq at h
    split at h
    · cases h; exact .of_hist rfl
    · exact addsOnly_dispatch h
  obtain ⟨herr, hwoven⟩ := hrecords.of_mem_drop hr
  refine ⟨herr, fun htag => ?_⟩
  obtain ⟨hfsm, hmode, hfield, hslot⟩ := hwoven htag
  refine ⟨hfsm, hmode, ?_, hslot⟩
  by_contra hbit
  simp [fieldSelect, hbit] at hfield

end Sys2Proof.Machine

/-! ## The timer events (60_exceptions.md R256 to R259) -/

namespace Sys2Proof.Machine

/-- Settles O52: the clock is confined by every section of every operation. -/
theorem operationsTakeNoTime : Obligations.OperationsTakeNoTime := fun _ _ _ h => (confined_exec h).now

/-! ### Enabled and not -/

theorem deferEnabled_iff (s : State) : deferEnabled s = true ↔ s.deferArmed = true ∧ s.deferDeadline ≤ s.now := by
  simp [deferEnabled]

theorem wdogEnabled_iff (s : State) : wdogEnabled s = true ↔ s.wdogDeadline ≤ s.now := by simp [wdogEnabled]

theorem exec_tdefer (s : State) : exec .tdefer s = .next (if deferEnabled s then deferSection s else s) :=
  (apply_ite Host.Outcome.next _ _ _).symm

theorem exec_twdog (s : State) :
    exec .twdog s = .next (if wdogEnabled s then wdogSection (wdogRearm s) else s) :=
  (apply_ite Host.Outcome.next _ _ _).symm

/-- Settles O45: each clause's hypothesis says that the event is not enabled. -/
theorem timerEventsWaitForTheirDeadlines : Obligations.TimerEventsWaitForTheirDeadlines := by
  intro s
  constructor
  · intro h
    have hoff : ¬ deferEnabled s = true := by
      rw [deferEnabled_iff]
      rintro ⟨harmed, hdue⟩
      rcases h with h | h
      · exact Bool.false_ne_true (h.symm.trans harmed)
      · omega
    rw [exec_tdefer, if_neg hoff]
  · intro h
    rw [exec_twdog, if_neg (by rw [wdogEnabled_iff]; omega)]

/-! ### On faithful registers -/

/-- Settles O44: the two verified writes, and then the disarming. -/
theorem deferredRestoreIsVerbatim : Obligations.DeferredRestoreIsVerbatim := by
  intro s hfaithful harmed hdue
  rw [exec_tdefer, if_pos ((deferEnabled_iff s).2 ⟨harmed, hdue⟩)]
  unfold deferSection restoreSnapshot
  split
  · rw [setEnable_faithful _ _ hfaithful, writeCmd_faithful]
    · simp only [List.append_assoc, List.cons_append, List.nil_append]
      rfl
    · exact hfaithful
  · rfl

theorem debounced_iff (s : State) :
    debounced s = true ↔ s.lastFaultValid = true ∧ s.now - s.lastFaultTime < s.cfg.tWdog := by simp [debounced]

/-- The watchdog's section passes over a tick that comes too soon after a reset operation, or finds nothing missing. -/
theorem wdogSection_eq (s : State) :
    wdogSection s =
      if (s.lastFaultValid = true ∧ s.now - s.lastFaultTime < s.cfg.tWdog) ∨ s.videoCap &&& ~~~s.videoDMA = 0 then s
      else enableBits (s.videoCap.setWidth 32) s := by
  rw [wdogSection, missing]
  by_cases hsoon : debounced s = true
  · rw [if_pos hsoon, if_pos (.inl ((debounced_iff s).1 hsoon))]
  rw [if_neg hsoon]
  by_cases hnone : s.videoCap &&& ~~~s.videoDMA = 0
  · rw [if_pos hnone, if_pos (.inr hnone)]
  · rw [if_neg hnone, if_neg (not_or.2 ⟨mt (debounced_iff s).2 hsoon, hnone⟩)]

/-- Settles O46: the rearming, and then the enable sequence on the requested set unless the tick is passed over. -/
theorem watchdogMergesMissingChannels : Obligations.WatchdogMergesMissingChannels := by
  intro s hfaithful hdue e c
  rw [exec_twdog, if_pos ((wdogEnabled_iff s).2 hdue), wdogSection_eq,
    enableBits_faithful _ (wdogRearm s) hfaithful]
  rfl

/-! ### On any registers -/

theorem OnlyTimerState.sameMemory {s t : State} (h : OnlyTimerState s t) : SameMemory s t := by
  intro a
  rw [h]

/-- The restore writes the two registers, and gives up the snapshot when it disarms the timer. -/
theorem deferSection_frame (s : State) :
    OnlyTimerState s (deferSection s) ∧ (deferSection s).wdogDeadline = s.wdogDeadline
      ∧ (deferSection s).deferArmed = false := by
  have hregs : OnlyDmaRegs s (if s.pendValid then writeVerify .dmaCmd s.pendCmd (setEnable s.pendEn s) else s) := by
    split
    · exact onlyDmaRegs_trans (setEnable_onlyDma _ s) (writeCmd_onlyDma _ _)
    · exact onlyDmaRegs_refl s
  rw [deferSection_eq, hregs]
  exact ⟨rfl, rfl, rfl⟩

theorem wdogSection_onlyDma (s : State) : OnlyDmaRegs s (wdogSection s) := by
  rw [wdogSection_eq]
  split
  · exact onlyDmaRegs_refl s
  · exact enableBits_onlyDma _ s

/-- The tick writes the two registers at most, after the rearming. -/
theorem wdogTick_frame (s : State) :
    OnlyTimerState s (wdogSection (wdogRearm s)) ∧ (wdogSection (wdogRearm s)).deferArmed = s.deferArmed
      ∧ (wdogSection (wdogRearm s)).pendValid = s.pendValid
      ∧ (wdogSection (wdogRearm s)).wdogDeadline = s.now + s.cfg.tWdog := by
  rw [wdogSection_onlyDma (wdogRearm s)]
  exact ⟨rfl, rfl, rfl, rfl⟩

/-- Settles O47: each event is its section, or nothing while it is not enabled. -/
theorem timerEventsCompleteWithinTheirFrame : Obligations.TimerEventsCompleteWithinTheirFrame := by
  intro s
  constructor
  · refine ⟨_, exec_tdefer s, ?_⟩
    split
    · obtain ⟨honly, hwdog, harmed⟩ := deferSection_frame s
      exact ⟨honly, honly.sameMemory, hwdog, fun _ => harmed⟩
    · next hoff =>
      refine ⟨rfl, fun _ => rfl, rfl, fun hdue => Bool.eq_false_iff.2 fun harmed => ?_⟩
      exact hoff ((deferEnabled_iff s).2 ⟨harmed, hdue⟩)
  · refine ⟨_, exec_twdog s, ?_⟩
    split
    · obtain ⟨honly, harmed, hvalid, hwdog⟩ := wdogTick_frame s
      exact ⟨honly, honly.sameMemory, harmed, hvalid, fun _ => hwdog⟩
    · next hoff =>
      exact ⟨rfl, fun _ => rfl, rfl, rfl, fun hdue => absurd ((wdogEnabled_iff s).2 hdue) hoff⟩

end Sys2Proof.Machine

/-! ## The work of a channel (60_exceptions.md R241 to R245) -/

namespace Sys2Proof.Machine

/-! ### The checks in their order -/

section
variable {k : Chan} {s : State}

theorem fifoErr_getLsbD (er : Word) (k : Chan) :
    (fifoErr er).getLsbD k.val = (er.getLsbD (24 + k.val) || er.getLsbD (16 + k.val)) := by
  simp [fifoErr]

theorem channelWork_fifoError (h : (fifoErr s.lat.er).getLsbD k.val = true) :
    channelWork k s = .next (raiseFault .fifoData k s) := if_pos h

variable (hfifo : (fifoErr s.lat.er).getLsbD k.val = false)
include hfifo

theorem channelWork_noSignal (h : s.lat.er.getLsbD k.val = true) :
    channelWork k s = .next (s.modChan k fun c => { c with noSignal := true }) := by
  simp only [channelWork, hfifo, h, if_true, Bool.false_eq_true, if_false]

variable (hsig : s.lat.er.getLsbD k.val = false)
include hsig

theorem channelWork_signalBack (h : (s.chan k).noSignal = true) :
    channelWork k s = .next (requestReset k (s.modChan k fun c => { c with noSignal := false })) := by
  simp only [channelWork, hfifo, hsig, h, if_true, Bool.false_eq_true, if_false]

variable (hno : (s.chan k).noSignal = false)
include hno

theorem channelWork_skip (h : (s.chan k).fsm = .idle ∨ (s.chan k).queue = []) : channelWork k s = .next s := by
  simp only [channelWork, hfifo, hsig, hno, Bool.false_eq_true, if_false]
  split
  · rfl
  · next hrun => rw [h.resolve_left hrun]

theorem channelWork_field (hrun : (s.chan k).fsm ≠ .idle) {b : Entry} {q : List Entry}
    (hq : (s.chan k).queue = b :: q) :
    channelWork k s = fieldEvent k (fieldSelect s.lat.pb k) (slotSelect s.lat.pb k) b s := by
  simp only [channelWork, hfifo, hsig, hno, Bool.false_eq_true, if_false, if_neg hrun, hq]

end

/-- Settles O31: one equation per check. -/
theorem channelChecksInOrder : Obligations.ChannelChecksInOrder := by
  intro k s c fe nosig
  have hfe : (fifoErr s.lat.er).getLsbD k.val = fe := fifoErr_getLsbD _ k
  refine ⟨fun h => channelWork_fifoError (hfe.trans h), fun h hsig => channelWork_noSignal (hfe.trans h) hsig,
    fun h hsig hno => channelWork_signalBack (hfe.trans h) hsig hno,
    fun h hsig hno hskip => channelWork_skip (hfe.trans h) hsig hno hskip,
    fun b q h hsig hno hrun hq => channelWork_field (hfe.trans h) hsig hno hrun hq⟩

/-! ### The latches -/

/-- What is left to a channel's work of the latches: its own reset flag (R250). -/
theorem channelWork_lat {k : Chan} {s t : State} (h : channelWork k s = .next t) :
    t.lat = s.lat ∨ t.lat = { s.lat with rst := s.lat.rst ||| maskBit k } := by
  unfold channelWork at h
  dsimp only at h
  split at h
  · cases h; exact .inr rfl
  split at h
  · cases h; exact .inl rfl
  split at h
  · cases h; exact .inr rfl
  split at h
  · cases h; exact .inl rfl
  split at h
  · cases h; exact .inl rfl
  obtain rfl | rfl | h | ⟨-, -, -, -, h⟩ | ⟨f, tag, -, h⟩ := fieldEvent_cases h
  · exact .inl rfl
  · exact .inr rfl
  all_goals
    obtain ⟨u, hu, ht⟩ := andThen_eq_next.1 h
    cases ht
    exact .inl (copyField_onlyCopied hu).lat

/-- The latches of an invocation but for its reset flags. -/
def Latches.status (l : Latches) : Latches := { l with rst := 0 }

theorem channelWork_status {k : Chan} {s t : State} (h : channelWork k s = .next t) :
    t.lat.status = s.lat.status := by
  obtain hlat | hlat := channelWork_lat h <;> rw [hlat]
  rfl

/-! ### Channels are independent (R245) -/

/-- `s` and `t` show channel `k` the same: its context, its reset flag, and what the status registers showed. -/
structure Agree (k : Chan) (s t : State) : Prop where
  chan : t.chan k = s.chan k
  flag : t.lat.rst.getLsbD k.val = s.lat.rst.getLsbD k.val
  status : t.lat.status = s.lat.status

section
variable {k : Chan} {s s' t t' : State}

theorem Agree.refl (k : Chan) (s : State) : Agree k s s := ⟨rfl, rfl, rfl⟩

theorem Agree.trans (h : Agree k s s') (g : Agree k s' t) : Agree k s t :=
  ⟨g.chan.trans h.chan, g.flag.trans h.flag, g.status.trans h.status⟩

theorem Agree.er (h : Agree k s t) : t.lat.er = s.lat.er := (congrArg Latches.er h.status :)

theorem Agree.pb (h : Agree k s t) : t.lat.pb = s.lat.pb := (congrArg Latches.pb h.status :)

theorem Agree.modChan (h : Agree k s s') (f : Ctx → Ctx) : Agree k (s.modChan k f) (s'.modChan k f) :=
  ⟨by rw [chan_modChan_same, chan_modChan_same, h.chan], h.flag, h.status⟩

theorem Agree.requestReset (h : Agree k s s') : Agree k (requestReset k s) (requestReset k s') where
  chan := h.chan
  flag := by rw [requestReset_rst, requestReset_rst, BitVec.getLsbD_or, BitVec.getLsbD_or, h.flag]
  status := h.status

theorem Agree.emit (h : Agree k s s') (o o' : Obs) : Agree k (s.emit o) (s'.emit o') := ⟨h.chan, h.flag, h.status⟩

theorem Agree.copied (h : Agree k s s') (hc : OnlyCopied s t) (hc' : OnlyCopied s' t') : Agree k t t' where
  chan := by rw [hc.chan, hc'.chan, h.chan]
  flag := by rw [hc.lat, hc'.lat, h.flag]
  status := by rw [hc.lat, hc'.lat, h.status]

/-- The record of a completion is no part of what the channel is shown. -/
theorem Agree.complete (h : Agree k s s') (tag : FieldMode) (b : Entry) :
    Agree k (complete k tag b s) (complete k tag b s') := (h.modChan _).emit _ _

/-- A copy, and then a step that keeps the agreement. -/
theorem Agree.copy (h : Agree k s s') {f : FieldNo} {slot : Slot} {single : Bool} {b : Entry} {g : State → State}
    (hg : ∀ u u', Agree k u u' → Agree k (g u) (g u'))
    (ht : (andThen (copyField k f slot single b s) fun u => .next (g u)) = .next t)
    (ht' : (andThen (copyField k f slot single b s') fun u => .next (g u)) = .next t') : Agree k t t' := by
  obtain ⟨u, hu, hut⟩ := andThen_eq_next.1 ht
  obtain ⟨u', hu', hut'⟩ := andThen_eq_next.1 ht'
  cases hut
  cases hut'
  exact hg u u' (h.copied (copyField_onlyCopied hu) (copyField_onlyCopied hu'))

theorem Agree.singleField (h : Agree k s s') {f : FieldNo} {slot : Slot} {b : Entry} {tag : FieldMode}
    (ht : singleField k f slot b tag s = .next t) (ht' : singleField k f slot b tag s' = .next t') : Agree k t t' :=
  h.copy (fun _ _ hu => (hu.modChan _).complete tag b) ht ht'

theorem Agree.fieldEvent (h : Agree k s s') {f : FieldNo} {slot : Slot} {b : Entry}
    (ht : fieldEvent k f slot b s = .next t) (ht' : fieldEvent k f slot b s' = .next t') : Agree k t t' := by
  unfold Machine.fieldEvent at ht ht'
  rw [h.chan] at ht'
  dsimp only at ht ht'
  cases hmode : (s.chan k).fieldMode with
  | interlaced =>
    simp only [hmode] at ht ht'
    by_cases hfsm : (s.chan k).fsm = .f0Captured
    · rw [if_pos hfsm] at ht ht'
      by_cases hguard : f = .f1 ∧ slot = (s.chan k).curPB
      · rw [if_pos hguard] at ht ht'
        exact h.copy (fun _ _ hu => (hu.modChan _).complete .interlaced b) ht ht'
      · rw [if_neg hguard] at ht ht'
        cases ht; cases ht'
        exact ((h.modChan _).modChan _).requestReset
    · rw [if_neg hfsm] at ht ht'
      by_cases hf : f = .f0
      · rw [if_pos hf] at ht ht'
        exact h.copy (fun _ _ hu => hu.modChan _) ht ht'
      · rw [if_neg hf] at ht ht'
        cases ht; cases ht'
        exact h
  | top =>
    simp only [hmode] at ht ht'
    by_cases hf : f = .f0
    · rw [if_pos hf] at ht ht'
      exact h.singleField ht ht'
    · rw [if_neg hf] at ht ht'
      cases ht; cases ht'
      exact h
  | bottom =>
    simp only [hmode] at ht ht'
    by_cases hf : f = .f1
    · rw [if_pos hf] at ht ht'
      exact h.singleField ht ht'
    · rw [if_neg hf] at ht ht'
      cases ht; cases ht'
      exact h
  | alternate =>
    simp only [hmode] at ht ht'
    exact h.singleField ht ht'

/-- The work of a channel ends the same wherever it is shown the same. -/
theorem Agree.channelWork (h : Agree k s s') (ht : channelWork k s = .next t) (ht' : channelWork k s' = .next t') :
    Agree k t t' := by
  unfold Machine.channelWork at ht ht'
  rw [h.chan, h.er, h.pb] at ht'
  dsimp only at ht ht'
  by_cases hfifo : (fifoErr s.lat.er).getLsbD k.val = true
  · rw [if_pos hfifo] at ht ht'
    cases ht; cases ht'
    exact (h.modChan _).requestReset
  rw [if_neg hfifo] at ht ht'
  by_cases hsig : s.lat.er.getLsbD k.val = true
  · rw [if_pos hsig] at ht ht'
    cases ht; cases ht'
    exact h.modChan _
  rw [if_neg hsig] at ht ht'
  by_cases hno : (s.chan k).noSignal = true
  · rw [if_pos hno] at ht ht'
    cases ht; cases ht'
    exact (h.modChan _).requestReset
  rw [if_neg hno] at ht ht'
  by_cases hidle : (s.chan k).fsm = .idle
  · rw [if_pos hidle] at ht ht'
    cases ht; cases ht'
    exact h
  rw [if_neg hidle] at ht ht'
  cases hq : (s.chan k).queue with
  | nil =>
    simp only [hq] at ht ht'
    cases ht; cases ht'
    exact h
  | cons b q =>
    simp only [hq] at ht ht'
    exact h.fieldEvent ht ht'

/-- The work of another channel. -/
theorem agree_channelWork_ne {j : Chan} (hj : j ≠ k) (h : channelWork k s = .next t) : Agree j s t where
  chan := (works_channelWork h).others j hj
  flag := by
    obtain hlat | hlat := channelWork_lat h <;> rw [hlat]
    rw [BitVec.getLsbD_or, getLsbD_maskBit_ne hj, Bool.or_false]
  status := channelWork_status h

end

/-- A loop over distinct channels: a channel it serves is shown to its work as before the loop, and the work's result is
shown to the rest of the loop and kept; a channel it does not serve is shown the same throughout. -/
theorem agree_forChans {m : Mask} {j : Chan} :
    ∀ (ks : List Chan) (s t : State), ks.Nodup → forChans m channelWork ks s = .next t →
      if j ∈ ks ∧ m.getLsbD j.val = true then ∃ v w, Agree j s v ∧ channelWork j v = .next w ∧ Agree j w t
      else Agree j s t := by
  intro ks
  induction ks with
  | nil => intro s t _ h; cases h; simpa using Agree.refl j s
  | cons k ks ih =>
    intro s t hnodup h
    obtain ⟨hk, hks⟩ := List.nodup_cons.1 hnodup
    rw [forChans] at h
    by_cases hm : m.getLsbD k.val = true
    · rw [if_pos hm] at h
      obtain ⟨u, hu, ht⟩ := andThen_eq_next.1 h
      have hrest := ih u t hks ht
      by_cases hj : j = k
      · subst hj
        rw [if_neg (fun hin => hk hin.1)] at hrest
        rw [if_pos ⟨List.mem_cons_self, hm⟩]
        exact ⟨s, u, .refl j s, hu, hrest⟩
      · have hothers := agree_channelWork_ne hj hu
        simp only [List.mem_cons, hj, false_or]
        split
        · next hin =>
          rw [if_pos hin] at hrest
          obtain ⟨v, w, huv, hw, hwt⟩ := hrest
          exact ⟨v, w, hothers.trans huv, hw, hwt⟩
        · next hin =>
          rw [if_neg hin] at hrest
          exact hothers.trans hrest
    · rw [if_neg hm] at h
      have hrest := ih s t hks h
      by_cases hj : j = k
      · subst hj
        rw [if_neg (fun hin => hk hin.1)] at hrest
        rwa [if_neg (fun hin => hm hin.2)]
      · simpa only [List.mem_cons, hj, false_or] using hrest

/-! ### The work of a channel always goes on -/

/-- What a channel's work needs of the invariant: every copy it makes stays in the address space. -/
structure Sound (s : State) : Prop where
  cfg : s.cfg.ok = true
  ctx : ∀ k, ctxOk s.cfg (s.chan k) = true
  mem : Memory.wf s.mem = true

theorem State.Inv.sound {s : State} (hs : s.Inv) : Sound s := by
  obtain ⟨hcfg, hctx, hmem, -⟩ := hs
  exact ⟨hcfg, hctx, hmem⟩

theorem Sound.channelWork {k : Chan} {s t : State} (hs : Sound s) (h : channelWork k s = .next t) : Sound t := by
  have hw := works_channelWork h
  exact ⟨hw.cfg ▸ hs.cfg, fun j => hw.cfg ▸ (hw.tracks j).ok _ (hs.ctx j), hw.mem hs.mem⟩

theorem Sound.copyField {k : Chan} {b : Entry} {q : List Entry} {s : State} (hs : Sound s)
    (hq : (s.chan k).queue = b :: q) (f : FieldNo) (slot : Slot) (single : Bool) :
    ∃ t, copyField k f slot single b s = .next t := by
  obtain ⟨-, hbuf⟩ := (bufInRange_iff _ _).1 (ctxOk_head (hs.ctx k) hq)
  obtain ⟨t, ht, -⟩ := copyLines_completes hbuf _ 0 s (fbAddr_le hs.cfg k f slot) hs.mem
  exact ⟨t, ht⟩

/-- Where the first part goes on, so does what is made of its result. -/
theorem andThen_goesOn {r : Res} (h : ∃ u, r = .next u) (g : State → State) :
    ∃ t, (andThen r fun u => .next (g u)) = .next t := by
  obtain ⟨u, rfl⟩ := h
  exact ⟨g u, rfl⟩

theorem Sound.fieldEvent {k : Chan} {b : Entry} {q : List Entry} {s : State} (hs : Sound s)
    (hq : (s.chan k).queue = b :: q) (f : FieldNo) (slot : Slot) : ∃ t, fieldEvent k f slot b s = .next t := by
  have hcopy (f : FieldNo) (single : Bool) (g : State → State) := andThen_goesOn (hs.copyField hq f slot single) g
  unfold Machine.fieldEvent
  dsimp only
  split
  · split
    · split
      · exact hcopy _ _ _
      · exact ⟨_, rfl⟩
    · split
      · exact hcopy _ _ _
      · exact ⟨_, rfl⟩
  · split
    · exact hcopy _ _ _
    · exact ⟨_, rfl⟩
  · split
    · exact hcopy _ _ _
    · exact ⟨_, rfl⟩
  · exact hcopy _ _ _

theorem channelWork_goesOn (k : Chan) {s : State} (hs : Sound s) : ∃ t, channelWork k s = .next t := by
  unfold channelWork
  dsimp only
  split
  · exact ⟨_, rfl⟩
  split
  · exact ⟨_, rfl⟩
  split
  · exact ⟨_, rfl⟩
  split
  · exact ⟨_, rfl⟩
  split
  · exact ⟨_, rfl⟩
  · next hq => exact hs.fieldEvent hq _ _

/-- The loop of P5 goes on, whatever it serves. -/
theorem forChans_channelWork_goesOn (m : Mask) (ks : List Chan) {s : State} (hs : Sound s) :
    ∃ t, forChans m channelWork ks s = .next t := by
  obtain ⟨t, ht, -⟩ := forChans_completes (P := Sound) (m := m) (f := channelWork) (fun k u hu => by
    obtain ⟨v, hv⟩ := channelWork_goesOn k hu
    exact ⟨v, hv, hu.channelWork hv⟩) ks s hs
  exact ⟨t, ht⟩

end Sys2Proof.Machine

/-! ## The course of an invocation (60_exceptions.md R232 to R247)

Which of its three courses an invocation takes, and what it ends in where no channel, or one, is to be served. -/

namespace Sys2Proof.Machine

/-- Settles O30: the test of `irq_active` comes first. -/
theorem interruptIsHeldDuringAnInvocation : Obligations.InterruptIsHeldDuringAnInvocation := fun _ h => if_pos h

theorem exec_irq {s : State} (h : s.irqActive = false) : exec .irq s = dispatch s :=
  if_neg (by simp [h])

/-! ### The three courses -/

/-- The state in which the sections of P5 start: entered, and all four status reads made. -/
def readied (s : State) : State := readMasks (classified s)

theorem classified_eq (s : State) :
    classified s = { s with
      irqActive := true
      lat := { s.lat with st := s.dev.intStatus, er := s.dev.fifoStatus, rst := 0 }
      hist := s.hist ++
        [.regRead s.cfg.regMap.intStatus s.dev.intStatus, .regRead s.cfg.regMap.fifoStatus s.dev.fifoStatus] } := by
  simp [classified, irqEnter, readInt, readFifo, regRead, State.emit, regOffset, regValue]

theorem readied_eq (s : State) :
    readied s = { s with
      irqActive := true
      lat := ⟨s.dev.intStatus, s.dev.fifoStatus, s.dev.dmaEn, s.dev.pbStatus, 0⟩
      hist := s.hist ++
        [.regRead s.cfg.regMap.intStatus s.dev.intStatus, .regRead s.cfg.regMap.fifoStatus s.dev.fifoStatus,
          .regRead s.cfg.regMap.dmaEn s.dev.dmaEn, .regRead s.cfg.regMap.pbStatus s.dev.pbStatus] } := by
  rw [readied, classified_eq]
  simp [readMasks, regRead, State.emit, regOffset, regValue]

/-- The video channels an invocation entered in `s` is to serve (R240). -/
def readySet (s : State) : Mask := videoReady s.dev.intStatus s.dev.fifoStatus s.dev.dmaEn

/-- The end of the class DATA: the hand-off of audio, and the reset operation if a channel is flagged. -/
def dataEnd (u : State) : State := irqLeave (resetPhase (audioHandOff u))

theorem andThen_assoc (r : Res) (f g : State → Res) :
    andThen (andThen r f) g = andThen r fun s => andThen (f s) g := by cases r <;> rfl

theorem latchedReady_readied (s : State) : latchedReady (readied s) = readySet s := by
  rw [latchedReady, readied_eq, readySet]

/-- The class is decided by the status registers and the parameters alone (R235). -/
theorem dispatch_eq (s : State) :
    dispatch s =
      if notOurs s.cfg s.dev.intStatus s.dev.fifoStatus then .next (irqLeave (classified s))
      else if timedOut s.cfg s.dev.intStatus then .next (irqLeave (resetPhase (raiseTimeout (classified s))))
      else andThen (forChans (readySet s) channelWork allChans (readied s)) fun u => .next (dataEnd u) := by
  have hclassified : readFifo (readInt (irqEnter s)) = classified s := rfl
  have hreadied : readMasks (classified s) = readied s := rfl
  have hst : (classified s).lat.st = s.dev.intStatus := by rw [classified_eq]
  have her : (classified s).lat.er = s.dev.fifoStatus := by rw [classified_eq]
  have hcfg : (classified s).cfg = s.cfg := by rw [classified_eq]
  simp only [dispatch, dataPhases, dataEnd, andThen_assoc, andThen_next, hclassified, hreadied,
    latchedReady_readied, hst, her, hcfg]

theorem dispatch_notOurs {s : State} (h : notOurs s.cfg s.dev.intStatus s.dev.fifoStatus = true) :
    dispatch s = .next (irqLeave (classified s)) := by rw [dispatch_eq, if_pos h]

theorem dispatch_timeout {s : State} (hours : notOurs s.cfg s.dev.intStatus s.dev.fifoStatus = false)
    (h : timedOut s.cfg s.dev.intStatus = true) :
    dispatch s = .next (irqLeave (resetPhase (raiseTimeout (classified s)))) := by
  rw [dispatch_eq, if_neg (Bool.eq_false_iff.1 hours), if_pos h]

theorem dispatch_data {s : State} (hours : notOurs s.cfg s.dev.intStatus s.dev.fifoStatus = false)
    (h : timedOut s.cfg s.dev.intStatus = false) :
    dispatch s = andThen (forChans (readySet s) channelWork allChans (readied s)) fun u => .next (dataEnd u) := by
  rw [dispatch_eq, if_neg (Bool.eq_false_iff.1 hours), if_neg (Bool.eq_false_iff.1 h)]

/-! ### The bits that decide -/

theorem notOurs_iff (p : Params) (st er : Word) :
    notOurs p st er = true ↔ st &&& (0x0000FFFF#32 ||| wordBit p.toutBit) = 0 ∧ er &&& 0xFFFF0000#32 = 0 := by
  simp [notOurs]

theorem getLsbD_wordBit_self {n : Nat} (h : n < 32) : (wordBit n).getLsbD n = true := by
  rw [wordBit, ← BitVec.twoPow_eq, BitVec.getLsbD_twoPow]
  simp [h]

/-- A timeout is a pending condition. -/
theorem notOurs_of_timedOut {p : Params} {st er : Word} (h : timedOut p st = true) : notOurs p st er = false := by
  rw [← Bool.not_eq_true, notOurs_iff]
  rintro ⟨hst, -⟩
  have hbit : (0x0000FFFF#32 ||| wordBit p.toutBit).getLsbD p.toutBit = true := by
    rw [BitVec.getLsbD_or, getLsbD_wordBit_self (BitVec.lt_of_getLsbD h), Bool.or_true]
  exact and_ne_zero_of_getLsbD h hbit hst

/-- No FIFO bit set, no FIFO error. -/
theorem fifoErr_eq_zero {er : Word} (h : er &&& 0xFFFF0000#32 = 0) : fifoErr er = 0 := by
  have hhigh : er.extractLsb' 24 8 = 0#8 := extractLsb'_eq_zero_of_and h (by decide)
  have hlow : er.extractLsb' 16 8 = 0#8 := extractLsb'_eq_zero_of_and h (by decide)
  rw [fifoErr, hhigh, hlow]
  rfl

/-- A bit that a mask selects is clear when the masked word is 0. -/
theorem audioReady_eq_zero {st m : Word} (h : st &&& m = 0) (hm : m.extractLsb' 8 8 = BitVec.allOnes 8) :
    audioReady st = 0 := extractLsb'_eq_zero_of_and h hm

theorem videoReady_eq_zero {st er en m : Word} (hvideo : st &&& en &&& m = 0)
    (hm : m.extractLsb' 0 8 = BitVec.allOnes 8) (hfifo : er &&& 0xFFFF0000#32 = 0) :
    videoReady st er en = 0 := by
  have hdata : videoBits (st &&& en) = 0#8 := extractLsb'_eq_zero_of_and hvideo hm
  rw [videoReady, fifoErr_eq_zero hfifo, videoBits, videoBits, ← BitVec.extractLsb'_and]
  exact (BitVec.or_zero).trans hdata

/-- An invocation that is not the block's has nothing to serve. -/
theorem ready_of_notOurs {p : Params} {st er : Word} (h : notOurs p st er = true) (en : Word) :
    videoReady st er en = 0 ∧ audioReady st = 0 := by
  obtain ⟨hst, her⟩ := (notOurs_iff p st er).1 h
  have hlow : st &&& 0xFFFF#32 = 0 := by
    rw [BitVec.and_or_distrib_left] at hst
    exact (BitVec.or_eq_zero_iff.1 hst).1
  have hvideo : st &&& en &&& 0xFFFF#32 = 0 := by
    rw [BitVec.and_assoc, BitVec.and_comm en, ← BitVec.and_assoc, hlow]
    exact BitVec.zero_and
  exact ⟨videoReady_eq_zero hvideo (by decide) her, audioReady_eq_zero hlow (by decide)⟩

/-! ### Nothing to serve, or a timeout -/

/-- Settles O25: the invocation ends with P1. -/
theorem foreignInterruptLeavesNoTrace : Obligations.ForeignInterruptLeavesNoTrace := by
  intro s hidle hst her
  rw [exec_irq hidle, dispatch_notOurs ((notOurs_iff _ _ _).2 ⟨hst, her⟩), classified_eq, irqLeave, hidle]

/-- What a global timeout ends in on faithful registers: all channels counted and given up, and section B of the reset
operation for all eight (R238). -/
theorem timeoutEnd_faithful (s : State) (h : s.dev.glitch = []) :
    ∃ contexts : Bank Ctx,
      (∀ k, contexts.get k = discarded { s.chan k with timeoutCnt := (s.chan k).timeoutCnt + 1 })
      ∧ irqLeave (resetPhase (raiseTimeout (classified s))) =
        let e := s.dev.dmaEn &&& ~~~0xFF#32
        { s with
          ch := contexts
          pendEn := s.dev.dmaEn
          pendCmd := s.dev.dmaCmd
          pendValid := true
          videoDMA := videoBits e
          dev := { s.dev with dmaEn := e, dmaCmd := haltedCmd e s.dev.dmaCmd }
          lastResetMask := 0xFF
          lastFaultTime := s.now
          lastFaultValid := true
          deferDeadline := s.now + s.cfg.tDefer
          deferArmed := true
          lat := { s.lat with st := s.dev.intStatus, er := s.dev.fifoStatus, rst := 0xFF }
          irqActive := false
          hist := s.hist ++
            [.regRead s.cfg.regMap.intStatus s.dev.intStatus, .regRead s.cfg.regMap.fifoStatus s.dev.fifoStatus,
              .regRead s.cfg.regMap.dmaEn s.dev.dmaEn, .regRead s.cfg.regMap.dmaCmd s.dev.dmaCmd,
              .regWrite s.cfg.regMap.dmaEn e, .regRead s.cfg.regMap.dmaEn e] ++ haltTransfers s.cfg.regMap e } := by
  have hphase : resetPhase (raiseTimeout (classified s)) = resetChannels 0xFF (raiseTimeout (classified s)) :=
    if_neg (by decide : (0xFF : Mask) ≠ 0)
  have hfaithful : (raiseTimeout (classified s)).dev.glitch = [] := by rwa [raiseTimeout_dev, classified_eq]
  obtain ⟨hctx, hreset⟩ := resetOperationRemovesTheChannels 0xFF (raiseTimeout (classified s)) hfaithful
  refine ⟨(resetChannels 0xFF (raiseTimeout (classified s))).ch, fun k => (hctx k).trans ?_, ?_⟩
  · have hall : (0xFF : Mask).getLsbD k.val = true := by fin_cases k <;> decide
    rw [chan_raiseTimeout, chan_classified]
    simp only [hall, true_and]
    rfl
  · rw [hphase, hreset, classified_eq]
    simp [irqLeave, raiseTimeout]

/-- Settles O26: the course of a timeout, and the reset operation for all eight channels. -/
theorem globalTimeoutResetsAllVideoChannels : Obligations.GlobalTimeoutResetsAllVideoChannels := by
  intro s hidle hfaithful htimeout e
  obtain ⟨contexts, hctx, hend⟩ := timeoutEnd_faithful s hfaithful
  have hshadow : videoBits e = 0 := by
    rw [videoBits, BitVec.extractLsb'_and, show (~~~0xFF#32).extractLsb' 0 8 = 0#8 by decide]
    exact BitVec.and_zero
  rw [exec_irq hidle, dispatch_timeout (notOurs_of_timedOut htimeout) htimeout, hend]
  exact ⟨_, rfl, hctx, rfl, hshadow, rfl, rfl, rfl, rfl, rfl, rfl, rfl, rfl, rfl, rfl, fun _ => rfl, by
    rw [OnlyInterruptState, hidle]⟩

/-! ### Loops that serve no channel, or one -/

theorem forChans_none {m : Mask} {f : Chan → State → Res} {ks : List Chan} (h : ∀ k ∈ ks, m.getLsbD k.val = false)
    (s : State) : forChans m f ks s = .next s := by
  induction ks with
  | nil => rfl
  | cons k ks ih =>
    obtain ⟨hk, hks⟩ := List.forall_mem_cons.1 h
    rw [forChans, if_neg (Bool.eq_false_iff.1 hk), ih hks]

theorem forChans_zero (f : Chan → State → Res) (ks : List Chan) (s : State) : forChans 0 f ks s = .next s :=
  forChans_none (fun _ _ => BitVec.getLsbD_zero) s

theorem andThen_eq_self {r : Res} {f : State → Res} (h : ∀ s, f s = .next s) : andThen r f = r := by
  cases r with
  | next s => exact h s
  | fault | refused => rfl

/-- A loop over a mask of one channel is that channel's body. -/
theorem forChans_maskBit (f : Chan → State → Res) {k : Chan} :
    ∀ (ks : List Chan) (s : State), ks.Nodup → k ∈ ks → forChans (maskBit k) f ks s = f k s := by
  intro ks
  induction ks with
  | nil => intro s _ hk; cases hk
  | cons j ks ih =>
    intro s hnodup hk
    obtain ⟨hj, hks⟩ := List.nodup_cons.1 hnodup
    by_cases hjk : j = k
    · subst hjk
      have hself : (maskBit j).getLsbD j.val = true := by fin_cases j <;> decide
      rw [forChans, if_pos hself]
      exact andThen_eq_self (forChans_none fun i hi => getLsbD_maskBit_ne fun he => hj (he ▸ hi))
    · rw [forChans, getLsbD_maskBit_ne hjk]
      exact ih s hks ((List.mem_cons.1 hk).resolve_left (Ne.symm hjk))

/-! ### The end of the class DATA -/

theorem audioHandOff_none {s : State} (h : audioReady s.lat.st = 0) : audioHandOff s = s := if_pos h

theorem resetPhase_none {s : State} (h : s.lat.rst = 0) : resetPhase s = s := if_pos h

theorem audioHandOff_some {s : State} (h : audioReady s.lat.st ≠ 0) :
    audioHandOff s = { s with hist := s.hist ++ [.aud (audioReady s.lat.st) (audioSlots s.lat.pb)] } := if_neg h

theorem dataEnd_eq (u : State) :
    dataEnd u = if u.lat.rst = 0 then { audioHandOff u with irqActive := false }
      else { resetChannels u.lat.rst (audioHandOff u) with irqActive := false } := by
  have hlat : (audioHandOff u).lat = u.lat := by unfold audioHandOff; split <;> rfl
  rw [dataEnd, resetPhase, hlat]
  split <;> rfl

/-- Settles O27: the loop serves nobody, and nobody is flagged. -/
theorem audioReadyIsHandedOff : Obligations.AudioReadyIsHandedOff := by
  intro s hidle htimeout haudio hvideo hfifo
  have hready : readySet s = 0 := videoReady_eq_zero hvideo (by decide) hfifo
  have hours : notOurs s.cfg s.dev.intStatus s.dev.fifoStatus = false :=
    Bool.eq_false_iff.2 fun h => haudio (ready_of_notOurs h 0).2
  have hhandOff : audioReady (readied s).lat.st ≠ 0 := by rw [readied_eq]; exact haudio
  rw [exec_irq hidle, dispatch_data hours htimeout, hready, forChans_zero, andThen_next, dataEnd_eq,
    audioHandOff_some hhandOff, readied_eq, hidle]
  simp only [if_true, List.append_assoc, List.cons_append, List.nil_append]
  rfl

/-- Settles O28: the loop is the one channel's work. -/
theorem oneReadyChannelIsServed : Obligations.OneReadyChannelIsServed := by
  intro s k hidle htimeout haudio hone
  have hnoaudio : audioReady s.dev.intStatus = 0 := audioReady_eq_zero haudio (by decide)
  have hready : readySet s = maskBit k := (BitVec.or_assoc _ _ _).symm.trans hone
  have hours : notOurs s.cfg s.dev.intStatus s.dev.fifoStatus = false := by
    refine Bool.eq_false_iff.2 fun h => ?_
    have hnone : maskBit k = 0 := hready.symm.trans (ready_of_notOurs h s.dev.dmaEn).1
    revert hnone
    fin_cases k <;> decide
  rw [exec_irq hidle, dispatch_data hours htimeout, hready,
    forChans_maskBit channelWork _ _ (by decide) (mem_allChans k), readied_eq]
  cases hwork : channelWork k _ with
  | next u =>
    have hst := congrArg Latches.st (channelWork_status hwork)
    rw [andThen_next, andThen_next, dataEnd_eq, audioHandOff_none ((congrArg audioReady hst).trans hnoaudio)]
  | fault | refused => rfl

end Sys2Proof.Machine

/-! ## Whole invocations under the invariant (60_exceptions.md R233, R245 to R248) -/

namespace Sys2Proof.Machine

/-! ### An invocation completes -/

/-- The reads of P1 and P3 take nothing from what the channels' work needs. -/
theorem Sound.readied {s : State} (hs : Sound s) : Sound (readied s) := by
  rw [readied_eq]
  exact ⟨hs.cfg, hs.ctx, hs.mem⟩

theorem dispatch_goesOn {s : State} (hs : Sound s) : ∃ t, dispatch s = .next t := by
  rw [dispatch_eq]
  split
  · exact ⟨_, rfl⟩
  split
  · exact ⟨_, rfl⟩
  · exact andThen_goesOn (forChans_channelWork_goesOn _ _ hs.readied) _

theorem execIrq_goesOn {s : State} (hs : Sound s) : ∃ t, execIrq s = .next t := by
  unfold execIrq
  split
  · exact ⟨_, rfl⟩
  · exact dispatch_goesOn hs

/-- Settles O42: the invocation goes on, and its sections keep the invariant and the idle dispatcher. -/
theorem interruptCompletes : Obligations.InterruptCompletes := by
  intro s hs hidle
  obtain ⟨t, ht⟩ := execIrq_goesOn hs.sound
  have hkeeps := eventKeeps_execIrq ht
  exact ⟨t, ht, hkeeps.active.trans hidle, hkeeps.inv hs⟩

/-! ### Every ready set -/

/-- Settles O29: the loop goes on, each channel ends it as agreed, and the end of the class DATA follows. -/
theorem everyReadySetIsServed : Obligations.EveryReadySetIsServed := by
  intro s hs hidle htimeout hpending ready aready s1
  have hs1 : s1 = readied s := (readied_eq s).symm
  have hready : ready = readySet s := BitVec.or_assoc _ _ _
  have hours : notOurs s.cfg s.dev.intStatus s.dev.fifoStatus = false :=
    Bool.eq_false_iff.2 fun h => hpending ((notOurs_iff _ _ _).1 h)
  obtain ⟨u, hu⟩ := forChans_channelWork_goesOn ready allChans (hs1 ▸ hs.sound.readied : Sound s1)
  refine ⟨u, hu, fun k => ?_, ?_⟩
  · have hk := agree_forChans (j := k) allChans s1 u (by decide) hu
    simp only [mem_allChans, true_and] at hk
    split
    · next hbit =>
      rw [if_pos hbit] at hk
      obtain ⟨v, w, hv, hvw, hwu⟩ := hk
      obtain ⟨w', hw'⟩ := channelWork_goesOn k (hs1 ▸ hs.sound.readied : Sound s1)
      have hend := (hv.channelWork hw' hvw).trans hwu
      exact ⟨w', hw', hend.chan, hend.flag⟩
    · next hbit =>
      rw [if_neg hbit] at hk
      exact ⟨hk.chan, hk.flag.trans BitVec.getLsbD_zero⟩
  · have hstatus : u.lat.status = s1.lat.status :=
      forChans_keeps (P := fun v => v.lat.status = s1.lat.status)
        (fun _ _ _ hv hw => (channelWork_status hw).trans hv) _ _ _ rfl hu
    have hst : u.lat.st = s.dev.intStatus := congrArg Latches.st hstatus
    have hpb : u.lat.pb = s.dev.pbStatus := congrArg Latches.pb hstatus
    have haudio : audioHandOff u = if aready = 0#8 then u else
        { u with hist := u.hist ++ [.aud aready (s.dev.pbStatus.extractLsb' 8 8)] } := by
      rw [audioHandOff, hst, hpb]
      rfl
    rw [exec_irq hidle, dispatch_data hours htimeout, ← hs1, ← hready, hu, andThen_next, dataEnd_eq, haudio]

/-! ### Every step goes on -/

theorem exec_goesOn (i : Instr) {s : State} (hs : Sound s) : ∃ t, exec i s = .next t := by
  by_cases hcmd : i ∈ [Instr.irq, .tdefer, .twdog]
  · simp only [List.mem_cons, List.not_mem_nil, or_false] at hcmd
    obtain rfl | rfl | rfl := hcmd
    · exact execIrq_goesOn hs
    · exact ⟨_, exec_tdefer s⟩
    · exact ⟨_, exec_twdog s⟩
  · obtain ⟨u, status, data, -, -, h⟩ := exec_answers s hcmd
    exact ⟨_, h⟩

theorem serveEvent_goesOn (line : BitVec 3) (i : Instr) {s : State} (hs : Sound s) :
    ∃ t, serveEvent line i s = .next t := by
  unfold serveEvent
  split
  · exact ⟨_, rfl⟩
  · exact exec_goesOn i (s := clearLine line s) ⟨hs.cfg, hs.ctx, hs.mem⟩

theorem serve_goesOn (p : Port) {s : State} (hs : Sound s) : ∃ t, serve p s = .next t := by
  cases p with
  | cmd =>
    simp only [serve, serveCommand]
    split
    · exact ⟨_, rfl⟩
    split
    · exact ⟨_, rfl⟩
    · exact ⟨_, rfl⟩
    · next i rest _ => exact exec_goesOn i (s := { s with cmdPort := rest }) ⟨hs.cfg, hs.ctx, hs.mem⟩
  | irq => exact serveEvent_goesOn _ _ hs
  | tdefer => exact serveEvent_goesOn _ _ hs
  | twdog =>
    simp only [serve]
    split
    · exact ⟨_, rfl⟩
    · exact serveEvent_goesOn _ _ hs

/-- Of the dispatcher's sections only the work of a channel could stop. -/
theorem advanceDispatcher_goesOn (pick : Nat) {s : State} (hs : Sound s) :
    ∃ t, advanceDispatcher pick s = .next t := by
  unfold advanceDispatcher
  split
  case h_7 m _ =>
    split
    · exact ⟨_, rfl⟩
    · next k _ => exact andThen_goesOn (channelWork_goesOn k hs) _
  case h_9 m _ => split <;> exact ⟨_, rfl⟩
  all_goals exact ⟨_, rfl⟩

theorem makeMove_goesOn (m : Move) {s : State} (hs : Sound s) : ∃ t, makeMove m s = .next t := by
  cases m with
  | serve p => exact serve_goesOn p hs
  | take p =>
    cases p with
    | tdefer => exact serve_goesOn .tdefer hs
    | cmd | irq | twdog => exact ⟨_, rfl⟩
  | advance a =>
    cases a with
    | dispatcher pick => exact advanceDispatcher_goesOn pick hs
    | executor | watchdog => exact ⟨_, rfl⟩
  | offer | raise | tick | drive | fill | lateFills | glitches | consumer | hwReset => exact ⟨_, rfl⟩

/-- Settles O50: every move goes on. -/
theorem invariantStatesNeverStop : Obligations.InvariantStatesNeverStop := by
  intro s hs
  unfold step
  split
  · exact ⟨s, rfl⟩
  · next m rest _ => exact makeMove_goesOn m (s := { s with sched := rest }) ⟨hs.sound.cfg, hs.sound.ctx, hs.sound.mem⟩

/-! ### The frame of an invocation -/

theorem sameFormat_refl (c : Ctx) : SameFormat c c := ⟨rfl, rfl, rfl, rfl, rfl, rfl⟩

theorem SameFormat.trans {c d e : Ctx} (h : SameFormat c d) (g : SameFormat d e) : SameFormat c e := by
  unfold SameFormat at *
  simp only [g, h, and_self]

theorem Served.sameFormat {c d : Ctx} (h : Served c d) : SameFormat c d := by
  cases h <;> exact sameFormat_refl _

theorem sameFormat_discardInFlight (k : Chan) (s : State) : EachChan SameFormat s (discardInFlight k s) := by
  unfold discardInFlight
  split
  · exact eachChan_modChan sameFormat_refl rfl (sameFormat_refl _)
  · exact eachChan_of_ch sameFormat_refl rfl

/-- No section of an interrupt changes a format. -/
theorem sameFormat_closed : InterruptClosed (EachChan SameFormat) where
  refl _ := eachChan_of_ch sameFormat_refl rfl
  trans h g j := (h j).trans (g j)
  readInt _ := eachChan_of_ch sameFormat_refl rfl
  readFifo _ := eachChan_of_ch sameFormat_refl rfl
  timeout s j := by rw [chan_raiseTimeout]; exact sameFormat_refl _
  masks _ := eachChan_of_ch sameFormat_refl rfl
  work {k s t} h j := by
    by_cases hj : j = k
    · exact hj ▸ h.served.sameFormat
    · rw [h.others j hj]
      exact sameFormat_refl _
  audio s := eachChan_of_ch sameFormat_refl (audioHandOff_ch s)
  discard := sameFormat_discardInFlight
  resetRegs m s := eachChan_of_ch sameFormat_refl (resetSection_ch m s)

/-! ### The bytes an invocation leaves alone -/

/-- An address outside the buffer (R70 of 20_memory.md). -/
def Entry.Avoids (b : Entry) (a : Nat) : Prop := a < b.addr.toNat ∨ b.addr.toNat + b.cap.toNat ≤ a

/-- An address the capture device has no write to come at: outside the field buffers, or no write is scripted
(log 10). -/
def DeviceAvoids (s : State) (a : Nat) : Prop :=
  a < s.cfg.fieldBase ∨ s.cfg.fieldBase + 32 * s.cfg.maxFieldBytes ≤ a ∨ s.dev.lateFill = []

/-- From `s` to `t` byte `a` is as before, and the device has still no write to come there. -/
structure KeepsByte (a : Nat) (s t : State) : Prop where
  byte : Memory.read t.mem a = Memory.read s.mem a
  device : DeviceAvoids s a → DeviceAvoids t a

theorem KeepsByte.refl (a : Nat) (s : State) : KeepsByte a s s := ⟨rfl, id⟩

theorem KeepsByte.trans {a : Nat} {s t u : State} (h : KeepsByte a s t) (g : KeepsByte a t u) : KeepsByte a s u :=
  ⟨g.byte.trans h.byte, g.device ∘ h.device⟩

/-- A field buffer lies in the region the capture device owns (R69). -/
theorem fbAddr_region (p : Params) (k : Chan) (f : FieldNo) (slot : Slot) :
    p.fieldBase ≤ fbAddr p k f slot
      ∧ fbAddr p k f slot + p.maxFieldBytes ≤ p.fieldBase + 32 * p.maxFieldBytes := by
  have hk := k.isLt
  have hj : 4 * k.val + 2 * f.num + slot.num + 1 ≤ 32 := by
    cases f <;> cases slot <;> simp only [FieldNo.num, Slot.num] <;> omega
  have hsize := Nat.mul_le_mul_right p.maxFieldBytes hj
  rw [Nat.succ_mul] at hsize
  unfold fbAddr
  omega

/-- A line's copy while the capture device has nothing to write. -/
theorem copyLine_lateFill {src dst n : Nat} {s t : State} (h : copyLine src dst n s = .next t) :
    t.dev.lateFill = s.dev.lateFill.tail := by
  obtain ⟨-, -, rfl⟩ := copyLine_eq_next.1 h
  rw [landFill_frame]
  rfl

/-- Without late fills a copy writes its frame buffer only. -/
theorem CopyPlan.read_run_quiet {c : CopyPlan} {a : Nat} (hdst : a < c.dst ∨ c.dst + c.cap ≤ a) {n i : Nat}
    {s t : State} (hsize : s.cfg.maxFieldBytes = c.size) (hquiet : s.dev.lateFill = []) (h : c.run n i s = .next t) :
    Memory.read t.mem a = Memory.read s.mem a := by
  induction n generalizing i s with
  | zero => cases h; rfl
  | succ n ih =>
    obtain ⟨rfl, -⟩ | ⟨m, u, hm, ⟨-, hfits⟩, hline, hrest⟩ := run_cases hsize h
    · rfl
    · cases hm
      rw [ih ((congrArg _ (copyLine_onlyCopied hline).cfg).trans hsize)
        (by rw [copyLine_lateFill hline, hquiet]; rfl) hrest, copyLine_quiet hquiet hline]
      exact Memory.read_writeBytes_out _ _ _ (by rw [Memory.length_readBytes]; unfold dstLine; omega)

theorem keepsByte_copyField {a : Nat} {k : Chan} {f : FieldNo} {slot : Slot} {single : Bool} {b : Entry} {s t : State}
    (hb : b.Avoids a) (hd : DeviceAvoids s a) (h : copyField k f slot single b s = .next t) : KeepsByte a s t := by
  have hquiet : s.dev.lateFill = [] → t.dev.lateFill = [] := fun hq =>
    copyLines_keeps (P := fun u => u.dev.lateFill = []) (fun _ _ _ _ _ hp hl => by rw [copyLine_lateFill hl, hp]; rfl)
      _ _ _ _ hq h
  refine ⟨?_, fun _ => ?_⟩
  · obtain ⟨hlow, hhigh⟩ := fbAddr_region s.cfg k f slot
    by_cases hfill : s.dev.lateFill = []
    · exact (copyPlan k f slot single b s).read_run_quiet hb rfl hfill h
    · refine copyStaysInsideTheBuffers k f slot single b s t a h hb ?_
      obtain hd | hd | hd := hd
      · omega
      · omega
      · exact absurd hd hfill
  · unfold DeviceAvoids at hd ⊢
    rw [(copyField_onlyCopied h).cfg]
    exact hd.imp_right (Or.imp_right hquiet)

theorem keepsByte_fieldEvent {a : Nat} {k : Chan} {field : FieldNo} {slot : Slot} {b : Entry} {s t : State}
    (hb : b.Avoids a) (hd : DeviceAvoids s a) (h : fieldEvent k field slot b s = .next t) : KeepsByte a s t := by
  obtain rfl | rfl | h | ⟨-, -, -, -, h⟩ | ⟨f, tag, -, h⟩ := fieldEvent_cases h
  · exact .refl a t
  · exact ⟨rfl, id⟩
  all_goals
    obtain ⟨u, hu, ht⟩ := andThen_eq_next.1 h
    cases ht
    exact (keepsByte_copyField hb hd hu).trans ⟨rfl, id⟩

/-- A channel's work writes the buffer at the head of its queue. -/
theorem keepsByte_channelWork {a : Nat} {k : Chan} {s t : State}
    (hb : ∀ b, (s.chan k).queue.head? = some b → b.Avoids a) (hd : DeviceAvoids s a)
    (h : channelWork k s = .next t) : KeepsByte a s t := by
  unfold channelWork at h
  dsimp only at h
  split at h
  · cases h; exact ⟨rfl, id⟩
  split at h
  · cases h; exact ⟨rfl, id⟩
  split at h
  · cases h; exact ⟨rfl, id⟩
  split at h
  · cases h; exact ⟨rfl, id⟩
  split at h
  · cases h; exact ⟨rfl, id⟩
  · next hq => exact keepsByte_fieldEvent (hb _ (by rw [hq]; rfl)) hd h

/-- A loop over distinct channels: each finds its queue as it was before the loop. -/
theorem keepsByte_forChans {a : Nat} {m : Mask} :
    ∀ (ks : List Chan) (s t : State), ks.Nodup →
      (∀ k ∈ ks, ∀ b, (s.chan k).queue.head? = some b → b.Avoids a) → DeviceAvoids s a →
      forChans m channelWork ks s = .next t → KeepsByte a s t := by
  intro ks
  induction ks with
  | nil => intro s t _ _ _ h; cases h; exact .refl a _
  | cons k ks ih =>
    intro s t hnodup hb hd h
    obtain ⟨hk, hks⟩ := List.nodup_cons.1 hnodup
    obtain ⟨hbk, hbks⟩ := List.forall_mem_cons.1 hb
    rw [forChans] at h
    split at h
    · obtain ⟨u, hu, ht⟩ := andThen_eq_next.1 h
      have hfirst := keepsByte_channelWork hbk hd hu
      refine hfirst.trans (ih u t hks (fun j hj b hjb => hbks j hj b ?_) (hfirst.device hd) ht)
      rwa [(works_channelWork hu).others j (fun he => hk (he ▸ hj))] at hjb
    · exact ih s t hks hbks hd h

theorem resetPhase_mem (s : State) : (resetPhase s).mem = s.mem := by
  unfold resetPhase
  split
  · rfl
  · obtain ⟨contexts, hdiscard⟩ := discardAll_onlyContexts s.lat.rst s
    rw [resetChannels, hdiscard, resetSection_eq, recordFault, haltIfEmpty_onlyDma, setEnable_onlyDma]
    rfl

theorem audioHandOff_mem (s : State) : (audioHandOff s).mem = s.mem := by unfold audioHandOff; split <;> rfl

theorem keepsByte_classified (a : Nat) (s : State) : KeepsByte a s (classified s) := by
  rw [classified_eq]
  exact ⟨rfl, id⟩

theorem keepsByte_readied (a : Nat) (s : State) : KeepsByte a s (readied s) := by
  rw [readied_eq]
  exact ⟨rfl, id⟩

/-- Outside the loop of P5 an invocation writes no memory. -/
theorem dispatch_read {a : Nat} {s t : State} (hb : ∀ k b, (s.chan k).queue.head? = some b → b.Avoids a)
    (hd : DeviceAvoids s a) (h : dispatch s = .next t) : Memory.read t.mem a = Memory.read s.mem a := by
  obtain rfl | rfl | ⟨u, hu, rfl⟩ := dispatch_cases h
  · exact (keepsByte_classified a s).byte
  · rw [irqLeave_mem, resetPhase_mem, raiseTimeout_mem]
    exact (keepsByte_classified a s).byte
  · have hread := keepsByte_readied a s
    have hloop : KeepsByte a (readied s) u := by
      refine keepsByte_forChans allChans _ u (by decide) (fun k _ b hk => hb k b ?_) (hread.device hd) hu
      rwa [readied, chan_readMasks_classified] at hk
    rw [irqLeave_mem, resetPhase_mem, audioHandOff_mem]
    exact (hread.trans hloop).byte

/-- `irq_active` is clear before an invocation and after it. -/
theorem OnlyInterruptState.leave {s u : State} (hidle : s.irqActive = false) (h : OnlyInterruptState (irqEnter s) u) :
    OnlyInterruptState s (irqLeave u) := by
  unfold OnlyInterruptState at *
  conv_lhs => rw [h]
  simp only [irqLeave, irqEnter, hidle]

/-- Settles O43: the state an invocation can change, the formats no section changes, and the bytes the loop leaves
alone. -/
theorem interruptFrame : Obligations.InterruptFrame := by
  intro s t hidle h
  rw [exec_irq hidle] at h
  obtain ⟨u, hu, hut⟩ := onlyInterrupt_dispatch h
  obtain ⟨v, hv, hvt⟩ := sameFormat_closed.dispatch h
  refine ⟨hut ▸ hu.leave hidle, fun k => ?_, fun a hb hd => dispatch_read hb hd h⟩
  rw [hvt]
  exact hv k

end Sys2Proof.Machine

/-! ## Operations taken section by section (60_exceptions.md R262, R266)

A section reads neither the command in progress nor the phase of the invocation, so the sections one after another are
the whole operation. -/

namespace Sys2Proof.Machine

/-! ### The command executor -/

/-- The state with `task` in progress. -/
def State.withTask (s : State) (task : Option CmdTask) : State := { s with cmdTask := task }

@[simp] theorem withTask_chan (s : State) (task : Option CmdTask) (k : Chan) :
    (s.withTask task).chan k = s.chan k := rfl

@[simp] theorem withTask_cfg (s : State) (task : Option CmdTask) : (s.withTask task).cfg = s.cfg := rfl

theorem haltIfEmpty_withTask (e : Word) (s : State) (task : Option CmdTask) :
    haltIfEmpty e (s.withTask task) = (haltIfEmpty e s).withTask task := by
  unfold haltIfEmpty
  split <;> rfl

theorem disableBits_withTask (bits : Word) (s : State) (task : Option CmdTask) :
    disableBits bits (s.withTask task) = (disableBits bits s).withTask task :=
  haltIfEmpty_withTask (s.dev.dmaEn &&& ~~~bits) (setEnable (s.dev.dmaEn &&& ~~~bits) (regRead .dmaEn s)) task

theorem programStep_withTask (k : Chan) (s : State) (j : Nat) (task : Option CmdTask) :
    programStep k (s.withTask task) j = (programStep k s j).withTask task := by
  unfold programStep
  split
  · rfl
  · split <;> rfl

theorem stopFlushSection_withTask (k : Chan) (s : State) (task : Option CmdTask) :
    stopFlushSection k (s.withTask task) = (stopFlushSection k s).withTask task := by
  rw [stopFlushSection_eq, stopFlushSection_eq]
  rfl

theorem enqueueSection_withTask (k : Chan) (addr cap : Word) (s : State) (task : Option CmdTask) :
    enqueueSection k addr cap (s.withTask task) = (enqueueSection k addr cap s).withTask task := by
  rw [enqueueSection, enqueueSection, withTask_chan, withTask_cfg]
  split <;> rfl

theorem setFormatSection_withTask (k : Chan) (w h : BitVec 16) (b : BitVec 3) (m : FieldMode) (s : State)
    (task : Option CmdTask) :
    setFormatSection k w h b m (s.withTask task) = (setFormatSection k w h b m s).withTask task := by
  by_cases hidle : (s.chan k).fsm = .idle
  · rw [setFormatSection_idle w h b m hidle, setFormatSection_idle w h b m (s := s.withTask task) hidle]
    rfl
  · have hskip (u : State) (hu : ¬ (u.chan k).fsm = .idle) : setFormatSection k w h b m u = u := if_neg hu
    rw [hskip s hidle, hskip (s.withTask task) hidle]

/-- A section of a command does not look at which command is in progress. -/
theorem taskEffect_withTask (done : CmdTask) (s : State) (task : Option CmdTask) :
    taskEffect done (s.withTask task) = (taskEffect done s).withTask task := by
  cases done with
  | disable id => exact disableBits_withTask _ s task
  | startProgram k j => exact programStep_withTask k s j task
  | stopDisable k => exact disableBits_withTask _ { s with videoCap := s.videoCap &&& ~~~maskBit k } task
  | enqueue k addr cap => exact enqueueSection_withTask k addr cap s task
  | setFormat k w h b m => exact setFormatSection_withTask k w h b m s task
  | stopFlush k => exact stopFlushSection_withTask k s task
  | enable | startCheck | startQueue | startEnable | readStatus | respond => rfl

theorem srValue_withTask (s : State) (task : Option CmdTask) (idx : BitVec 16) :
    srValue (s.withTask task) idx = srValue s idx := by
  unfold srValue
  split
  · rfl
  · unfold srGlobal
    split <;> rfl

theorem nextTask_withTask (done : CmdTask) (s : State) (task : Option CmdTask) :
    nextTask done (s.withTask task) = nextTask done s := by
  cases done with
  | readStatus idx => rw [nextTask, nextTask, srValue_withTask]
  | _ => rfl

theorem advanceExecutor_withTask (task : CmdTask) (s : State) :
    advanceExecutor (s.withTask (some task)) = (taskEffect task s).withTask (nextTask task s) := by
  rw [← nextTask_withTask task s (some task)]
  change (taskEffect task (s.withTask (some task))).withTask _ = _
  rw [taskEffect_withTask]
  rfl

/-- From `task` on, `n` sections take `s` to `u`, and no command is left in progress. -/
def Finishes (task : CmdTask) (s : State) (n : Nat) (u : State) : Prop :=
  executorRun n (s.withTask (some task)) = u.withTask none

theorem finishes_respond (status : Status) (data : Word) (s : State) :
    Finishes (.respond status data) s 1 (respond status data s) := rfl

theorem Finishes.cons {task next : CmdTask} {s u : State} {n : Nat} (h : Finishes next (taskEffect task s) n u)
    (hnext : nextTask task s = some next) : Finishes task s (n + 1) u := by
  rw [Finishes, executorRun, advanceExecutor_withTask, hnext]
  exact h

theorem finishes_startQueue (k : Chan) (s : State) :
    Finishes (.startQueue k) s 3 (respond .ok 0 (startEnableSection k (startQueueSection k s))) :=
  ((finishes_respond .ok 0 _).cons (task := .startEnable k) rfl).cons rfl

/-- ProgramBuffers is its six steps (41_host_stream_queue.md R156). -/
theorem finishes_startProgram (k : Chan) (s : State) :
    Finishes (.startProgram k 0) s 9
      (respond .ok 0 (startEnableSection k (startQueueSection k (programBuffers k s)))) :=
  ((((((finishes_startQueue k _).cons (task := .startProgram k 5) rfl).cons (task := .startProgram k 4) rfl).cons
    (task := .startProgram k 3) rfl).cons (task := .startProgram k 2) rfl).cons
    (task := .startProgram k 1) rfl).cons rfl

/-- START takes ten sections at most: the test, six steps of ProgramBuffers, sections 2 and 3, the response (R158). -/
theorem finishes_startCheck (k : Chan) (s : State) : ∃ n ≤ 10, Finishes (.startCheck k) s n (startChannel k s) := by
  have hnext : nextTask (.startCheck k) s = some (afterCheck k (s.chan k)) := rfl
  by_cases hs : startable (s.chan k) = true
  · cases ha : (s.chan k).alloc with
    | true =>
      rw [startChannel_later hs ha]
      have hqueue : nextTask (.startCheck k) s = some (.startQueue k) := by rw [hnext, afterCheck, if_pos hs, if_pos ha]
      exact ⟨4, by omega, (finishes_startQueue k s).cons (task := .startCheck k) hqueue⟩
    | false =>
      rw [startChannel_first hs ha]
      have hprogram : nextTask (.startCheck k) s = some (.startProgram k 0) := by
        rw [hnext, afterCheck, if_pos hs, ha]
        rfl
      exact ⟨10, le_rfl, (finishes_startProgram k s).cons (task := .startCheck k) hprogram⟩
  · rw [startChannel_rejected hs]
    exact ⟨2, by omega, (finishes_respond _ _ s).cons (by rw [hnext, afterCheck, if_neg hs])⟩

theorem finishes_stopDisable (k : Chan) (s : State) :
    Finishes (.stopDisable k) s 3 (respond .ok 0 (stopFlushSection k (stopDisableSection k s))) :=
  ((finishes_respond .ok 0 _).cons (task := .stopFlush k) rfl).cons rfl

/-- Every command, from its first section on. -/
theorem exec_finishes {i : Instr} {s : State} {task : CmdTask} (h : firstTask s.cfg i = some task) :
    ∃ n ≤ 10, ∃ u, exec i s = .next u ∧ Finishes task s n u := by
  cases i with
  | enable id => cases h; exact ⟨2, by omega, _, rfl, (finishes_respond .ok 0 _).cons rfl⟩
  | disable id => cases h; exact ⟨2, by omega, _, rfl, (finishes_respond .ok 0 _).cons rfl⟩
  | start ch =>
    cases hch : chanOf ch with
    | none =>
      simp only [firstTask, hch, Option.some.injEq] at h
      subst h
      exact ⟨1, by omega, _, by simp only [exec, execStart, hch], finishes_respond .errChannel 0 s⟩
    | some k =>
      simp only [firstTask, hch, Option.some.injEq] at h
      subst h
      obtain ⟨n, hn, hrun⟩ := finishes_startCheck k s
      exact ⟨n, hn, _, by simp only [exec, execStart, hch], hrun⟩
  | stop ch =>
    cases hch : chanOf ch with
    | none =>
      simp only [firstTask, hch, Option.some.injEq] at h
      subst h
      exact ⟨1, by omega, _, by simp only [exec, execStop, hch], finishes_respond .errChannel 0 s⟩
    | some k =>
      simp only [firstTask, hch, Option.some.injEq] at h
      subst h
      exact ⟨3, by omega, _, by simp only [exec, execStop, hch], finishes_stopDisable k s⟩
  | enq ch addr cap =>
    cases hch : chanOf ch with
    | none =>
      simp only [firstTask, hch, Option.some.injEq] at h
      subst h
      exact ⟨1, by omega, _, by simp only [exec, execEnq, hch], finishes_respond .errChannel 0 s⟩
    | some k =>
      by_cases hrange : bufInRange addr cap = true
      · simp only [firstTask, hch, if_pos hrange, Option.some.injEq] at h
        subst h
        exact ⟨2, by omega, _, by simp only [exec, execEnq, hch, if_pos hrange],
          (finishes_respond _ 0 (enqueueSection k addr cap s)).cons (task := .enqueue k addr cap) rfl⟩
      · simp only [firstTask, hch, if_neg hrange, Option.some.injEq] at h
        subst h
        exact ⟨1, by omega, _, by simp only [exec, execEnq, hch, if_neg hrange], finishes_respond .errRange 0 s⟩
  | setfmt ch w hgt b m =>
    cases hch : chanOf ch with
    | none =>
      simp only [firstTask, hch, Option.some.injEq] at h
      subst h
      exact ⟨1, by omega, _, by simp only [exec, execSetfmt, hch], finishes_respond .errChannel 0 s⟩
    | some k =>
      by_cases hrange : fmtInRange s.cfg w hgt b m = true
      · simp only [firstTask, hch, if_pos hrange, Option.some.injEq] at h
        subst h
        exact ⟨2, by omega, _, by simp only [exec, execSetfmt, hch, if_pos hrange],
          (finishes_respond _ 0 (setFormatSection k w hgt b m s)).cons (task := .setFormat k w hgt b m) rfl⟩
      · simp only [firstTask, hch, if_neg hrange, Option.some.injEq] at h
        subst h
        exact ⟨1, by omega, _, by simp only [exec, execSetfmt, hch, if_neg hrange], finishes_respond .errRange 0 s⟩
  | rdsr idx =>
    by_cases hassigned : srAssigned idx = true
    · simp only [firstTask, if_pos hassigned, Option.some.injEq] at h
      subst h
      exact ⟨2, by omega, _, if_pos hassigned, (finishes_respond .ok _ s).cons (task := .readStatus idx) rfl⟩
    · simp only [firstTask, if_neg hassigned, Option.some.injEq] at h
      subst h
      exact ⟨1, by omega, _, if_neg hassigned, finishes_respond .errRange 0 s⟩
  | irq | tdefer | twdog => cases h

/-- Settles O57: the whole operation begins with no command in progress and leaves none. -/
theorem commandSectionsComposeToTheOperation : Obligations.CommandSectionsComposeToTheOperation := by
  intro i s task h
  obtain ⟨n, hn, u, hu, hrun⟩ := exec_finishes (s := s.withTask none) h
  have hdone : u.withTask none = u := by
    have htask : u.cmdTask = none := (confined_exec hu).cmdTask
    rw [State.withTask, ← htask]
  exact ⟨n, hn, hu.trans (congrArg Host.Outcome.next (hdone.symm.trans hrun.symm))⟩

/-! ### The sections of an invocation do not look at its phase -/

/-- The state with an invocation in the phase `p`. -/
def State.atPhase (s : State) (p : IrqPhase) : State := s.phase fun _ => p

/-- The outcome with the phase `p`. -/
def outcomeAt (p : IrqPhase) (r : Res) : Res := andThen r fun t => .next (t.atPhase p)

section
variable (p : IrqPhase) (s : State)

@[simp] theorem atPhase_cfg : (s.atPhase p).cfg = s.cfg := rfl

@[simp] theorem atPhase_dev : (s.atPhase p).dev = s.dev := rfl

@[simp] theorem atPhase_lat : (s.atPhase p).lat = s.lat := rfl

@[simp] theorem atPhase_chan (k : Chan) : (s.atPhase p).chan k = s.chan k := rfl

theorem landFill_atPhase (addr n : Nat) : landFill addr n (s.atPhase p) = (landFill addr n s).atPhase p := by
  rw [landFill, landFill, atPhase_dev]
  split <;> rfl

theorem copyLine_atPhase (src dst n : Nat) : copyLine src dst n (s.atPhase p) = outcomeAt p (copyLine src dst n s) := by
  unfold copyLine
  split
  · rfl
  split
  · rfl
  · rw [landFill_atPhase]
    rfl

theorem copyLines_atPhase (src dst cap pitch off0 step n i : Nat) :
    copyLines src dst cap pitch off0 step n i (s.atPhase p) =
      outcomeAt p (copyLines src dst cap pitch off0 step n i s) := by
  induction n generalizing i s with
  | zero => rfl
  | succ n ih =>
    rw [copyLines, copyLines, atPhase_cfg, copyLine_atPhase]
    split
    · rfl
    split
    · rfl
    · cases copyLine (src + i * pitch) (dst + (off0 + i * step)) pitch s with
      | next u => exact ih u (i + 1)
      | fault | refused => rfl

/-- A copy, and then a step that does not look at the phase. -/
theorem copy_atPhase {g : State → State} (hg : ∀ u, g (u.atPhase p) = (g u).atPhase p) (k : Chan) (f : FieldNo)
    (slot : Slot) (single : Bool) (b : Entry) :
    (andThen (copyField k f slot single b (s.atPhase p)) fun u => .next (g u)) =
      outcomeAt p (andThen (copyField k f slot single b s) fun u => .next (g u)) := by
  have hcopy : copyField k f slot single b (s.atPhase p) = outcomeAt p (copyField k f slot single b s) :=
    copyLines_atPhase p s _ _ _ _ _ _ _ _
  rw [hcopy]
  cases copyField k f slot single b s with
  | next u => exact congrArg Host.Outcome.next (hg u)
  | fault | refused => rfl

theorem fieldEvent_atPhase (k : Chan) (f : FieldNo) (slot : Slot) (b : Entry) :
    fieldEvent k f slot b (s.atPhase p) = outcomeAt p (fieldEvent k f slot b s) := by
  have hsingle (f : FieldNo) (tag : FieldMode) :
      singleField k f slot b tag (s.atPhase p) = outcomeAt p (singleField k f slot b tag s) :=
    copy_atPhase p s (fun _ => rfl) k f slot true b
  rw [fieldEvent, fieldEvent, atPhase_chan]
  cases hmode : (s.chan k).fieldMode with
  | interlaced =>
    dsimp only
    split
    · split
      · exact copy_atPhase p s (fun _ => rfl) k .f1 slot false b
      · rfl
    · split
      · exact copy_atPhase p s (fun _ => rfl) k .f0 slot false b
      · rfl
  | top | bottom =>
    dsimp only
    split
    · exact hsingle _ _
    · rfl
  | alternate => exact hsingle _ _

theorem channelWork_atPhase (k : Chan) : channelWork k (s.atPhase p) = outcomeAt p (channelWork k s) := by
  rw [channelWork, channelWork, atPhase_chan, atPhase_lat]
  split
  · rfl
  split
  · rfl
  split
  · rfl
  split
  · rfl
  cases (s.chan k).queue with
  | nil => rfl
  | cons b q => exact fieldEvent_atPhase p s k _ _ b

theorem audioHandOff_atPhase : audioHandOff (s.atPhase p) = (audioHandOff s).atPhase p := by
  rw [audioHandOff, audioHandOff, atPhase_lat]
  split <;> rfl

theorem discardInFlight_atPhase (k : Chan) : discardInFlight k (s.atPhase p) = (discardInFlight k s).atPhase p := by
  rw [discardInFlight_eq, discardInFlight_eq]
  rfl

theorem haltIfEmpty_atPhase (e : Word) : haltIfEmpty e (s.atPhase p) = (haltIfEmpty e s).atPhase p := by
  unfold haltIfEmpty
  split <;> rfl

theorem resetSection_atPhase (m : Mask) : resetSection m (s.atPhase p) = (resetSection m s).atPhase p := by
  have hhalt := haltIfEmpty_atPhase p
    (setEnable (s.dev.dmaEn &&& ~~~(m.setWidth 32)) (regRead .dmaCmd (regRead .dmaEn s)))
    (s.dev.dmaEn &&& ~~~(m.setWidth 32))
  rw [resetSection_eq, resetSection_eq]
  exact congrArg (recordFault m s.dev.dmaEn s.dev.dmaCmd) hhalt

end

/-! ### The channels still to be served -/

/-- A loop over the channels a mask selects, taken from the list beforehand. -/
theorem forChans_eq_filter (m : Mask) (f : Chan → State → Res) (ks : List Chan) (s : State) :
    forChans m f ks s = forChans (BitVec.allOnes 8) f (ks.filter fun k => m.getLsbD k.val) s := by
  have hall (k : Chan) : (BitVec.allOnes 8).getLsbD k.val = true :=
    BitVec.getLsbD_allOnes.trans (decide_eq_true k.isLt)
  induction ks generalizing s with
  | nil => rfl
  | cons k ks ih =>
    rw [forChans, List.filter_cons]
    split
    · rw [forChans, if_pos (hall k)]
      exact congrArg _ (funext ih)
    · exact ih s

theorem discardAll_eq_filter (m : Mask) (s : State) :
    discardAll m s = (chansOf m).foldl (fun t k => discardInFlight k t) s := by
  rw [chansOf, List.foldl_filter]
  rfl

theorem mem_chansOf {m : Mask} {k : Chan} : k ∈ chansOf m ↔ m.getLsbD k.val = true := by
  simp [chansOf, mem_allChans]

theorem length_chansOf_le (m : Mask) : (chansOf m).length ≤ 8 := List.length_filter_le _ _

theorem chansOf_eq_nil {m : Mask} : chansOf m = [] ↔ m = 0 := by
  constructor
  · intro h
    apply BitVec.eq_of_getLsbD_eq
    intro i hi
    have hnone : (⟨i, hi⟩ : Chan) ∉ chansOf m := by simp [h]
    rw [mem_chansOf] at hnone
    simpa using hnone
  · rintro rfl
    rfl

theorem getLsbD_maskBit_self (k : Chan) : (maskBit k).getLsbD k.val = true := by fin_cases k <;> decide

/-- Serving the first channel leaves the rest to be served. -/
theorem chansOf_clear {m : Mask} {k : Chan} {ks : List Chan} (h : chansOf m = k :: ks) :
    chansOf (m &&& ~~~maskBit k) = ks := by
  have hbit (j : Chan) : (m &&& ~~~maskBit k).getLsbD j.val = (decide (j ≠ k) && m.getLsbD j.val) := by
    rw [BitVec.getLsbD_and, BitVec.getLsbD_not]
    by_cases hj : j = k
    · subst hj
      rw [getLsbD_maskBit_self]
      simp
    · rw [getLsbD_maskBit_ne hj]
      simp [hj]
  have hnodup : (k :: ks).Nodup := h ▸ List.Nodup.filter _ (by decide)
  obtain ⟨hk, -⟩ := List.nodup_cons.1 hnodup
  simp only [chansOf, hbit] at h ⊢
  rw [← List.filter_filter, h, List.filter_cons, if_neg (by simp), List.filter_eq_self]
  intro j hj
  have hne : j ≠ k := fun he => hk (he ▸ hj)
  simpa using hne

theorem pickChan_first {m : Mask} {k : Chan} {ks : List Chan} (h : chansOf m = k :: ks) : pickChan m 0 = some k := by
  simp [pickChan, h]

/-! ### The dispatcher, section by section -/

/-- At most `n` sections of the dispatcher, channels in ascending order, lead from `s` to `t`. -/
def Reaches (n : Nat) (s t : State) : Prop := ∃ m ≤ n, dispatcherRun m s = .next t

theorem dispatcherRun_add (m n : Nat) (s : State) :
    dispatcherRun (m + n) s = andThen (dispatcherRun m s) (dispatcherRun n) := by
  induction m generalizing s with
  | zero => rw [Nat.zero_add]; rfl
  | succ m ih =>
    rw [Nat.succ_add, dispatcherRun, dispatcherRun, andThen_assoc]
    exact congrArg _ (funext ih)

theorem Reaches.refl (n : Nat) (s : State) : Reaches n s s := ⟨0, Nat.zero_le n, rfl⟩

theorem Reaches.trans {m n : Nat} {s t u : State} (h : Reaches m s t) (g : Reaches n t u) : Reaches (m + n) s u := by
  obtain ⟨m', hm, hrun⟩ := h
  obtain ⟨n', hn, hrun'⟩ := g
  refine ⟨m' + n', Nat.add_le_add hm hn, ?_⟩
  rw [dispatcherRun_add, hrun]
  exact hrun'

theorem Reaches.mono {m n : Nat} {s t : State} (h : Reaches m s t) (hmn : m ≤ n) : Reaches n s t := by
  obtain ⟨m', hm, hrun⟩ := h
  exact ⟨m', hm.trans hmn, hrun⟩

theorem reaches_section {s t : State} (h : advanceDispatcher 0 s = .next t) : Reaches 1 s t :=
  ⟨1, le_rfl, by rw [dispatcherRun, h]; rfl⟩

theorem advanceDispatcher_channels {pick : Nat} {m : Mask} {k : Chan} {s : State} (h : pickChan m pick = some k) :
    advanceDispatcher pick (s.atPhase (.channels m)) =
      andThen (channelWork k (s.atPhase (.channels m))) fun t =>
        .next (t.atPhase (channelPhaseOf t (m &&& ~~~maskBit k))) := by
  have hphase : (s.atPhase (.channels m)).irqPhase = .channels m := rfl
  simp only [advanceDispatcher, hphase, h]
  rfl

theorem advanceDispatcher_discard {pick : Nat} {m : Mask} {k : Chan} {s : State} (h : pickChan m pick = some k) :
    advanceDispatcher pick (s.atPhase (.discard m)) =
      .next ((discardInFlight k s).atPhase (discardPhaseOf (m &&& ~~~maskBit k))) := by
  have hphase : (s.atPhase (.discard m)).irqPhase = .discard m := rfl
  simp only [advanceDispatcher, hphase, h, discardInFlight_atPhase]
  rfl

/-- The sections of P5 for the ready channels. -/
theorem reaches_channels : ∀ (ks : List Chan) (m : Mask) (s u : State), chansOf m = ks →
    forChans (BitVec.allOnes 8) channelWork ks s = .next u →
    Reaches ks.length (s.atPhase (channelPhaseOf s m)) (u.atPhase (audioPhaseOf u)) := by
  intro ks
  induction ks with
  | nil =>
    intro m s u hm h
    cases h
    obtain rfl := chansOf_eq_nil.1 hm
    exact .refl 0 _
  | cons k ks ih =>
    intro m s u hm h
    have hsome : m ≠ 0 := fun h0 => by rw [chansOf_eq_nil.2 h0] at hm; cases hm
    rw [forChans, if_pos (BitVec.getLsbD_allOnes.trans (decide_eq_true k.isLt))] at h
    obtain ⟨v, hv, hu⟩ := andThen_eq_next.1 h
    have hphase : channelPhaseOf s m = .channels m := if_neg hsome
    have hfirst : advanceDispatcher 0 (s.atPhase (.channels m)) =
        .next (v.atPhase (channelPhaseOf v (m &&& ~~~maskBit k))) := by
      rw [advanceDispatcher_channels (pickChan_first hm), channelWork_atPhase, hv]
      rfl
    rw [hphase, List.length_cons, Nat.add_comm]
    exact (reaches_section hfirst).trans (ih _ v u (chansOf_clear hm) hu)

/-- Section A of the reset operation, channel by channel. -/
theorem reaches_discard : ∀ (ks : List Chan) (m : Mask) (s : State), chansOf m = ks →
    Reaches ks.length (s.atPhase (discardPhaseOf m))
      ((ks.foldl (fun t k => discardInFlight k t) s).atPhase .resetRegs) := by
  intro ks
  induction ks with
  | nil =>
    intro m s hm
    obtain rfl := chansOf_eq_nil.1 hm
    exact .refl 0 _
  | cons k ks ih =>
    intro m s hm
    have hsome : m ≠ 0 := fun h0 => by rw [chansOf_eq_nil.2 h0] at hm; cases hm
    have hphase : discardPhaseOf m = .discard m := if_neg hsome
    rw [hphase, List.length_cons, Nat.add_comm]
    exact (reaches_section (advanceDispatcher_discard (pickChan_first hm))).trans (ih _ _ (chansOf_clear hm))

theorem reaches_leave (s : State) : Reaches 1 (s.atPhase .leave) ((irqLeave s).atPhase .idle) := reaches_section rfl

theorem reaches_resetRegs (s : State) :
    Reaches 1 (s.atPhase .resetRegs) ((resetSection s.lat.rst s).atPhase .leave) := by
  refine reaches_section ?_
  change Host.Outcome.next ((resetSection s.lat.rst (s.atPhase .resetRegs)).atPhase .leave) = _
  rw [resetSection_atPhase]
  rfl

/-- P6 and the end of the invocation: the reset operation if a channel is flagged (R247). -/
theorem reaches_reset (s : State) :
    Reaches 10 (s.atPhase (resetPhaseOf s)) ((irqLeave (resetPhase s)).atPhase .idle) := by
  by_cases hnone : s.lat.rst = 0
  · have hphase : resetPhaseOf s = .leave := if_pos hnone
    rw [hphase, resetPhase_none hnone]
    exact (reaches_leave s).mono (by omega)
  · have hphase : resetPhaseOf s = discardPhaseOf s.lat.rst := by
      rw [resetPhaseOf, discardPhaseOf, if_neg hnone, if_neg hnone]
    have hrst : (discardAll s.lat.rst s).lat.rst = s.lat.rst := by
      obtain ⟨contexts, hdiscard⟩ := discardAll_onlyContexts s.lat.rst s
      rw [hdiscard]
    have hdiscard := (reaches_discard _ s.lat.rst s rfl).mono (length_chansOf_le _)
    have hregs := reaches_resetRegs (discardAll s.lat.rst s)
    rw [← discardAll_eq_filter] at hdiscard
    rw [hrst] at hregs
    rw [hphase, resetPhase, if_neg hnone]
    exact (hdiscard.trans hregs).trans (reaches_leave _)

/-- The hand-off of audio, where there is one (R246). -/
theorem reaches_audio (s : State) :
    Reaches 1 (s.atPhase (audioPhaseOf s)) ((audioHandOff s).atPhase (resetPhaseOf (audioHandOff s))) := by
  by_cases hnone : audioReady s.lat.st = 0
  · have hphase : audioPhaseOf s = resetPhaseOf s := if_pos hnone
    rw [hphase, audioHandOff_none hnone]
    exact .refl 1 _
  · have hphase : audioPhaseOf s = .audio := if_neg hnone
    rw [hphase]
    refine reaches_section ?_
    change Host.Outcome.next ((audioHandOff (s.atPhase .audio)).phase resetPhaseOf) = _
    rw [audioHandOff_atPhase]
    rfl

/-- P1: the two reads, and the class (R234, R235). -/
theorem reaches_class (s : State) :
    Reaches 2 ((irqEnter s).atPhase .readInt) ((classified s).atPhase (classPhaseOf (classified s))) :=
  (reaches_section rfl : Reaches 1 _ ((readInt (irqEnter s)).atPhase .readFifo)).trans (reaches_section rfl)

/-- P2 (R238). -/
theorem reaches_timeout (s : State) :
    Reaches 1 (s.atPhase .timeout) ((raiseTimeout s).atPhase (resetPhaseOf (raiseTimeout s))) := reaches_section rfl

/-- P3 and P4 (R239, R240). -/
theorem reaches_masks (s : State) :
    Reaches 2 (s.atPhase .masks) ((readMasks s).atPhase (channelPhaseOf (readMasks s) (latchedReady (readMasks s)))) :=
  (reaches_section rfl : Reaches 1 _ ((readMasks s).atPhase .ready)).trans (reaches_section rfl)

theorem classPhaseOf_classified (s : State) :
    classPhaseOf (classified s) =
      if notOurs s.cfg s.dev.intStatus s.dev.fifoStatus then .leave
      else if timedOut s.cfg s.dev.intStatus then .timeout else .masks := by
  rw [classPhaseOf, classified_eq]

/-- The whole invocation: at most 23 sections. -/
theorem reaches_dispatch {s t : State} (h : dispatch s = .next t) :
    Reaches 23 ((irqEnter s).atPhase .readInt) (t.atPhase .idle) := by
  have hclass := reaches_class s
  rw [classPhaseOf_classified] at hclass
  rw [dispatch_eq] at h
  split at h
  · next hours =>
    cases h
    rw [if_pos hours] at hclass
    exact (hclass.trans (reaches_leave _)).mono (by omega)
  next hours =>
  rw [if_neg hours] at hclass
  split at h
  · next htimeout =>
    cases h
    rw [if_pos htimeout] at hclass
    exact ((hclass.trans (reaches_timeout _)).trans (reaches_reset _)).mono (by omega)
  next htimeout =>
  rw [if_neg htimeout] at hclass
  obtain ⟨u, hu, ht⟩ := andThen_eq_next.1 h
  cases ht
  have hmasks := reaches_masks (classified s)
  rw [forChans_eq_filter] at hu
  have hchannels := (reaches_channels _ (readySet s) (readied s) u rfl hu).mono (length_chansOf_le _)
  rw [← latchedReady_readied] at hchannels
  exact ((((hclass.trans hmasks).trans hchannels).trans (reaches_audio u)).trans (reaches_reset _)).mono (by omega)

/-! ### The watchdog -/

theorem wdogSection_pending (s : State) (b : Bool) :
    wdogSection { s with wdogPending := b } = { wdogSection s with wdogPending := b } := by
  rw [wdogSection_eq, wdogSection_eq]
  split <;> rfl

/-- A tick in progress takes its device section, and none is in progress any more. -/
theorem advanceWatchdog_pending {s : State} (h : s.wdogPending = false) :
    advanceWatchdog { s with wdogPending := true } = wdogSection s := by
  have hdone : (wdogSection s).wdogPending = false := by
    rw [wdogSection_onlyDma s]
    exact h
  rw [advanceWatchdog, if_pos rfl, wdogSection_pending, ← hdone]

theorem advanceWatchdog_none {s : State} (h : s.wdogPending = false) : advanceWatchdog s = s :=
  if_neg (Bool.eq_false_iff.1 h)

theorem takeWdog_asserted {s : State} (hline : (evLines s).getLsbD 2 = true) (hpending : s.wdogPending = false) :
    takeWdog s = if wdogEnabled s then { wdogRearm (clearLine 0b100 s) with wdogPending := true }
      else clearLine 0b100 s := by
  have hrequest : evLines s &&& 0b100 ≠ 0 := and_ne_zero_of_getLsbD hline rfl
  refine if_neg ?_
  simpa only [hpending, Bool.or_false, decide_eq_true_eq] using hrequest

/-- Settles O58: the invocation ends in the phase it began in; the tick's device section follows its rearming. -/
theorem eventSectionsComposeToTheOperation : Obligations.EventSectionsComposeToTheOperation := by
  constructor
  · intro s t hidle h
    have hphase : t.irqPhase = .idle := (eventKeeps_execIrq h).phase
    have hdispatch : dispatch (s.atPhase .idle) = .next t := (exec_irq (s := s.atPhase .idle) hidle).symm.trans h
    obtain ⟨n, hn, hrun⟩ := reaches_dispatch hdispatch
    have hdone : t.atPhase .idle = t := by rw [State.atPhase, State.phase, ← hphase]
    exact ⟨n, by omega, hrun.trans (congrArg _ hdone)⟩
  · intro s hpending hline
    have htake := takeWdog_asserted ((twdog_asserted_iff s).2 hline) hpending
    have henabled : wdogEnabled (clearLine 0b100 s) = wdogEnabled s := rfl
    change exec .twdog (clearLine 0b100 s) = .next (advanceWatchdog (takeWdog s))
    rw [exec_twdog, htake, henabled]
    split
    · rw [advanceWatchdog_pending (s := wdogRearm (clearLine 0b100 s)) hpending]
    · rw [advanceWatchdog_none (s := clearLine 0b100 s) hpending]

end Sys2Proof.Machine

/-! ## The hardware reset move (70_reset_and_hazards.md R290) -/

namespace Sys2Proof.Machine

/-- The reset input is a move of its own: whatever was in progress, the next state is `hwReset` of what the schedule
leaves. -/
theorem step_hwReset {s : State} {moves : List Move} (h : s.sched = .hwReset :: moves) :
    step s = .next (hwReset { s with sched := moves }) :=
  step_cons h

/-- Every context is the one `State.reset` holds. -/
@[simp] theorem hwReset_chan (s : State) (k : Chan) : (hwReset s).chan k = State.reset.chan k := rfl

/-- Settles O2: the step is `hwReset`, whose block state is written as `State.reset` has it, but for the deadline, which
the state's own `T_WDOG` gives. -/
theorem hardwareResetRestoresTheBlock : Obligations.HardwareResetRestoresTheBlock := by
  intro s moves hsched
  refine ⟨_, step_hwReset hsched, hwReset_chan _, ?_⟩
  and_intros <;> rfl

end Sys2Proof.Machine
